-- ==== Sys2Proof/Word.lean ====
section
/-! DEFINITION. The word types of the MRC: the 208-bit operation word, 64-bit words, bytes of the
transport convention (00_scope.md R6, 30_encoding.md R80, 20_memory.md R61). -/

namespace Sys2Proof

/-- One operation word `W`, `W[207]` the most significant bit (R6, R80). -/
abbrev OpWord := BitVec 208

/-- A 64-bit word: an operand field, a response word, the LCG state (R6, R81, R92). -/
abbrev Word64 := BitVec 64

/-- A binary64 number, held as its IEEE 754 encoding: sign bit 63, exponent bits 62 to 52, fraction
bits 51 to 0 (`f64(bits)` of R6; the number type `Num` of R8). -/
abbrev F64 := BitVec 64

/-- A byte of the transport form of an operation word (R61). -/
abbrev Byte := BitVec 8

end Sys2Proof
end

