-- ==== Sys2Proof/Syntax.lean ====
section
/-! DEFINITION. The 21 operations of the MRC (30_encoding.md R83, spec/opcode_table.json), and the
enumerations their operands name. Semantics stand in Machine/. -/

namespace Sys2Proof

/-- The closed waveform set (R22, R86), in the order of its codes 0 to 3. -/
inductive Waveform where
  | saw | pulse | triangle | sine
deriving DecidableEq, Repr

/-- The six noise colours (R32, R87), in the order of their codes 0 to 5. -/
inductive NoiseColour where
  | white | pink | brown | blue | violet | grey
deriving DecidableEq, Repr

/-- One constructor per row of the opcode table. `vi` is the voice index (0 to 255 in the word, R81);
`num` operands are binary64 encodings, `bool` operands Booleans, the colour operand is its code, of
which 6 and 7 are reserved and do nothing (R82, R87). -/
inductive Instr where
  | nop
  | tick
  | snap
  | setgate (on : Bool)
  | setvolt (vi : Nat) (volts : F64)
  | setdetune (vi : Nat) (octaves : F64)
  | setwave (vi : Nat) (wave : Waveform)
  | setmixlvl (vi : Nat) (lvl : F64)
  | setoscen (vi : Nat) (on : Bool)
  | setnoiselvl (lvl : F64)
  | setnoiseen (on : Bool)
  | setnoisecol (code : Nat)
  | setmaster (lvl : F64)
  | setcutoff (hz : F64)
  | setemph (amount : F64)
  | setcontour (amount : F64)
  | setfenv (attack decay sustain : F64)
  | setlenv (attack decay sustain : F64)
  | setrate (hz : F64)
  | setfrel (release : F64)
  | setlrel (release : F64)
deriving DecidableEq, Repr

end Sys2Proof
end

