-- ==== Sys2Proof/WellFormed.lean ====
section
/-! DEFINITION. Which terms of `Instr` an operation word can carry: the voice index has 8 bits (R81,
R93 "0 to 255") and the colour code 3 (R82, R93 "its code 0 to 7"). Every other operand's type already
holds exactly what its field can. -/

namespace Sys2Proof

/-- A voice index that the 8-bit field `vi` can hold (R81). -/
def viFits (vi : Nat) : Bool := vi < 256

/-- A colour code that the 3-bit field `A[2:0]` can hold (R82). -/
def colourFits (code : Nat) : Bool := code < 8

/-- The instruction has an operation word. -/
def Instr.wf : Instr → Bool
  | .nop | .tick | .snap => true
  | .setgate _ => true
  | .setvolt vi _ => viFits vi
  | .setdetune vi _ => viFits vi
  | .setwave vi _ => viFits vi
  | .setmixlvl vi _ => viFits vi
  | .setoscen vi _ => viFits vi
  | .setnoiselvl _ => true
  | .setnoiseen _ => true
  | .setnoisecol code => colourFits code
  | .setmaster _ => true
  | .setcutoff _ => true
  | .setemph _ => true
  | .setcontour _ => true
  | .setfenv _ _ _ => true
  | .setlenv _ _ _ => true
  | .setrate _ => true
  | .setfrel _ => true
  | .setlrel _ => true

end Sys2Proof
end

