-- ==== Sys2Proof/Decode.lean ====
section
/-! DEFINITION. Decoding, total on every word and every string of bytes, rejecting by name; then the
encoder, written from the same table; then the pseudo-operations (30_encoding.md R80 to R94). -/

namespace Sys2Proof

/-! ### Fields of the operation word (R81) and operand readings (R82) -/

/-- `W[207:200]`. -/
def opField (w : OpWord) : BitVec 8 := w.extractLsb' 200 8
/-- `W[199:192]`, the voice index. -/
def viField (w : OpWord) : BitVec 8 := w.extractLsb' 192 8
/-- `W[191:128]`. -/
def fieldA (w : OpWord) : Word64 := w.extractLsb' 128 64
/-- `W[127:64]`. -/
def fieldB (w : OpWord) : Word64 := w.extractLsb' 64 64
/-- `W[63:0]`. -/
def fieldC (w : OpWord) : Word64 := w.extractLsb' 0 64

/-- A bool operand: bit 0 of the field, 1 is true; the other bits are ignored (R82). -/
def boolOf (a : Word64) : Bool := a.getLsbD 0

/-- A waveform operand: `A[1:0]`, every code legal (R82, R86). -/
def waveOf (a : Word64) : Waveform :=
  match a.toNat % 4 with
  | 0 => .saw
  | 1 => .pulse
  | 2 => .triangle
  | _ => .sine

/-- A colour operand: `A[2:0]`, codes 6 and 7 included (R82, R87). -/
def colourOf (a : Word64) : Nat := a.toNat % 8

/-- The 2-bit code of a waveform (R86). -/
def waveCode : Waveform → Nat
  | .saw => 0
  | .pulse => 1
  | .triangle => 2
  | .sine => 3

/-! ### Decoding -/

/-- Why a word or a string of bytes is no instruction of the table. -/
inductive DecodeReject where
  /-- `op` is not one of the 21 values of R83. The machine executes such a word as `NOP` (R85, R89). -/
  | reservedOpcode (op : BitVec 8)
  /-- A transport string that is not 26 bytes long (R61). -/
  | notOneWord (bytes : Nat)
deriving DecidableEq, Repr

/-- The instruction of an operation word (R83, R85 steps 1 and 5). Which index is out of range and
which colour code is reserved are looked at when the instruction executes (R85 steps 3 and 4). -/
def decode (w : OpWord) : Except DecodeReject Instr :=
  let vi := (viField w).toNat
  let a := fieldA w
  match (opField w).toNat with
  | 0x00 => .ok .nop
  | 0x01 => .ok .tick
  | 0x02 => .ok .snap
  | 0x10 => .ok (.setgate (boolOf a))
  | 0x11 => .ok (.setvolt vi a)
  | 0x12 => .ok (.setdetune vi a)
  | 0x13 => .ok (.setwave vi (waveOf a))
  | 0x14 => .ok (.setmixlvl vi a)
  | 0x15 => .ok (.setoscen vi (boolOf a))
  | 0x16 => .ok (.setnoiselvl a)
  | 0x17 => .ok (.setnoiseen (boolOf a))
  | 0x18 => .ok (.setnoisecol (colourOf a))
  | 0x19 => .ok (.setmaster a)
  | 0x1A => .ok (.setcutoff a)
  | 0x1B => .ok (.setemph a)
  | 0x1C => .ok (.setcontour a)
  | 0x1D => .ok (.setfenv a (fieldB w) (fieldC w))
  | 0x1E => .ok (.setlenv a (fieldB w) (fieldC w))
  | 0x1F => .ok (.setrate a)
  | 0x20 => .ok (.setfrel a)
  | 0x21 => .ok (.setlrel a)
  | _ => .error (.reservedOpcode (opField w))

/-- What the machine executes for a word: its instruction, and `NOP` for a reserved opcode (R85 step
2, R89). -/
def decodeOrNop (w : OpWord) : Instr :=
  match decode w with
  | .ok i => i
  | .error _ => .nop

/-- The operation word that 26 bytes carry, `W[207:200]` first (R61). -/
def wordOfBytes (bytes : List Byte) : OpWord :=
  BitVec.ofNat 208 (bytes.foldl (fun n b => n * 256 + b.toNat) 0)

/-- The bytes that carry a word, `W[207:200]` first (R61). -/
def bytesOfWord (w : OpWord) : List Byte :=
  (List.range 26).map fun k => w.extractLsb' (200 - 8 * k) 8

/-- Decoding of the transport form (R61). -/
def decodeBytes (bytes : List Byte) : Except DecodeReject Instr :=
  if bytes.length = 26 then decode (wordOfBytes bytes) else .error (.notOneWord bytes.length)

/-- The word whose bits are `w`, numbered as spec/opcode_table.json numbers them: the table's match
and mask are the whole 208-bit word, bit 0 its least significant bit. -/
def tableWord (nbits w : Nat) : OpWord := BitVec.ofNat 208 (w % 2 ^ nbits)

/-- The instruction the decoder reads from the table's word; none where it refuses (log 1). -/
def decodeTableWord (nbits w : Nat) : Option Instr :=
  match decode (tableWord nbits w) with
  | .ok i => some i
  | .error _ => none

/-! ### Encoding (R81, R83, R93: zero in every unused field and every unused bit) -/

/-- `W = op ++ vi ++ A ++ B ++ C` (R81). -/
def packWord (op : BitVec 8) (vi : Nat) (a b c : Word64) : OpWord :=
  op ++ BitVec.ofNat 8 vi ++ a ++ b ++ c

/-- A bool operand in its field, the unused bits zero. -/
def boolField (b : Bool) : Word64 := if b then 1#64 else 0#64

/-- The operation word of an instruction. -/
def encode : Instr → OpWord
  | .nop => packWord 0x00#8 0 0#64 0#64 0#64
  | .tick => packWord 0x01#8 0 0#64 0#64 0#64
  | .snap => packWord 0x02#8 0 0#64 0#64 0#64
  | .setgate on => packWord 0x10#8 0 (boolField on) 0#64 0#64
  | .setvolt vi x => packWord 0x11#8 vi x 0#64 0#64
  | .setdetune vi x => packWord 0x12#8 vi x 0#64 0#64
  | .setwave vi wv => packWord 0x13#8 vi (BitVec.ofNat 64 (waveCode wv)) 0#64 0#64
  | .setmixlvl vi x => packWord 0x14#8 vi x 0#64 0#64
  | .setoscen vi on => packWord 0x15#8 vi (boolField on) 0#64 0#64
  | .setnoiselvl x => packWord 0x16#8 0 x 0#64 0#64
  | .setnoiseen on => packWord 0x17#8 0 (boolField on) 0#64 0#64
  | .setnoisecol code => packWord 0x18#8 0 (BitVec.ofNat 64 (code % 8)) 0#64 0#64
  | .setmaster x => packWord 0x19#8 0 x 0#64 0#64
  | .setcutoff x => packWord 0x1A#8 0 x 0#64 0#64
  | .setemph x => packWord 0x1B#8 0 x 0#64 0#64
  | .setcontour x => packWord 0x1C#8 0 x 0#64 0#64
  | .setfenv a d s => packWord 0x1D#8 0 a d s
  | .setlenv a d s => packWord 0x1E#8 0 a d s
  | .setrate x => packWord 0x1F#8 0 x 0#64 0#64
  | .setfrel x => packWord 0x20#8 0 x 0#64 0#64
  | .setlrel x => packWord 0x21#8 0 x 0#64 0#64

/-! ### Pseudo-operations (R94): conveniences of the notation, each a list of operations -/

/-- The pseudo-operations of R94. -/
inductive Pseudo where
  | setfadsr (a d s r : F64)
  | setladsr (a d s r : F64)
  | noteon (vi : Nat) (volts : F64)
  | noteoff
  | ticks (n : Nat)
deriving DecidableEq, Repr

/-- The expansion R94 gives each pseudo-operation. -/
def expandPseudo : Pseudo → List Instr
  | .setfadsr a d s r => [.setfenv a d s, .setfrel r]
  | .setladsr a d s r => [.setlenv a d s, .setlrel r]
  | .noteon vi v => [.setvolt vi v, .setgate true]
  | .noteoff => [.setgate false]
  | .ticks n => List.replicate n .tick

end Sys2Proof
end

