-- ==== Sys2Proof/Config.lean ====
section
/-! DEFINITION. What an implementation of the MRC fixes: the parameters of 00_scope.md R5 and the
values the spec leaves open. A constant with no body is a free value: no proof can see what it is. -/

namespace Sys2Proof

/-- The plain-data parameters of R5. Two more parameters of R5 are not data: the numerics `NUM` is
`Config.rawNumerics` below. -/
structure Params where
  /-- `NV`, the number of voices, 1 to 256. -/
  nv : Nat
  /-- `RING_N`, the number of ring slots, at least 1. -/
  ringN : Nat
  /-- `SEED0`, the reset value of the LCG state. -/
  seed0 : Word64
  /-- `OUT_LIM`, the bound of the output clamp, finite and above zero. -/
  outLim : F64
  /-- `PINK_B6_DELAYED`: whether the seventh pink tap is used one tick late (R156). -/
  pinkB6Delayed : Bool
deriving DecidableEq, Repr

/-- The three transcendental functions of the numerics record `NUM`: total functions from binary64
to binary64 that depend on their argument alone (R10). -/
structure Numerics where
  /-- An approximation of the sine of an angle in radians. -/
  fsin : F64 → F64
  /-- An approximation of the hyperbolic tangent. -/
  ftanh : F64 → F64
  /-- An approximation of `2^x`. -/
  fexp2 : F64 → F64
deriving Inhabited

/-- `SEED0` of the machine of `State.reset`: R5 gives the parameter no default (log 4). -/
opaque Config.seed0 : Word64

/-- The implementation's three functions, unconstrained: `Machine.numerics` brings them under the
named properties of R10 (log 5). -/
opaque Config.rawNumerics : Numerics

/-- Sign and payload of the quiet NaN that an invalid operation on two operands gives: IEEE 754
leaves them open and no operation that R13 gives a meaning to reaches one (log 6). -/
opaque Config.nanBits : F64 → F64 → Word64

/-- The first response word of `SNAP` for `2^64` valid slots or more: R243 gives the length as an unsigned
64-bit integer and R5 puts no upper bound on `RING_N` (log 16). -/
opaque Config.longLength : Nat → Word64

/-- The words, each with its `rsp_last`, that the response port delivers between the acceptance of a word
whose operation is refused and the next `rst`: R252 defines no response (log 2). It depends on the word, on
the count the event gives and on the number of words delivered before. -/
opaque Config.refusedResponse : OpWord → Nat → Nat → List (Word64 × Bool)

/-- The parameters of the machine that `State.reset` resets: the spec's defaults where R5 gives one
(`NV` 3, `RING_N` 1024, `OUT_LIM` 0.98, `PINK_B6_DELAYED` true), and the open `SEED0` (log 3). -/
def Config.params : Params where
  nv := 3
  ringN := 1024
  seed0 := Config.seed0
  outLim := 0x3FEF5C28F5C28F5C#64
  pinkB6Delayed := true

end Sys2Proof
end

