-- ==== Sys2Proof/Machine/Float.lean ====
section
/-! DEFINITION. IEEE 754 binary64 on encodings: the basic arithmetic of 00_scope.md R9, the derived
primitives of R11 and the literals of R12. Every finite binary64 is an integer number of units
`2^-1074`; an operation computes the exact result as a ratio of such integers and rounds it once, to
nearest, ties to even. -/

namespace Sys2Proof.Machine

/-! ### Reading an encoding -/

/-- The sign bit. -/
def signBit (x : F64) : Bool := x.msb

/-- The encoding without its sign bit. -/
def magBits (x : F64) : Nat := x.toNat % 2 ^ 63

/-- The encoding of positive infinity: exponent field all ones, fraction zero. -/
def infBits : Nat := 2047 * 2 ^ 52

/-- A NaN, quiet or signalling: exponent field all ones, fraction not zero (R252 U1). -/
def isNaN (x : F64) : Bool := infBits < magBits x

/-- An infinity of either sign. -/
def isInf (x : F64) : Bool := magBits x = infBits

/-- Neither a NaN nor an infinity. -/
def isFinite (x : F64) : Bool := magBits x < infBits

/-- A zero of either sign. -/
def isZero (x : F64) : Bool := magBits x = 0

/-- The magnitude of a finite number in units of `2^-1074`. -/
def magUnits (x : F64) : Nat :=
  let e := magBits x / 2 ^ 52
  let f := magBits x % 2 ^ 52
  if e = 0 then f else (2 ^ 52 + f) * 2 ^ (e - 1)

/-- The value of a finite number in units of `2^-1074`. -/
def units (x : F64) : Int := if signBit x then -(magUnits x : Int) else (magUnits x : Int)

/-- The number 1 in units of `2^-1074`. -/
def oneUnits : Nat := 2 ^ 1074

/-! ### Rounding to nearest, ties to even (R9) -/

/-- `n / d` rounded to the nearest natural number, ties to the even one. -/
def roundEven (n d : Nat) : Nat :=
  let q := n / d
  let r := n % d
  if 2 * r < d then q else if d < 2 * r then q + 1 else q + q % 2

/-- The encoding, sign apart, of the binary64 nearest to `n / d` units; past the largest finite
number, infinity. With `e` binary places dropped, the significand `k` is at most `2^53`, and the
encoding is `e * 2^52 + k`: a carry out of the significand moves into the exponent by itself. -/
def roundBits (n d : Nat) : Nat :=
  let e := Nat.log2 (n / d) - 52
  min (e * 2 ^ 52 + roundEven n (d * 2 ^ e)) infBits

/-- The encoding with a sign. -/
def withSign (neg : Bool) (bits : Nat) : F64 :=
  BitVec.ofNat 64 (if neg then 2 ^ 63 + bits else bits)

/-- The binary64 nearest to `n / d` units, with a sign. -/
def pack (neg : Bool) (n d : Nat) : F64 := withSign neg (roundBits n d)

/-- The binary64 nearest to the decimal `m * 10^e`, with a sign (R12, R93). -/
def decimal (neg : Bool) (m : Nat) (e : Int) : F64 :=
  pack neg (m * 10 ^ e.toNat * oneUnits) (10 ^ (-e).toNat)

/-! ### Constants -/

/-- `+0.0`. -/
def zero : F64 := 0#64
/-- `-0.0`. -/
def negZero : F64 := 0x8000000000000000#64
/-- `1.0`. -/
def one : F64 := 0x3FF0000000000000#64
/-- `-1.0`. -/
def negOne : F64 := 0xBFF0000000000000#64
/-- An infinity. -/
def infinity (neg : Bool) : F64 := withSign neg infBits

/-- The quiet NaN of an invalid operation: its sign and payload are free (log 6). -/
def quietNaN (a b : F64) : F64 :=
  0x7FF8000000000000#64 ||| (Config.nanBits a b &&& 0x8007FFFFFFFFFFFF#64)

/-! ### Basic arithmetic (R9) -/

/-- `-x`: the sign bit inverted. -/
def fneg (x : F64) : F64 := x ^^^ 0x8000000000000000#64

/-- The exact sum's nearest binary64; an exact zero sum is `-0.0` only for two negative zeros. -/
def packSum (z : Int) (bothNeg : Bool) : F64 :=
  if z = 0 then (if bothNeg then negZero else zero) else pack (z < 0) z.natAbs 1

/-- `fadd(a, b)`. -/
def fadd (a b : F64) : F64 :=
  if isNaN a || isNaN b then quietNaN a b
  else if isInf a then (if isInf b && signBit a != signBit b then quietNaN a b else a)
  else if isInf b then b
  else packSum (units a + units b) (signBit a && signBit b)

/-- `fsub(a, b)`. -/
def fsub (a b : F64) : F64 := fadd a (fneg b)

/-- `fmul(a, b)`. -/
def fmul (a b : F64) : F64 :=
  let neg := signBit a != signBit b
  if isNaN a || isNaN b then quietNaN a b
  else if isInf a then (if isZero b then quietNaN a b else infinity neg)
  else if isInf b then (if isZero a then quietNaN a b else infinity neg)
  else pack neg (magUnits a * magUnits b) oneUnits

/-- `fdiv(a, b)`; a finite non-zero number over a zero is an infinity. -/
def fdiv (a b : F64) : F64 :=
  let neg := signBit a != signBit b
  if isNaN a || isNaN b then quietNaN a b
  else if isInf a then (if isInf b then quietNaN a b else infinity neg)
  else if isInf b then withSign neg 0
  else if isZero b then (if isZero a then quietNaN a b else infinity neg)
  else pack neg (magUnits a * oneUnits) (magUnits b)

/-! ### Comparisons and the derived primitives (R11) -/

/-- The place of a number that is no NaN in the order of R11: the two zeros share one place. -/
def orderKey (x : F64) : Int := if signBit x then -(magBits x : Int) else (magBits x : Int)

/-- `a < b`; false with a NaN. -/
def flt (a b : F64) : Bool := !isNaN a && !isNaN b && decide (orderKey a < orderKey b)

/-- `a ≤ b`; false with a NaN. -/
def fle (a b : F64) : Bool := !isNaN a && !isNaN b && decide (orderKey a ≤ orderKey b)

/-- `a = b` as numbers: the two zeros are equal; false with a NaN. -/
def feq (a b : F64) : Bool := !isNaN a && !isNaN b && decide (orderKey a = orderKey b)

/-- `clamp(x, lo, hi)`. -/
def clamp (x lo hi : F64) : F64 := if flt x lo then lo else if flt hi x then hi else x

/-- `fmin(a, b)`. -/
def fmin (a b : F64) : F64 := if flt a b then a else b

/-- `fabs(x)`: the sign bit cleared. -/
def fabs (x : F64) : F64 := x &&& 0x7FFFFFFFFFFFFFFF#64

/-- `ffloor(x)`: the largest integral binary64 not above a finite `x`; a zero result keeps the sign
of `x` (log 13). R11 defines it for finite `x` only: that it answers an infinity or a NaN itself is the
model's choice (DESIGN CHOICE, log 19). -/
def ffloor (x : F64) : F64 :=
  if isFinite x then pack (signBit x) ((units x / (oneUnits : Int)).natAbs * oneUnits) 1 else x

/-- `frac(x)`. -/
def frac (x : F64) : F64 := fsub x (ffloor x)

/-- `clampT(t)`: a time to `[+0.0, +inf]`, `-0.0` to `+0.0`. -/
def clampT (t : F64) : F64 := if flt zero t then t else zero

/-- `clamp(x, +0.0, 1.0)`, the clamp on write of every level and amount. -/
def clampUnit (x : F64) : F64 := clamp x zero one

/-- `u2f(u)`: the binary64 equal to `u`, for `u < 2^53`. R11 defines it for those only: that it rounds a
larger `u` to nearest is the model's choice (DESIGN CHOICE, log 19). -/
def u2f (u : Nat) : F64 := pack false (u * oneUnits) 1

/-! ### The literals of R12 -/

/-- `referenceFreq`, 55. -/
def litRefFreq : F64 := 0x404B800000000000#64
/-- 0.5. -/
def litHalf : F64 := 0x3FE0000000000000#64
/-- 2. -/
def litTwo : F64 := 0x4000000000000000#64
/-- 4. -/
def litFour : F64 := 0x4010000000000000#64
/-- `TWO_PI`, the binary64 nearest to 2π. -/
def litTwoPi : F64 := 0x401921FB54442D18#64
/-- 0.99886. -/
def litPole0 : F64 := 0x3FEFF6A93F290ABB#64
/-- 0.0555179. -/
def litGain0 : F64 := 0x3FAC6CD799AF690F#64
/-- 0.99332. -/
def litPole1 : F64 := 0x3FEFC947064ECE9A#64
/-- 0.0750759. -/
def litGain1 : F64 := 0x3FB3382C9737BF8A#64
/-- 0.96900. -/
def litPole2 : F64 := 0x3FEF020C49BA5E35#64
/-- 0.1538520. -/
def litGain2 : F64 := 0x3FC3B16C1E364BEC#64
/-- 0.86650. -/
def litPole3 : F64 := 0x3FEBBA5E353F7CEE#64
/-- 0.3104856. -/
def litGain3 : F64 := 0x3FD3DEFEFE784083#64
/-- 0.55000. -/
def litPole4 : F64 := 0x3FE199999999999A#64
/-- 0.5329522. -/
def litGain4 : F64 := 0x3FE10DF1C5AA999C#64
/-- -0.7616. -/
def litPole5 : F64 := 0xBFE85F06F6944674#64
/-- -0.0168980. -/
def litGain5 : F64 := 0xBF914DB59578A2A9#64
/-- 0.115926. -/
def litTap6 : F64 := 0x3FBDAD538AC18F82#64
/-- 0.5362. -/
def litBias : F64 := 0x3FE1288CE703AFB8#64
/-- 0.11. -/
def litPinkScale : F64 := 0x3FBC28F5C28F5C29#64
/-- 0.02. -/
def litBrownStep : F64 := 0x3F947AE147AE147B#64
/-- 1.5. -/
def litBrownMax : F64 := 0x3FF8000000000000#64
/-- -1.5. -/
def litBrownMin : F64 := 0xBFF8000000000000#64
/-- 0.35. -/
def litGreyWhite : F64 := 0x3FD6666666666666#64
/-- 0.65. -/
def litGreyPink : F64 := 0x3FE4CCCCCCCCCCCD#64
/-- `2^-52`. -/
def litWhiteScale : F64 := 0x3CB0000000000000#64
/-- 0.001. -/
def litSnap : F64 := 0x3F50624DD2F1A9FC#64
/-- `cutoffMin`, 80. -/
def litCutoffMin : F64 := 0x4054000000000000#64
/-- `cutoffMax`, 18000. -/
def litCutoffMax : F64 := 0x40D1940000000000#64
/-- 0.99. -/
def litMaxCoeff : F64 := 0x3FEFAE147AE147AE#64

end Sys2Proof.Machine
end

