-- ==== Sys2Proof/Machine/State.lean ====
section
/-! DEFINITION. The architectural state of the MRC as plain data (10_state.md), its reset (R54, R270),
and the reasons a step can stop. -/

namespace Sys2Proof.Machine

/-! ### Voice file (R22 to R26) -/

/-- One voice record. -/
structure Voice where
  /-- R22. -/
  waveform : Waveform
  /-- R23, volts. -/
  voltage : F64
  /-- R24, octaves. -/
  detune : F64
  /-- R25, Hz; derived from the two registers above. -/
  frequency : F64
  /-- R26, the phase accumulator. -/
  phase : F64
deriving DecidableEq, Repr

/-! ### Mixer registers (R27 to R31) -/

/-- The mixer's registers; `oscEn` and `level` have one entry for each voice. -/
structure Mixer where
  /-- R27. -/
  oscEn : List Bool
  /-- R28. -/
  level : List F64
  /-- R29. -/
  noiseEn : Bool
  /-- R30. -/
  noiseLevel : F64
  /-- R31. -/
  master : F64
deriving DecidableEq, Repr

/-! ### Noise generator (R32 to R36) -/

/-- `b[0..6]`, the pink-noise filter bank (R34). -/
structure PinkTaps where
  b0 : F64
  b1 : F64
  b2 : F64
  b3 : F64
  b4 : F64
  b5 : F64
  b6 : F64
deriving DecidableEq, Repr

/-- The noise registers. -/
structure Noise where
  /-- R32. -/
  noiseColor : NoiseColour
  /-- R33, the LCG state. -/
  seed : Word64
  /-- R34. -/
  b : PinkTaps
  /-- R35. -/
  brown : F64
  /-- R36, the white sample of the last tick. -/
  w1 : F64
  /-- R36, the white sample before that. -/
  w2 : F64
deriving DecidableEq, Repr

/-! ### Modifiers (R37 to R45) -/

/-- The run-state stages of an envelope (R43). -/
inductive EnvStage where
  | idle | attack | decay | sustain | release
deriving DecidableEq, Repr

/-- One envelope: its parameter set (R41, R42) and its run-state (R43, R44). -/
structure Envelope where
  /-- Seconds. -/
  attack : F64
  /-- Seconds. -/
  decay : F64
  /-- A ratio. -/
  sustain : F64
  /-- Seconds. -/
  release : F64
  stage : EnvStage
  value : F64
deriving DecidableEq, Repr

/-- `stage[0..3]`, the ladder-filter state vector (R45). -/
structure Ladder where
  s0 : F64
  s1 : F64
  s2 : F64
  s3 : F64
deriving DecidableEq, Repr

/-- The modifiers. -/
structure Modifiers where
  /-- R37. -/
  gate : Bool
  /-- R38, Hz, unclamped. -/
  cutoff : F64
  /-- R39. -/
  emphasis : F64
  /-- R40. -/
  contour : F64
  /-- The filter envelope (R41, R43). -/
  fenv : Envelope
  /-- The loudness envelope (R42, R44). -/
  lenv : Envelope
  /-- R45. -/
  ladder : Ladder
deriving DecidableEq, Repr

/-! ### Pipeline registers (R46) -/

/-- The pipeline's registers. While `rateSet` is false `sampleRate` holds no value: that is the spec's
own reset (R46, R54), which 93_implementation_defined.md U4 asks to be an option type (log 8). -/
structure Pipeline where
  rateSet : Bool
  /-- Hz. -/
  sampleRate : Option F64
deriving DecidableEq, Repr

/-! ### Ring buffer (R48 to R50) -/

/-- A memory of 64-bit words: the written slots with their words, slots strictly rising. A slot that
is not listed is unwritten and holds no value (R48, 93_implementation_defined.md U6; log 9). -/
abbrev Memory := List (Nat × F64)

/-- The canonical form of a memory: slots strictly rising. -/
def Memory.wf : Memory → Bool
  | [] => true
  | [_] => true
  | (j, _) :: (k, v) :: rest => decide (j < k) && Memory.wf ((k, v) :: rest)

/-- The ring buffer. -/
structure Ring where
  /-- R48. -/
  mem : Memory
  /-- R49, the slot the next push writes. -/
  cursor : Nat
  /-- R50. -/
  filled : Bool
deriving DecidableEq, Repr

/-! ### The ports (R91, R92, R270, R271): the model's own fields -/

/-- What the operation port and the reset line present next (log 1, log 2). -/
inductive PortEvent where
  /-- An operation word is accepted and runs whole (R91). -/
  | accept (w : OpWord)
  /-- `rst` is asserted between two operations (R270). -/
  | rst
  /-- An operation word is accepted, and `rst` abandons the operation once `delivered` of its response
  words have been delivered (R271); also the `rst` that ends a refused operation (R252). -/
  | abandoned (w : OpWord) (delivered : Nat)
deriving DecidableEq, Repr

/-- A word delivered at the response port (R92). -/
structure RspWord where
  /-- `rsp_data`. -/
  data : Word64
  /-- `rsp_last`. -/
  last : Bool
deriving DecidableEq, Repr

/-- The two ports. -/
structure Ports where
  /-- The events still to come, next first. -/
  input : List PortEvent
  /-- The response words delivered so far, oldest first: the observable result of a run (R276). -/
  responses : List RspWord
deriving DecidableEq, Repr

/-! ### The machine -/

/-- The state of the MRC, its parts in the order of R20, after the configuration (R5: fixed at
construction, written by no step; log 3) and before the ports. -/
structure State where
  cfg : Params
  voices : List Voice
  mixer : Mixer
  noise : Noise
  mods : Modifiers
  pipe : Pipeline
  ring : Ring
  ports : Ports
deriving DecidableEq, Repr

/-- A voice after reset (R54). -/
def Voice.atReset : Voice where
  waveform := .saw
  voltage := zero
  detune := zero
  frequency := litRefFreq
  phase := zero

/-- The mixer after reset (R54). -/
def Mixer.atReset (nv : Nat) : Mixer where
  oscEn := List.replicate nv false
  level := List.replicate nv zero
  noiseEn := false
  noiseLevel := zero
  master := zero

/-- The noise generator after reset (R54). -/
def Noise.atReset (seed0 : Word64) : Noise where
  noiseColor := .white
  seed := seed0
  b := { b0 := zero, b1 := zero, b2 := zero, b3 := zero, b4 := zero, b5 := zero, b6 := zero }
  brown := zero
  w1 := zero
  w2 := zero

/-- An envelope after reset (R54). -/
def Envelope.atReset : Envelope where
  attack := zero
  decay := zero
  sustain := zero
  release := zero
  stage := .idle
  value := zero

/-- The modifiers after reset (R54). -/
def Modifiers.atReset : Modifiers where
  gate := false
  cutoff := zero
  emphasis := zero
  contour := zero
  fenv := Envelope.atReset
  lenv := Envelope.atReset
  ladder := { s0 := zero, s1 := zero, s2 := zero, s3 := zero }

/-- The architectural state after reset of an MRC constructed with `c` (R54, R270), with the given
port history. -/
def State.resetWith (c : Params) (ports : Ports) : State where
  cfg := c
  voices := List.replicate c.nv Voice.atReset
  mixer := Mixer.atReset c.nv
  noise := Noise.atReset c.seed0
  mods := Modifiers.atReset
  pipe := { rateSet := false, sampleRate := none }
  ring := { mem := [], cursor := 0, filled := false }
  ports := ports

/-- The machine right after reset, nothing presented and nothing delivered. -/
def State.reset : State := State.resetWith Config.params { input := [], responses := [] }

/-! ### Why a step stops -/

/-- The machine stops with a fault. The MRC itself has no exception (R250): both faults guard a ring
access the spec gives no meaning to, and no run from reset reaches one. -/
inductive Fault where
  /-- Raised by `TICK` and `SNAP` when the ring is accessed at a slot of `RING_N` or above, which does
  not exist (R60). Safe: the model stops. -/
  | ringSlotOutOfRange
  /-- Raised by `SNAP` when it would read a slot that holds no value (R48, 93 U6). Safe: the model
  stops. -/
  | ringSlotUnwritten
deriving DecidableEq, Repr

/-- The refusals of 60_exceptions.md R252: the operation has no defined effect and no defined response,
and nothing is said of any operation after it until the next reset. Every one is safe: the model
answers no state, so nothing can be proved of what follows (log 7). -/
inductive Refusal where
  /-- An instruction with no meaning in the model, by its mnemonic. Raised by no arm. Safe. -/
  | notModelled (mnemonic : String)
  /-- U1: a num operand that the operation reads is a NaN. Raised by every command with a num operand.
  Safe. -/
  | nanOperand
  /-- U2: an infinite operand. Raised by `SETVOLT` and `SETDETUNE`. Safe. -/
  | infinitePitchOperand
  /-- U2: the new frequency is not finite. Raised by `SETVOLT` and `SETDETUNE`. Safe. -/
  | frequencyNotFinite
  /-- U3: the rate is not finite, not above zero, or has no finite positive reciprocal. Raised by
  `SETRATE`. Safe. -/
  | illegalSampleRate
  /-- U4: no `SETRATE` since reset. Raised by `TICK`. Safe. -/
  | tickBeforeSetRate
  /-- U5: a voice's phase increment is not finite. Raised by `TICK`. Safe. -/
  | phaseIncrementNotFinite
deriving DecidableEq, Repr

end Sys2Proof.Machine
end

