-- ==== Sys2Proof/Machine/Ops.lean ====
section
/-! DEFINITION. The operations the meanings share: the ring memory (`RingRead`, `RingWrite` of
00_scope.md R7), the response port, and the voice file. The MRC takes no exception and returns from none
(60_exceptions.md R250, R255), so there is no such operation here. -/

namespace Sys2Proof.Machine

/-- The outcome of an operation. -/
abbrev Result := Host.Outcome State Fault Refusal

/-! ### The ring memory -/

/-- The word a memory holds at slot `k`; none for an unwritten slot (R48). -/
def memRead (m : Memory) (k : Nat) : Option F64 :=
  match m with
  | [] => none
  | (j, v) :: rest => if j = k then some v else memRead rest k

/-- A memory with `v` written at slot `k`; it keeps the canonical form. -/
def memWrite (m : Memory) (k : Nat) (v : F64) : Memory :=
  match m with
  | [] => [(k, v)]
  | (j, u) :: rest =>
    if k < j then (k, v) :: (j, u) :: rest
    else if k = j then (k, v) :: rest
    else (j, u) :: memWrite rest k v

/-- The word of a state's ring at slot `k`: the model's read of one word of memory. -/
def ringWord (s : State) (k : Nat) : Option F64 := memRead s.ring.mem k

/-- `RingRead(k)` (R7): a slot of `RING_N` or above does not exist, an unwritten one has no value. -/
def ringRead (ringN : Nat) (m : Memory) (k : Nat) : Except Fault F64 :=
  if ringN ≤ k then .error .ringSlotOutOfRange
  else match memRead m k with
    | some v => .ok v
    | none => .error .ringSlotUnwritten

/-- `RingRead` of each slot of a list, in its order. -/
def ringReadAll (ringN : Nat) (m : Memory) : List Nat → Except Fault (List F64)
  | [] => .ok []
  | k :: ks =>
    match ringRead ringN m k with
    | .error f => .error f
    | .ok v =>
      match ringReadAll ringN m ks with
      | .error f => .error f
      | .ok vs => .ok (v :: vs)

/-- `RingWrite(k, v)` (R7). -/
def ringWrite (ringN : Nat) (m : Memory) (k : Nat) (v : F64) : Except Fault Memory :=
  if ringN ≤ k then .error .ringSlotOutOfRange else .ok (memWrite m k v)

/-! ### The response port -/

/-- A response as the port delivers it: `rsp_last` with the final word (R92). -/
def rspWords : List Word64 → List RspWord
  | [] => []
  | [d] => [{ data := d, last := true }]
  | d :: rest => { data := d, last := false } :: rspWords rest

/-- `respond(v1, ..)` (R7): the words leave at the response port in the listed order. -/
def respond (s : State) (ds : List Word64) : State :=
  { s with ports := { s.ports with responses := s.ports.responses ++ rspWords ds } }

/-! ### The voice file -/

/-- `voice[vi]`. -/
def voiceAt (s : State) (vi : Nat) : Voice := s.voices.getD vi Voice.atReset

/-- `voice[vi] <- v`. -/
def setVoice (s : State) (vi : Nat) (v : Voice) : State := { s with voices := s.voices.set vi v }

/-- The five per-voice commands look at nothing else when `vi ≥ NV`: a silent no-op (R85 step 3, R88). -/
def perVoice (vi : Nat) (s : State) (effect : Result) : Result :=
  if s.cfg.nv ≤ vi then .next s else effect

/-! ### The parts of the state that setters write -/

/-- The state with other mixer registers. -/
def setMixer (s : State) (m : Mixer) : State := { s with mixer := m }

/-- The state with other modifier registers. -/
def setMods (s : State) (m : Modifiers) : State := { s with mods := m }

end Sys2Proof.Machine
end

