-- ==== Sys2Proof/Machine/Operands.lean ====
section
/-! DEFINITION. The operand conditions of the commands: the `require` lines that R13 and R252 give num
operands, evaluated on the state before the operation (R254). The fields themselves are read in
Decode.lean (R82). -/

namespace Sys2Proof.Machine

/-- A num operand that the operation reads: a NaN is refused (U1), else the effect follows. -/
def withNum (x : F64) (effect : Result) : Result :=
  if isNaN x then .refused .nanOperand else effect

/-- Three num operands, all examined before any effect (R172, R252: no partial write). -/
def withNum3 (a b c : F64) (effect : Result) : Result :=
  if isNaN a || isNaN b || isNaN c then .refused .nanOperand else effect

/-- A pitch operand: no NaN (U1), finite (U2). -/
def withPitch (x : F64) (effect : Result) : Result :=
  withNum x (if isFinite x then effect else .refused .infinitePitchOperand)

/-- Whether `sr` can be a sample rate: finite, above zero, with a finite reciprocal above zero (R221,
U3). -/
def legalRate (sr : F64) : Bool :=
  isFinite sr && flt zero sr && isFinite (fdiv one sr) && flt zero (fdiv one sr)

/-- A sample-rate operand: no NaN (U1), legal (U3). -/
def withRate (sr : F64) (effect : Result) : Result :=
  withNum sr (if legalRate sr then effect else .refused .illegalSampleRate)

end Sys2Proof.Machine
end

