-- ==== Sys2Proof/Machine/Envelope.lean ====
section
/-! DEFINITION. The gate and envelope commands and the ADSR step (43_envelopes.md). -/

namespace Sys2Proof.Machine

/-- A rising edge takes an envelope to `Attack` from any stage, its value kept (R170, R171). -/
def gateRise (e : Envelope) : Envelope := { e with stage := .attack }

/-- A falling edge takes an envelope that is not `Idle` to `Release`, its value kept (R170). -/
def gateFall (e : Envelope) : Envelope :=
  if e.stage = .idle then e else { e with stage := .release }

/-- An envelope after an edge to `on`. -/
def gateEdge (on : Bool) (e : Envelope) : Envelope := if on then gateRise e else gateFall e

/-- `SETGATE A` (R170): the edge is detected against the `gate` register; no edge, no effect. -/
def execSetgate (on : Bool) (s : State) : Result :=
  if on = s.mods.gate then .next s
  else .next (setMods s
    { s.mods with gate := on, fenv := gateEdge on s.mods.fenv, lenv := gateEdge on s.mods.lenv })

/-- An envelope with its attack, decay and sustain written (R172, R173). -/
def withADS (e : Envelope) (a d su : F64) : Envelope :=
  { e with attack := clampT a, decay := clampT d, sustain := clampUnit su }

/-- `SETFENV A, B, C` (R172). -/
def execSetfenv (a d su : F64) (s : State) : Result :=
  withNum3 a d su (.next (setMods s { s.mods with fenv := withADS s.mods.fenv a d su }))

/-- `SETLENV A, B, C` (R173). -/
def execSetlenv (a d su : F64) (s : State) : Result :=
  withNum3 a d su (.next (setMods s { s.mods with lenv := withADS s.mods.lenv a d su }))

/-- An envelope with its release time written (R174, R175). -/
def withRelease (e : Envelope) (r : F64) : Envelope := { e with release := clampT r }

/-- `SETFREL A` (R174). -/
def execSetfrel (r : F64) (s : State) : Result :=
  withNum r (.next (setMods s { s.mods with fenv := withRelease s.mods.fenv r }))

/-- `SETLREL A` (R175). -/
def execSetlrel (r : F64) (s : State) : Result :=
  withNum r (.next (setMods s { s.mods with lenv := withRelease s.mods.lenv r }))

/-- The fraction of the remaining distance that a segment of time `t` covers in one tick (R180). -/
def segCoeff (dt t : F64) : F64 := fmin (fdiv dt t) one

/-- A value moved toward its target by the fraction of a segment of time `t` (R180, R181, R183). -/
def approach (v target dt t : F64) : F64 := fadd v (fmul (fsub target v) (segCoeff dt t))

/-- Strictly within 0.001 of the target (R180, R181). -/
def nearTarget (target v : F64) : Bool := flt (fabs (fsub target v)) litSnap

/-- `EnvStep(e, dt)`: the rule of the stage held at the start, and no other (R180 to R185). -/
def envStep (dt : F64) (e : Envelope) : Envelope :=
  match e.stage with
  | .idle => e
  | .attack =>
    let v := approach e.value one dt e.attack
    if nearTarget one v then { e with value := one, stage := .decay } else { e with value := v }
  | .decay =>
    let v := approach e.value e.sustain dt e.decay
    if nearTarget e.sustain v then { e with value := e.sustain, stage := .sustain }
    else { e with value := v }
  | .sustain => { e with value := e.sustain }
  | .release =>
    let v := approach e.value zero dt e.release
    if fle v litSnap then { e with value := zero, stage := .idle } else { e with value := v }

end Sys2Proof.Machine
end

