-- ==== Sys2Proof/Machine/Numerics.lean ====
section
/-! DEFINITION. The three transcendental functions under the named properties of 00_scope.md R10. The
implementation's functions are free (`Config.rawNumerics`); each is brought under the properties that
R10 names, and a function that has them is left as it is. So `numerics` ranges over exactly the
functions R10 admits (log 5). -/

namespace Sys2Proof.Machine

/-- A value brought into `[-1.0, 1.0]`; a value already there stays. -/
def boundedByOne (v : F64) : F64 := if isNaN v then zero else clamp v negOne one

/-- `sin_range`: bounded on the angles `fmul(TWO_PI, p)` can give for `0 ≤ p < 1`. -/
def sinInRange (f : F64 → F64) (x : F64) : F64 :=
  if fle zero x && flt x litTwoPi then boundedByOne (f x) else f x

/-- `tanh_range`: `ftanh(+0.0) = +0.0`, and bounded for every argument that is no NaN. -/
def tanhInRange (f : F64 → F64) (x : F64) : F64 :=
  if x = zero then zero else if isNaN x then f x else boundedByOne (f x)

/-- `exp2_zero`, `exp2_one`, `exp2_pos`. -/
def exp2InRange (f : F64 → F64) (x : F64) : F64 :=
  if x = zero then one
  else if x = one then litTwo
  else if isNaN x || fle zero (f x) then f x
  else zero

/-- Three functions brought under the named properties of R10, `tanh_odd_mono` apart. -/
def numericsOfRaw (raw : Numerics) : Numerics where
  fsin := sinInRange raw.fsin
  ftanh := tanhInRange raw.ftanh
  fexp2 := exp2InRange raw.fexp2

/-- The named properties of R10 that a model assumes: every one but `tanh_odd_mono`. -/
structure LawfulNumerics (nm : Numerics) : Prop where
  exp2_zero : nm.fexp2 zero = one
  exp2_one : nm.fexp2 one = litTwo
  exp2_pos : ∀ x, isNaN x = false → fle zero (nm.fexp2 x) = true
  sin_range : ∀ p, fle zero p = true → flt p one = true →
    fle negOne (nm.fsin (fmul litTwoPi p)) = true ∧ fle (nm.fsin (fmul litTwoPi p)) one = true
  tanh_range : ∀ x, isNaN x = false →
    fle negOne (nm.ftanh x) = true ∧ fle (nm.ftanh x) one = true
  tanh_zero : nm.ftanh zero = zero

/-- `tanh_odd_mono` of R10, from general knowledge: a statement that uses it names it. -/
def TanhOddMono (nm : Numerics) : Prop :=
  (∀ x, nm.ftanh (fneg x) = fneg (nm.ftanh x)) ∧
    ∀ x y, fle x y = true → fle (nm.ftanh x) (nm.ftanh y) = true

/-- The machine's numerics: any three functions with the named properties. -/
def numerics : Numerics := numericsOfRaw Config.rawNumerics

end Sys2Proof.Machine
end

