-- ==== Sys2Proof/Machine/Filter.lean ====
section
/-! DEFINITION. The filter commands, the cutoff contour and the ladder step (44_filter.md). -/

namespace Sys2Proof.Machine

/-- `SETCUTOFF A` (R200): stored unclamped. -/
def execSetcutoff (hz : F64) (s : State) : Result :=
  withNum hz (.next (setMods s { s.mods with cutoff := hz }))

/-- `SETEMPH A` (R201). -/
def execSetemph (amount : F64) (s : State) : Result :=
  withNum amount (.next (setMods s { s.mods with emphasis := clampUnit amount }))

/-- `SETCONTOUR A` (R202). -/
def execSetcontour (amount : F64) (s : State) : Result :=
  withNum amount (.next (setMods s { s.mods with contour := clampUnit amount }))

/-- The dynamic cutoff (R205); `envValue` is the filter envelope's value after this tick's step. -/
def dynCutoff (cutoff contour envValue : F64) : F64 :=
  clamp (fmul cutoff (fadd one (fmul (fmul contour envValue) litFour))) litCutoffMin litCutoffMax

/-- The filter coefficient (R206). -/
def filterCoeff (dyn dt : F64) : F64 := clamp (fmul (fmul litTwoPi dyn) dt) zero litMaxCoeff

/-- One one-pole stage: `s + g * (t - s)` (R207). -/
def poleStep (g s t : F64) : F64 := fadd s (fmul g (fsub t s))

/-- `drive` (R207): the resonance feedback reads the last tick's `stage[3]`. -/
def ladderDrive (nm : Numerics) (emphasis mixed : F64) (l : Ladder) : F64 :=
  nm.ftanh (fsub mixed (fmul l.s3 (fmul emphasis litFour)))

/-- The four stages, in place and in order: each of `stage[1..3]` reads its predecessor as this tick
has just written it (R207). -/
def ladderStep (nm : Numerics) (g drive : F64) (l : Ladder) : Ladder :=
  let s0 := poleStep g l.s0 drive
  let s1 := poleStep g l.s1 (nm.ftanh s0)
  let s2 := poleStep g l.s2 (nm.ftanh s1)
  let s3 := poleStep g l.s3 (nm.ftanh s2)
  { s0 := s0, s1 := s1, s2 := s2, s3 := s3 }

/-- The state part of `ModStep(mixed, dt)` in the order of R209: both envelopes, the dynamic cutoff,
the coefficient, the ladder. -/
def modStep (nm : Numerics) (m : Modifiers) (mixed dt : F64) : Modifiers :=
  let fenv := envStep dt m.fenv
  let g := filterCoeff (dynCutoff m.cutoff m.contour fenv.value) dt
  { m with
    fenv := fenv
    lenv := envStep dt m.lenv
    ladder := ladderStep nm g (ladderDrive nm m.emphasis mixed m.ladder) m.ladder }

/-- The modifier output `y` (R208), from the modifiers after the tick's `modStep`. -/
def modOutput (m : Modifiers) : F64 := fmul m.ladder.s3 m.lenv.value

end Sys2Proof.Machine
end

