-- ==== Sys2Proof/Machine/Mixer.lean ====
section
/-! DEFINITION. The mixer commands and the mix step (41_mixer.md). -/

namespace Sys2Proof.Machine

/-- `SETMIXLVL vi, A` (R130). -/
def execSetmixlvl (vi : Nat) (lvl : F64) (s : State) : Result :=
  perVoice vi s (withNum lvl
    (.next (setMixer s { s.mixer with level := s.mixer.level.set vi (clampUnit lvl) })))

/-- `SETOSCEN vi, A` (R131). -/
def execSetoscen (vi : Nat) (on : Bool) (s : State) : Result :=
  perVoice vi s (.next (setMixer s { s.mixer with oscEn := s.mixer.oscEn.set vi on }))

/-- `SETNOISELVL A` (R132). -/
def execSetnoiselvl (lvl : F64) (s : State) : Result :=
  withNum lvl (.next (setMixer s { s.mixer with noiseLevel := clampUnit lvl }))

/-- `SETNOISEEN A` (R133). -/
def execSetnoiseen (on : Bool) (s : State) : Result :=
  .next (setMixer s { s.mixer with noiseEn := on })

/-- `SETMASTER A` (R134). -/
def execSetmaster (lvl : F64) (s : State) : Result :=
  withNum lvl (.next (setMixer s { s.mixer with master := clampUnit lvl }))

/-- The voices' part of the sum of R140: from `acc`, the enabled voices in ascending index; a disabled
voice contributes nothing. -/
def mixVoices (acc : F64) : List Bool → List F64 → List F64 → F64
  | en :: ens, l :: ls, v :: vs => mixVoices (if en then fadd acc (fmul l v) else acc) ens ls vs
  | _, _, _ => acc

/-- `MixStep` (R140): the voices, then the noise term, then the master level. -/
def mixStep (m : Mixer) (vs : List F64) (ns : F64) : F64 :=
  let acc := mixVoices zero m.oscEn m.level vs
  fmul m.master (if m.noiseEn then fadd acc (fmul m.noiseLevel ns) else acc)

end Sys2Proof.Machine
end

