-- ==== Sys2Proof/Machine/Noise.lean ====
section
/-! DEFINITION. The noise colour command and the noise step (42_noise.md). -/

namespace Sys2Proof.Machine

/-- The colour of a code; 6 and 7 are reserved (R87). -/
def colourOfCode : Nat → Option NoiseColour
  | 0 => some .white
  | 1 => some .pink
  | 2 => some .brown
  | 3 => some .blue
  | 4 => some .violet
  | 5 => some .grey
  | _ => none

/-- `SETNOISECOL A` (R150): a reserved code changes nothing. -/
def execSetnoisecol (code : Nat) (s : State) : Result :=
  match colourOfCode code with
  | some c => .next { s with noise := { s.noise with noiseColor := c } }
  | none => .next s

/-- The LCG step, modulo `2^64` (R152). -/
def lcgStep (seed : Word64) : Word64 := seed * 6364136223846793005#64 + 1#64

/-- The white sample of an LCG state (R153): its top 53 bits, mapped to `[-1, 1)`. -/
def whiteOf (seed : Word64) : F64 := fsub (fmul (u2f (seed >>> 11).toNat) litWhiteScale) one

/-- One pole of the pink filter: the old state by the pole, the white sample by the gain (R155). -/
def pinkPole (pole b gain white : F64) : F64 := fadd (fmul pole b) (fmul white gain)

/-- The six sections of R155, updated in place; the seventh tap is still the last tick's. -/
def pinkSections (b : PinkTaps) (white : F64) : PinkTaps where
  b0 := pinkPole litPole0 b.b0 litGain0 white
  b1 := pinkPole litPole1 b.b1 litGain1 white
  b2 := pinkPole litPole2 b.b2 litGain2 white
  b3 := pinkPole litPole3 b.b3 litGain3 white
  b4 := pinkPole litPole4 b.b4 litGain4 white
  b5 := pinkPole litPole5 b.b5 litGain5 white
  b6 := b.b6

/-- The seventh tap's value for a white sample (R156). -/
def pinkTap6 (white : F64) : F64 := fmul white litTap6

/-- The pink sample (R156), from the updated sections and the last tick's seventh tap: the sum left to
right, then the scale. -/
def pinkSample (delayed : Bool) (b : PinkTaps) (white : F64) : F64 :=
  let t6 := if delayed then b.b6 else pinkTap6 white
  let raw := fadd (fadd (fadd (fadd (fadd (fadd (fadd b.b0 b.b1) b.b2) b.b3) b.b4) b.b5) t6)
    (fmul white litBias)
  fmul raw litPinkScale

/-- The brown integrator (R158). -/
def brownStep (brown white : F64) : F64 :=
  clamp (fadd brown (fmul white litBrownStep)) litBrownMin litBrownMax

/-- The six colours of one tick: all are computed at every tick (R164, R163). -/
structure NoiseTuple where
  white : F64
  pink : F64
  brown : F64
  blue : F64
  violet : F64
  grey : F64
deriving DecidableEq, Repr

/-- The white sample of the tick that starts from the noise registers `n` (R152, R153). -/
def tickWhite (n : Noise) : F64 := whiteOf (lcgStep n.seed)

/-- The colours of the tick that starts from the noise registers `n` (R153 to R161). -/
def noiseTuple (delayed : Bool) (n : Noise) : NoiseTuple :=
  let white := tickWhite n
  let pink := pinkSample delayed (pinkSections n.b white) white
  { white := white
    pink := pink
    brown := brownStep n.brown white
    blue := clamp (fsub white n.w1) negOne one
    violet := clamp (fadd (fsub white (fmul litTwo n.w1)) n.w2) negOne one
    grey := clamp (fadd (fmul litGreyWhite white) (fmul litGreyPink pink)) negOne one }

/-- The noise registers after the tick that starts from `n` (R152, R155, R156, R158, R162). -/
def noiseNext (n : Noise) : Noise :=
  let white := tickWhite n
  { noiseColor := n.noiseColor
    seed := lcgStep n.seed
    b := { pinkSections n.b white with b6 := pinkTap6 white }
    brown := brownStep n.brown white
    w1 := white
    w2 := n.w1 }

/-- The sample handed to the mixer: the colour that `noiseColor` names (R163). -/
def selectColour (c : NoiseColour) (t : NoiseTuple) : F64 :=
  match c with
  | .white => t.white
  | .pink => t.pink
  | .brown => t.brown
  | .blue => t.blue
  | .violet => t.violet
  | .grey => t.grey

/-- `ns`, the selected sample of the tick that starts from `n` (R151, R163). -/
def noiseSample (delayed : Bool) (n : Noise) : F64 :=
  selectColour n.noiseColor (noiseTuple delayed n)

end Sys2Proof.Machine
end

