-- ==== Sys2Proof/Machine/RingBuffer.lean ====
section
/-! DEFINITION. The ring push and `SNAP` (46_ring.md). -/

namespace Sys2Proof.Machine

/-- `RingPush(v)` (R240). -/
def ringPush (ringN : Nat) (r : Ring) (v : F64) : Except Fault Ring :=
  match ringWrite ringN r.mem r.cursor v with
  | .error f => .error f
  | .ok mem =>
    if r.cursor + 1 = ringN then .ok { mem := mem, cursor := 0, filled := true }
    else .ok { mem := mem, cursor := r.cursor + 1, filled := r.filled }

/-- The slots a snapshot reads, oldest first (R242). -/
def snapSlots (ringN : Nat) (r : Ring) : List Nat :=
  if r.filled then List.range' r.cursor (ringN - r.cursor) ++ List.range r.cursor
  else List.range r.cursor

/-- `len` as an unsigned 64-bit integer (R243); free where 64 bits do not hold it (log 16). -/
def lengthWord (len : Nat) : Word64 :=
  if len < 2 ^ 64 then BitVec.ofNat 64 len else Config.longLength len

/-- `SNAP` (R242, R243): the length, then the samples; no state changes but what the response port has
delivered. -/
def execSnap (s : State) : Result :=
  match ringReadAll s.cfg.ringN s.ring.mem (snapSlots s.cfg.ringN s.ring) with
  | .error f => .fault f
  | .ok out => .next (respond s (lengthWord out.length :: out))

end Sys2Proof.Machine
end

