-- ==== Sys2Proof/Machine/Voice.lean ====
section
/-! DEFINITION. The waveform function, the voice commands and the oscillator step (40_voice.md). -/

namespace Sys2Proof.Machine

/-- `wave(w, p)` (R110). -/
def wave (nm : Numerics) (w : Waveform) (p : F64) : F64 :=
  match w with
  | .saw => fmul litTwo (fsub p litHalf)
  | .pulse => if flt p litHalf then one else negOne
  | .triangle => fsub (fmul litFour (fabs (fsub p litHalf))) one
  | .sine => nm.fsin (fmul litTwoPi p)

/-- `55 * 2^(voltage + detune)`: the sum first, then the power, then the product (R25, R113). -/
def pitchFrequency (nm : Numerics) (voltage detune : F64) : F64 :=
  fmul litRefFreq (nm.fexp2 (fadd voltage detune))

/-- A voice with its frequency derived anew from its voltage and detune (R25). -/
def retuned (nm : Numerics) (v : Voice) : Voice :=
  { v with frequency := pitchFrequency nm v.voltage v.detune }

/-- The shared body of `SETVOLT` and `SETDETUNE` (R113, R114): `v` is the voice with its new pitch
register and `x` the operand. -/
def setPitch (nm : Numerics) (vi : Nat) (x : F64) (v : Voice) (s : State) : Result :=
  perVoice vi s (withPitch x
    (if isFinite (retuned nm v).frequency then .next (setVoice s vi (retuned nm v))
      else .refused .frequencyNotFinite))

/-- `SETVOLT vi, A` (R113). -/
def execSetvolt (vi : Nat) (volts : F64) (s : State) : Result :=
  setPitch numerics vi volts { voiceAt s vi with voltage := volts } s

/-- `SETDETUNE vi, A` (R114). -/
def execSetdetune (vi : Nat) (octaves : F64) (s : State) : Result :=
  setPitch numerics vi octaves { voiceAt s vi with detune := octaves } s

/-- `SETWAVE vi, A` (R115): the waveform only; phase and frequency stay. -/
def execSetwave (vi : Nat) (w : Waveform) (s : State) : Result :=
  perVoice vi s (.next (setVoice s vi { voiceAt s vi with waveform := w }))

/-- The phase increment of a tick, a division done anew at every tick (R117). -/
def phaseInc (sr : F64) (v : Voice) : F64 := fdiv v.frequency sr

/-- The state part of `VoiceStep` (R117): the phase advances. -/
def voiceAdvance (sr : F64) (v : Voice) : Voice :=
  { v with phase := frac (fadd v.phase (phaseInc sr v)) }

/-- The sample part of `VoiceStep` (R117), taken at the phase the voice has reached. -/
def voiceSample (nm : Numerics) (v : Voice) : F64 := wave nm v.waveform v.phase

end Sys2Proof.Machine
end

