-- ==== Sys2Proof/Machine/Pipeline.lean ====
section
/-! DEFINITION. The pipeline operations `NOP`, `SETRATE` and `TICK` (45_pipeline.md). -/

namespace Sys2Proof.Machine

/-- `NOP` (R220). -/
def execNop (s : State) : Result := .next s

/-- `SETRATE A` (R221). -/
def execSetrate (hz : F64) (s : State) : Result :=
  withRate hz (.next { s with pipe := { rateSet := true, sampleRate := some hz } })

/-- The voice file after every `VoiceStep` of a tick (R117, R223). -/
def tickVoices (sr : F64) (s : State) : List Voice := s.voices.map (voiceAdvance sr)

/-- `mixed`: the mix of this tick's voice samples and its selected noise sample (R140, R223). -/
def tickMixed (nm : Numerics) (sr : F64) (s : State) : F64 :=
  mixStep s.mixer ((tickVoices sr s).map (voiceSample nm))
    (noiseSample s.cfg.pinkB6Delayed s.noise)

/-- The modifiers after a tick (R209, R223). -/
def tickMods (nm : Numerics) (sr : F64) (s : State) : Modifiers :=
  modStep nm s.mods (tickMixed nm sr s) (fdiv one sr)

/-- The output clamp (R226). -/
def outputClamp (outLim y : F64) : F64 := clamp y (fsub zero outLim) outLim

/-- `TICK` at a sample rate, its precondition met (R223). -/
def tickAt (nm : Numerics) (sr : F64) (s : State) : Result :=
  let mods := tickMods nm sr s
  let y := modOutput mods
  let yc := outputClamp s.cfg.outLim y
  match ringPush s.cfg.ringN s.ring yc with
  | .error f => .fault f
  | .ok ring =>
    .next (respond
      { s with voices := tickVoices sr s, noise := noiseNext s.noise, mods := mods, ring := ring }
      [y, yc])

/-- The precondition on the voices: every phase increment is finite (R117, U5). -/
def incsFinite (sr : F64) (s : State) : Bool := s.voices.all fun v => isFinite (phaseInc sr v)

/-- `TICK` with given numerics: the preconditions on the state before it (R222, R117), then the tick. -/
def tickWith (nm : Numerics) (s : State) : Result :=
  match s.pipe.rateSet, s.pipe.sampleRate with
  | true, some sr => if incsFinite sr s then tickAt nm sr s else .refused .phaseIncrementNotFinite
  | _, _ => .refused .tickBeforeSetRate

/-- `TICK` (R222, R223). -/
def execTick (s : State) : Result := tickWith numerics s

end Sys2Proof.Machine
end

