-- ==== Sys2Proof/Machine/Dispatch.lean ====
section
/-! DEFINITION. One arm per constructor of `Instr`. -/

namespace Sys2Proof.Machine

def exec (i : Instr) (s : State) : Host.Outcome State Fault Refusal :=
  match i with
  | .nop => Sys2Proof.Machine.execNop s
  | .tick => Sys2Proof.Machine.execTick s
  | .snap => Sys2Proof.Machine.execSnap s
  | .setgate on => Sys2Proof.Machine.execSetgate on s
  | .setvolt vi volts => Sys2Proof.Machine.execSetvolt vi volts s
  | .setdetune vi octaves => Sys2Proof.Machine.execSetdetune vi octaves s
  | .setwave vi w => Sys2Proof.Machine.execSetwave vi w s
  | .setmixlvl vi lvl => Sys2Proof.Machine.execSetmixlvl vi lvl s
  | .setoscen vi on => Sys2Proof.Machine.execSetoscen vi on s
  | .setnoiselvl lvl => Sys2Proof.Machine.execSetnoiselvl lvl s
  | .setnoiseen on => Sys2Proof.Machine.execSetnoiseen on s
  | .setnoisecol code => Sys2Proof.Machine.execSetnoisecol code s
  | .setmaster lvl => Sys2Proof.Machine.execSetmaster lvl s
  | .setcutoff hz => Sys2Proof.Machine.execSetcutoff hz s
  | .setemph amount => Sys2Proof.Machine.execSetemph amount s
  | .setcontour amount => Sys2Proof.Machine.execSetcontour amount s
  | .setfenv a d su => Sys2Proof.Machine.execSetfenv a d su s
  | .setlenv a d su => Sys2Proof.Machine.execSetlenv a d su s
  | .setrate hz => Sys2Proof.Machine.execSetrate hz s
  | .setfrel r => Sys2Proof.Machine.execSetfrel r s
  | .setlrel r => Sys2Proof.Machine.execSetlrel r s

end Sys2Proof.Machine
end

