-- ==== Sys2Proof/Machine/Port.lean ====
section
/-! DEFINITION. What the events at the ports do: an accepted word (30_encoding.md R85, R91), `rst`
between operations (70_reset_and_hazards.md R270) and `rst` during one (R271). -/

namespace Sys2Proof.Machine

/-- The state once the first pending event has been taken. -/
def withInput (s : State) (rest : List PortEvent) : State :=
  { s with ports := { s.ports with input := rest } }

/-- An accepted word runs whole: its instruction, or `NOP` for a reserved opcode (R85, R89). -/
def runWord (w : OpWord) (s : State) : Result := exec (decodeOrNop w) s

/-- `rst`: the architectural state of R54; words delivered before stay delivered (R270). -/
def applyReset (s : State) : State := State.resetWith s.cfg s.ports

/-- The response words delivered when `rst` abandons an operation: of the words it would have added to
those of the state before, the first `delivered` (R271). -/
def deliveredBefore (delivered : Nat) (before after : State) : List RspWord :=
  after.ports.responses.take (before.ports.responses.length + delivered)

/-- The response words that come, after those delivered before, from a word that is refused until `rst`
ends the refusal: free (R252; log 2). -/
def refusedWords (w : OpWord) (delivered : Nat) (before : State) : List RspWord :=
  (Config.refusedResponse w delivered before.ports.responses.length).map fun p =>
    { data := p.1, last := p.2 }

/-- `rst` while the operation of `w` is in progress: the state after reset, whatever part of the
operation had been done, and only the first `delivered` words of its response (R271). Of a refused
operation the same is said of the state, and nothing of the response (R252). -/
def abandonWord (w : OpWord) (delivered : Nat) (s : State) : Result :=
  .next (State.resetWith s.cfg { s.ports with
    responses :=
      match runWord w s with
      | .next t => deliveredBefore delivered s t
      | _ => s.ports.responses ++ refusedWords w delivered s })

/-- One event at the ports. -/
def runEvent (e : PortEvent) (s : State) : Result :=
  match e with
  | .accept w => runWord w s
  | .rst => .next (applyReset s)
  | .abandoned w delivered => abandonWord w delivered s

end Sys2Proof.Machine
end

