-- ==== Sys2Proof/Machine/Step.lean ====
section
/-! DEFINITION. One step of the MRC: the next event at its ports (20_memory.md R64). -/

namespace Sys2Proof.Machine

/-- One step: with no event presented the state stays as it is (R70; log 11); else the next event takes
its whole effect. -/
def step (s : State) : Host.Outcome State Fault Refusal :=
  match s.ports.input with
  | [] => .next s
  | e :: rest => runEvent e (withInput s rest)

/-- The state in which the host presents the table's word next (log 1). -/
def State.withFetchWord (s : State) (nbits w : Nat) : State :=
  { s with ports := { s.ports with input := .accept (tableWord nbits w) :: s.ports.input } }

end Sys2Proof.Machine
end

