-- ==== Sys2Proof/Machine/Flags.lean ====
section
/-! DEFINITION. The MRC has no condition codes and no status word, and no operation computes a flag
(10_state.md R51). What it has are the one-bit state elements that R51 lists; here they stand in one
list, so that statements can speak of all of them at once. -/

namespace Sys2Proof.Machine

/-- The one-bit state elements of R51, in its order: `oscEn[i]`, `noiseEn`, `gate`, `rateSet`,
`filled`. -/
def oneBitElements (s : State) : List Bool :=
  s.mixer.oscEn ++ [s.mixer.noiseEn, s.mods.gate, s.pipe.rateSet, s.ring.filled]

end Sys2Proof.Machine
end

