-- ==== Sys2Proof/Safety.lean ====
section
/-! DEFINITION. The words claims are made in: the ranges and invariants of 10_state.md R53, what a
setter stores (R11), when the spec gives an operation a meaning (60_exceptions.md R252), and which words
a host may send (R257, 93_implementation_defined.md U8). -/

namespace Sys2Proof.Machine

/-! ### Ranges -/

/-- `lo ≤ x ≤ hi` as numbers. -/
def between (lo hi x : F64) : Bool := fle lo x && fle x hi

/-- A number in `[0, 1]`. -/
def inUnit (x : F64) : Bool := between zero one x

/-- A number in `[-1, 1]`. -/
def inOne (x : F64) : Bool := between negOne one x

/-- A number in `[0, 1)`. -/
def isPhase (x : F64) : Bool := fle zero x && flt x one

/-- A number in `[-1, 1)`. -/
def isWhite (x : F64) : Bool := fle negOne x && flt x one

/-- A time in `[+0.0, +inf]`, not `-0.0` (R53 item 4). -/
def isTime (t : F64) : Bool := !isNaN t && !signBit t

/-- What `clamp(x, +0.0, 1.0)` stores for `x` (R130): a value in `[0, 1]` as it is, `-0.0` included; `+0.0`
below; `1.0` above. -/
def StoredLevel (x r : F64) : Prop :=
  (inUnit x = true ∧ r = x) ∨ (flt x zero = true ∧ r = zero) ∨ (flt one x = true ∧ r = one)

/-- What `clampT(t)` stores for `t` (R172): a positive time as it is, `+inf` included; `+0.0` for every
other number. -/
def StoredTime (t r : F64) : Prop :=
  (flt zero t = true ∧ r = t) ∨ (fle t zero = true ∧ r = zero)

/-- `r` is what R9 asks of the exact result `n / d` (in units of `2^-1074`), whose sign bit is to be `neg`:
an infinity exactly from the midpoint between the largest finite number and `2^1024` on; below it a finite
number to which no other is nearer, its last bit zero where another is as near. -/
def RoundsToNearestEven (r : F64) (neg : Bool) (n d : Int) : Prop :=
  isNaN r = false ∧ signBit r = neg ∧
    (isFinite r = true ↔ |n| < (2 ^ 54 - 1) * 2 ^ 2044 * |d|) ∧
    (isFinite r = true → ∀ y : F64, isFinite y = true →
      |units r * d - n| ≤ |units y * d - n| ∧
      (|units y * d - n| = |units r * d - n| → units y ≠ units r → r.getLsbD 0 = false))

/-- The sign bit of the sum of two terms whose exact sum is `n`: the sum's own sign; of an exact zero, set
only where both terms have it (R9: IEEE 754, to nearest). -/
def sumSign (n : Int) (bothNeg : Bool) : Bool := if n = 0 then bothNeg else decide (n < 0)

/-- An infinity with the given sign bit. -/
def isInfWith (neg : Bool) (r : F64) : Bool := isInf r && (signBit r == neg)

/-- A zero with the given sign bit. -/
def isZeroWith (neg : Bool) (r : F64) : Bool := isZero r && (signBit r == neg)

/-! ### The invariants of R53, part by part -/

/-- The constraints R5 puts on the parameters. -/
def cfgLegal (c : Params) : Bool :=
  decide (1 ≤ c.nv) && decide (c.nv ≤ 256) && decide (1 ≤ c.ringN) && isFinite c.outLim &&
    flt zero c.outLim

/-- The voice file and the mixer's two lists have `NV` entries each (R22 to R28). -/
def shaped (s : State) : Bool :=
  decide (s.voices.length = s.cfg.nv) && decide (s.mixer.oscEn.length = s.cfg.nv) &&
    decide (s.mixer.level.length = s.cfg.nv)

/-- R53 item 1, and R23, R24: finite pitch registers; the frequency is the one they give, finite and
not below zero. -/
def voiceTuned (nm : Numerics) (v : Voice) : Bool :=
  isFinite v.voltage && isFinite v.detune &&
    decide (v.frequency = pitchFrequency nm v.voltage v.detune) && isFinite v.frequency &&
    fle zero v.frequency

/-- R53 items 1 and 2 of a voice. -/
def voiceLegal (nm : Numerics) (v : Voice) : Bool := voiceTuned nm v && isPhase v.phase

/-- R53 item 3 of the mixer. -/
def mixerLegal (m : Mixer) : Bool := m.level.all inUnit && inUnit m.noiseLevel && inUnit m.master

/-- R53 item 5. -/
def noiseLegal (n : Noise) : Bool :=
  between litBrownMin litBrownMax n.brown && isWhite n.w1 && isWhite n.w2

/-- A bound on the pink taps that every tick keeps (DESIGN CHOICE, log 17; wider than any the filter
reaches): each in `[-64, 64]`. -/
def pinkBounded (b : PinkTaps) : Bool :=
  [b.b0, b.b1, b.b2, b.b3, b.b4, b.b5, b.b6].all
    (between 0xC050000000000000#64 0x4050000000000000#64)

/-- R53 items 3 and 4 of an envelope's parameter set. -/
def envLegal (e : Envelope) : Bool :=
  isTime e.attack && isTime e.decay && isTime e.release && inUnit e.sustain

/-- The envelope's value is in `[0, 1]` (R186, in binary64: log 18), and `+0.0` in `Idle` (R184). -/
def envRun (e : Envelope) : Bool := inUnit e.value && (e.stage != .idle || e.value == zero)

/-- R53 items 3 and 4 of the modifiers; the cutoff is any number (R38). -/
def modsLegal (m : Modifiers) : Bool :=
  inUnit m.emphasis && inUnit m.contour && !isNaN m.cutoff && envLegal m.fenv && envLegal m.lenv

/-- Every ladder stage is in `[-1, 1]` (R211, in binary64: log 18). -/
def ladderBounded (l : Ladder) : Bool := inOne l.s0 && inOne l.s1 && inOne l.s2 && inOne l.s3

/-- The stages an envelope can hold while the gate is as it is (R189). -/
def gateAllows (gate : Bool) (st : EnvStage) : Bool :=
  match st with
  | .idle | .release => !gate
  | .attack | .decay | .sustain => gate

/-- The invariant of R189. -/
def gateLegal (m : Modifiers) : Bool := gateAllows m.gate m.fenv.stage && gateAllows m.gate m.lenv.stage

/-- R53 item 9, and R46: a rate is held exactly when `rateSet` is true. -/
def rateLegal (p : Pipeline) : Bool :=
  match p.rateSet, p.sampleRate with
  | true, some sr => legalRate sr
  | false, none => true
  | _, _ => false

/-- R53 item 7 and the memory's canonical form: the cursor is a slot, and the written slots are those
below the cursor, or all of them once `filled`. -/
def ringLegal (ringN : Nat) (r : Ring) : Bool :=
  decide (r.cursor < ringN) && Memory.wf r.mem &&
    decide (r.mem.map Prod.fst = List.range (if r.filled then ringN else r.cursor))

/-- Every word the ring holds lies in `[-OUT_LIM, OUT_LIM]` (R226, R240). -/
def ringBounded (lim : F64) (m : Memory) : Bool := m.all fun p => between (fneg lim) lim p.2

/-- The invariant of R53, with the ranges that R189 and R226 add, R186 and R211 in binary64 (log 18) and the
bound on the pink taps (log 17), in one. -/
def invariant (s : State) : Bool :=
  cfgLegal s.cfg && shaped s && s.voices.all (voiceLegal numerics) && mixerLegal s.mixer &&
    noiseLegal s.noise && pinkBounded s.noise.b && modsLegal s.mods && envRun s.mods.fenv &&
    envRun s.mods.lenv && ladderBounded s.mods.ladder && gateLegal s.mods && rateLegal s.pipe &&
    ringLegal s.cfg.ringN s.ring && ringBounded s.cfg.outLim s.ring.mem

/-- Every numeric register of the state (R53 item 8; the ring's words among them). -/
def numericRegisters (s : State) : List F64 :=
  s.voices.flatMap (fun v => [v.voltage, v.detune, v.frequency, v.phase]) ++ s.mixer.level ++
    [s.mixer.noiseLevel, s.mixer.master, s.noise.b.b0, s.noise.b.b1, s.noise.b.b2, s.noise.b.b3,
      s.noise.b.b4, s.noise.b.b5, s.noise.b.b6, s.noise.brown, s.noise.w1, s.noise.w2, s.mods.cutoff,
      s.mods.emphasis, s.mods.contour, s.mods.fenv.attack, s.mods.fenv.decay, s.mods.fenv.sustain,
      s.mods.fenv.release, s.mods.fenv.value, s.mods.lenv.attack, s.mods.lenv.decay,
      s.mods.lenv.sustain, s.mods.lenv.release, s.mods.lenv.value, s.mods.ladder.s0,
      s.mods.ladder.s1, s.mods.ladder.s2, s.mods.ladder.s3] ++
    s.pipe.sampleRate.toList ++ s.ring.mem.map Prod.snd

/-! ### When an operation has a meaning (R252) -/

/-- The pitch commands' condition: an index out of range, or a finite operand that gives a finite
frequency (U1, U2). -/
def pitchAccepted (s : State) (vi : Nat) (x : F64) (v : Voice) : Bool :=
  decide (s.cfg.nv ≤ vi) || (isFinite x && isFinite (pitchFrequency numerics v.voltage v.detune))

/-- None of the situations U1 to U5 of R252 holds for the instruction in the state. -/
def accepted (i : Instr) (s : State) : Bool :=
  match i with
  | .nop | .snap => true
  | .tick =>
    match s.pipe.rateSet, s.pipe.sampleRate with
    | true, some sr => s.voices.all fun v => isFinite (fdiv v.frequency sr)
    | _, _ => false
  | .setgate _ => true
  | .setvolt vi x => pitchAccepted s vi x { voiceAt s vi with voltage := x }
  | .setdetune vi x => pitchAccepted s vi x { voiceAt s vi with detune := x }
  | .setwave _ _ => true
  | .setmixlvl vi x => decide (s.cfg.nv ≤ vi) || !isNaN x
  | .setoscen _ _ => true
  | .setnoiselvl x => !isNaN x
  | .setnoiseen _ => true
  | .setnoisecol _ => true
  | .setmaster x => !isNaN x
  | .setcutoff x => !isNaN x
  | .setemph x => !isNaN x
  | .setcontour x => !isNaN x
  | .setfenv a d su => !isNaN a && !isNaN d && !isNaN su
  | .setlenv a d su => !isNaN a && !isNaN d && !isNaN su
  | .setrate x => isFinite x && flt zero x && isFinite (fdiv one x)
  | .setfrel x => !isNaN x
  | .setlrel x => !isNaN x

/-! ### The host's side (R257, 93 U8) -/

/-- A word a host may send: no reserved opcode and no reserved colour code. -/
def hostMaySend (w : OpWord) : Bool :=
  match decode w with
  | .ok (.setnoisecol code) => decide (code < 6)
  | .ok _ => true
  | .error _ => false

/-- The 21 opcodes of R83. -/
def definedOpcodes : List Nat :=
  [0x00, 0x01, 0x02, 0x10, 0x11, 0x12, 0x13, 0x14, 0x15, 0x16, 0x17, 0x18, 0x19, 0x1A, 0x1B, 0x1C,
    0x1D, 0x1E, 0x1F, 0x20, 0x21]

/-- The bits of the word that an operation reads, by opcode, from the fields of
spec/opcode_table.json: the opcode always; the voice index for the per-voice commands; of the operand
fields the bits R82 says are read. A reserved opcode reads no more than itself (R85). -/
def usedBits (op : Nat) : OpWord :=
  match op with
  | 0x10 | 0x17 => packWord 0xFF#8 0 1#64 0#64 0#64
  | 0x15 => packWord 0xFF#8 255 1#64 0#64 0#64
  | 0x13 => packWord 0xFF#8 255 3#64 0#64 0#64
  | 0x18 => packWord 0xFF#8 0 7#64 0#64 0#64
  | 0x11 | 0x12 | 0x14 => packWord 0xFF#8 255 (BitVec.allOnes 64) 0#64 0#64
  | 0x16 | 0x19 | 0x1A | 0x1B | 0x1C | 0x1F | 0x20 | 0x21 =>
    packWord 0xFF#8 0 (BitVec.allOnes 64) 0#64 0#64
  | 0x1D | 0x1E =>
    packWord 0xFF#8 0 (BitVec.allOnes 64) (BitVec.allOnes 64) (BitVec.allOnes 64)
  | _ => packWord 0xFF#8 0 0#64 0#64 0#64

/-! ### Runs -/

/-- The state after a list of instructions, one after the other; none if one of them stops. -/
def runInstrs : List Instr → State → Option State
  | [], s => some s
  | i :: is, s =>
    match exec i s with
    | .next t => runInstrs is t
    | _ => none

/-- The ring after a list of pushes, one after the other; none if one of them faults (R240). -/
def pushAll (ringN : Nat) : List F64 → Ring → Option Ring
  | [], r => some r
  | v :: vs, r =>
    match ringPush ringN r v with
    | .ok r' => pushAll ringN vs r'
    | .error _ => none

end Sys2Proof.Machine
end

