-- ==== Sys2Proof/Certificates/Slice0/Obligations.lean ====
section
/-! DEFINITION. The statements for the provers, each with the rule of spec/ it rests on. -/

open Sys2Proof Sys2Proof.Machine

/-! ### Encoding and decoding (30_encoding.md) -/

/-- R81, R83, R93: decoding the word of a well-formed instruction gives the instruction back, with every
operand at every value its field admits. -/
def Obligations.DecodeOfEncodeGivesTheInstruction : Prop :=
  ∀ i : Instr, i.wf = true → decode (encode i) = .ok i

/-- Words of 95_test_vectors.md 2.1 decode to the operations that stand beside them (R81 to R87). -/
def Obligations.SpecWordsDecodeAsWritten : Prop :=
  decode 0x0100000000000000000000000000000000000000000000000000#208 = .ok .tick ∧
  decode 0x1102BFF000000000000000000000000000000000000000000000#208
    = .ok (.setvolt 2 0xBFF0000000000000#64) ∧
  decode 0x1300000000000000000700000000000000000000000000000000#208 = .ok (.setwave 0 .sine) ∧
  decode 0x1502000000000000000100000000000000000000000000000000#208 = .ok (.setoscen 2 true) ∧
  decode 0x180000000000000000FD00000000000000000000000000000000#208 = .ok (.setnoisecol 5) ∧
  decode 0x1D003F847AE147AE147B3FB999999999999A3FE6666666666666#208
    = .ok (.setfenv 0x3F847AE147AE147B#64 0x3FB999999999999A#64 0x3FE6666666666666#64) ∧
  decode 0x10AB00000000000000017FF8000000000000FFFFFFFFFFFFFFFF#208 = .ok (.setgate true)

/-- R89: a word whose opcode is not in the table of R83 is rejected by name by the decoder and executes
as `NOP`: no state change, no response. -/
def Obligations.ReservedOpcodeExecutesAsNop : Prop :=
  ∀ (s : State) (w : OpWord) (rest : List PortEvent),
    s.ports.input = .accept w :: rest → (opField w).toNat ∉ definedOpcodes →
      decode w = .error (.reservedOpcode (opField w)) ∧ step s = .next (withInput s rest)

/-- R84: the bits of a word that its operation does not use change nothing in what it decodes to, and
the encoder writes zero into them. -/
def Obligations.UnusedBitsAreIgnored : Prop :=
  (∀ w w' : OpWord,
    w &&& usedBits (opField w).toNat = w' &&& usedBits (opField w).toNat → decode w = decode w') ∧
  ∀ i : Instr, encode i &&& ~~~(usedBits (opField (encode i)).toNat) = 0#208

/-- R61: 26 bytes, most significant first (byte `k` is `W[207-8k:200-8k]`), carry an operation word whole;
a string of another length is rejected by name. -/
def Obligations.TransportBytesCarryTheWord : Prop :=
  (∀ w : OpWord, (bytesOfWord w).length = 26 ∧
    (∀ k, k < 26 → (bytesOfWord w)[k]? = some (w.extractLsb' (200 - 8 * k) 8)) ∧
    wordOfBytes (bytesOfWord w) = w ∧ decodeBytes (bytesOfWord w) = decode w) ∧
  ∀ bytes : List Byte, bytes.length ≠ 26 → decodeBytes bytes = .error (.notOneWord bytes.length)

/-! ### Steps, ports and reset -/

/-- R64, R85, R91: when the next event is an accepted word that decodes to a well-formed instruction,
the step is that instruction's execution in the state whose input has moved past the word; moving past
it changes no more than the pending input. -/
def Obligations.StepRunsTheDecodedInstruction : Prop :=
  ∀ (s : State) (w : OpWord) (rest : List PortEvent) (i : Instr),
    s.ports.input = .accept w :: rest → decode w = .ok i → i.wf = true →
      step s = exec i (withInput s rest) ∧
      withInput s rest = { s with ports := { input := rest, responses := s.ports.responses } }

/-- R70: with nothing presented, nothing happens. -/
def Obligations.NothingPresentedNothingHappens : Prop :=
  ∀ s : State, s.ports.input = [] → step s = .next s

/-- R54: the state after reset, register by register, for every configuration. -/
def Obligations.ResetLeavesTheListedValues : Prop :=
  ∀ (c : Params) (p : Ports) (s : State), s = State.resetWith c p →
    s.voices.length = c.nv ∧
    (∀ v ∈ s.voices, v.waveform = .saw ∧ v.voltage = 0#64 ∧ v.detune = 0#64 ∧
      v.frequency = 0x404B800000000000#64 ∧ v.phase = 0#64) ∧
    s.mixer = { oscEn := List.replicate c.nv false, level := List.replicate c.nv 0#64,
                noiseEn := false, noiseLevel := 0#64, master := 0#64 } ∧
    s.noise = { noiseColor := .white, seed := c.seed0, b := ⟨0#64, 0#64, 0#64, 0#64, 0#64, 0#64, 0#64⟩,
                brown := 0#64, w1 := 0#64, w2 := 0#64 } ∧
    s.mods.gate = false ∧ s.mods.cutoff = 0#64 ∧ s.mods.emphasis = 0#64 ∧ s.mods.contour = 0#64 ∧
    s.mods.fenv = { attack := 0#64, decay := 0#64, sustain := 0#64, release := 0#64,
                    stage := .idle, value := 0#64 } ∧
    s.mods.lenv = { attack := 0#64, decay := 0#64, sustain := 0#64, release := 0#64,
                    stage := .idle, value := 0#64 } ∧
    s.mods.ladder = ⟨0#64, 0#64, 0#64, 0#64⟩ ∧
    s.pipe = { rateSet := false, sampleRate := none } ∧
    (∀ k, ringWord s k = none) ∧ s.ring.cursor = 0 ∧ s.ring.filled = false

/-- R270, R271: `rst` leaves the reset state and the words already delivered. Asserted while an operation is
in progress it leaves the same state, whatever the operation, a refused one too; of an operation that has a
meaning, the response words delivered before, and of a refused one nothing is said but that the words of
earlier operations stay. -/
def Obligations.ResetLineRestoresTheResetState : Prop :=
  (∀ (s : State) (rest : List PortEvent), s.ports.input = .rst :: rest →
    step s = .next (State.resetWith s.cfg { input := rest, responses := s.ports.responses })) ∧
  ∀ (s : State) (w : OpWord) (k : Nat) (rest : List PortEvent),
    s.ports.input = .abandoned w k :: rest →
      ∃ out, step s = .next (State.resetWith s.cfg
          { input := rest, responses := s.ports.responses ++ out }) ∧
        ∀ (t : State) (new : List RspWord), exec (decodeOrNop w) (withInput s rest) = .next t →
          t.ports.responses = s.ports.responses ++ new → out = new.take k

/-! ### The numbers (00_scope.md R9 to R11) -/

/-- R9: the four operations are those of IEEE 754, round to nearest, ties to even (values in units of
`2^-1074`). On finite numbers they round the exact result, with its sign; past the largest number they give
an infinity of that sign; an exact zero has the sign IEEE 754 gives it. A finite number other than zero over
a zero is an infinity, infinite operands give what IEEE 754 says, and the invalid operations and NaN operands
give a NaN (whose sign and payload are left open: log 6). -/
def Obligations.ArithmeticRoundsToNearestEven : Prop :=
  (∀ a b : F64, isFinite a = true → isFinite b = true →
    RoundsToNearestEven (fadd a b) (sumSign (units a + units b) (signBit a && signBit b))
      (units a + units b) 1 ∧
    RoundsToNearestEven (fsub a b) (sumSign (units a - units b) (signBit a && !signBit b))
      (units a - units b) 1 ∧
    RoundsToNearestEven (fmul a b) (signBit a != signBit b) (units a * units b) oneUnits ∧
    (isZero b = false →
      RoundsToNearestEven (fdiv a b) (signBit a != signBit b) (units a * oneUnits) (units b)) ∧
    (isZero b = true → isZero a = false → isInfWith (signBit a != signBit b) (fdiv a b) = true) ∧
    (isZero b = true → isZero a = true → isNaN (fdiv a b) = true)) ∧
  (∀ a b : F64, isInf a = true → isFinite b = true →
    fadd a b = a ∧ fadd b a = a ∧ fsub a b = a ∧ isInfWith (!signBit a) (fsub b a) = true ∧
    isInfWith (signBit a != signBit b) (fdiv a b) = true ∧
    isZeroWith (signBit b != signBit a) (fdiv b a) = true ∧
    (isZero b = false → isInfWith (signBit a != signBit b) (fmul a b) = true ∧
      isInfWith (signBit b != signBit a) (fmul b a) = true) ∧
    (isZero b = true → isNaN (fmul a b) = true ∧ isNaN (fmul b a) = true)) ∧
  (∀ a b : F64, isInf a = true → isInf b = true →
    isInfWith (signBit a != signBit b) (fmul a b) = true ∧ isNaN (fdiv a b) = true ∧
    (signBit a = signBit b → fadd a b = a ∧ isNaN (fsub a b) = true) ∧
    (signBit a ≠ signBit b → isNaN (fadd a b) = true ∧ fsub a b = a)) ∧
  ∀ a b : F64, isNaN a = true ∨ isNaN b = true →
    isNaN (fadd a b) = true ∧ isNaN (fsub a b) = true ∧ isNaN (fmul a b) = true ∧
    isNaN (fdiv a b) = true

/-- R11: the comparisons of finite numbers compare their values (the two zeros are equal), an infinity
stands beyond every other number of its side, and every comparison with a NaN is false; for a finite `x ≥ 0`
the subtraction in `frac` is exact and the result is in `[0, 1)`. -/
def Obligations.FracIsExactAndInUnitInterval : Prop :=
  (∀ a b : F64, isFinite a = true → isFinite b = true →
    flt a b = decide (units a < units b) ∧ fle a b = decide (units a ≤ units b) ∧
    feq a b = decide (units a = units b)) ∧
  (∀ a b : F64, isInf a = true → isNaN b = false →
    feq a b = decide (b = a) ∧ feq b a = decide (b = a) ∧
    (signBit a = false → flt a b = false ∧ flt b a = decide (b ≠ a) ∧ fle a b = decide (b = a) ∧
      fle b a = true) ∧
    (signBit a = true → flt b a = false ∧ flt a b = decide (b ≠ a) ∧ fle b a = decide (b = a) ∧
      fle a b = true)) ∧
  (∀ a b : F64, isNaN a = true ∨ isNaN b = true →
    flt a b = false ∧ fle a b = false ∧ feq a b = false) ∧
  ∀ x : F64, isFinite x = true → fle zero x = true →
    isPhase (frac x) = true ∧ units (frac x) = units x % oneUnits

/-- R10: the machine's three functions have the named properties (`tanh_odd_mono`, which no rule of the
machine needs, is not assumed of them: log 5). -/
def Obligations.NumericsHaveTheNamedProperties : Prop :=
  LawfulNumerics numerics

/-- R10, the model's form of it (log 5): bringing three functions under the named properties leaves
functions that have them as they are, wherever the machine evaluates them. -/
def Obligations.LawfulNumericsAreKeptAsTheyAre : Prop :=
  ∀ nm : Numerics, LawfulNumerics nm →
    (numericsOfRaw nm).fexp2 = nm.fexp2 ∧ (numericsOfRaw nm).ftanh = nm.ftanh ∧
    ∀ p, isPhase p = true →
      (numericsOfRaw nm).fsin (fmul litTwoPi p) = nm.fsin (fmul litTwoPi p)

/-! ### Voices (40_voice.md) -/

/-- R112, L-WAVE-RANGE. -/
def Obligations.WaveStaysInRange : Prop :=
  ∀ (nm : Numerics) (w : Waveform) (p : F64), LawfulNumerics nm → isPhase p = true →
    inOne (wave nm w p) = true

/-- R113: `SETVOLT` does nothing for a voice that does not exist; on one that does it is refused for a
NaN, an infinite operand or an overflowing frequency; else the voltage and the frequency it gives are
written and nothing else. -/
def Obligations.SetVoltWritesVoltageAndFrequency : Prop :=
  ∀ (s : State) (vi : Nat) (x : F64), shaped s = true →
    (s.cfg.nv ≤ vi → exec (.setvolt vi x) s = .next s) ∧
    (vi < s.cfg.nv → isNaN x = true → exec (.setvolt vi x) s = .refused .nanOperand) ∧
    (vi < s.cfg.nv → isInf x = true → exec (.setvolt vi x) s = .refused .infinitePitchOperand) ∧
    (vi < s.cfg.nv → isFinite x = true →
      ∀ f, f = fmul 0x404B800000000000#64 (numerics.fexp2 (fadd x (voiceAt s vi).detune)) →
        (isFinite f = false → exec (.setvolt vi x) s = .refused .frequencyNotFinite) ∧
        (isFinite f = true → ∃ t, exec (.setvolt vi x) s = .next t ∧
          t = { s with voices := t.voices } ∧ t.voices.length = s.voices.length ∧
          (∀ j, j ≠ vi → t.voices[j]? = s.voices[j]?) ∧
          t.voices[vi]? = some { waveform := (voiceAt s vi).waveform, voltage := x,
                                 detune := (voiceAt s vi).detune, frequency := f,
                                 phase := (voiceAt s vi).phase }))

/-- R114: `SETDETUNE`, as R113 with the two registers exchanged; the sum stays `voltage + detune`. -/
def Obligations.SetDetuneWritesDetuneAndFrequency : Prop :=
  ∀ (s : State) (vi : Nat) (x : F64), shaped s = true →
    (s.cfg.nv ≤ vi → exec (.setdetune vi x) s = .next s) ∧
    (vi < s.cfg.nv → isNaN x = true → exec (.setdetune vi x) s = .refused .nanOperand) ∧
    (vi < s.cfg.nv → isInf x = true → exec (.setdetune vi x) s = .refused .infinitePitchOperand) ∧
    (vi < s.cfg.nv → isFinite x = true →
      ∀ f, f = fmul 0x404B800000000000#64 (numerics.fexp2 (fadd (voiceAt s vi).voltage x)) →
        (isFinite f = false → exec (.setdetune vi x) s = .refused .frequencyNotFinite) ∧
        (isFinite f = true → ∃ t, exec (.setdetune vi x) s = .next t ∧
          t = { s with voices := t.voices } ∧ t.voices.length = s.voices.length ∧
          (∀ j, j ≠ vi → t.voices[j]? = s.voices[j]?) ∧
          t.voices[vi]? = some { waveform := (voiceAt s vi).waveform,
                                 voltage := (voiceAt s vi).voltage, detune := x, frequency := f,
                                 phase := (voiceAt s vi).phase }))

/-- R116: with `detune = +0.0`, `SETVOLT i, +0.0` gives exactly 55 Hz and `SETVOLT i, 1.0` exactly 110
Hz. -/
def Obligations.PitchContractAtZeroAndOneVolt : Prop :=
  ∀ (s : State) (vi : Nat), shaped s = true → vi < s.cfg.nv → (voiceAt s vi).detune = 0#64 →
    (∃ t, exec (.setvolt vi 0#64) s = .next t ∧
      (voiceAt t vi).frequency = 0x404B800000000000#64) ∧
    ∃ t, exec (.setvolt vi 0x3FF0000000000000#64) s = .next t ∧
      (voiceAt t vi).frequency = 0x405B800000000000#64

/-- R115: `SETWAVE` writes the waveform of a voice that exists and nothing else; for one that does not it
does nothing. -/
def Obligations.SetWaveWritesWaveformOnly : Prop :=
  ∀ (s : State) (vi : Nat) (w : Waveform), shaped s = true →
    (s.cfg.nv ≤ vi → exec (.setwave vi w) s = .next s) ∧
    (vi < s.cfg.nv → ∃ t, exec (.setwave vi w) s = .next t ∧
      t = { s with voices := t.voices } ∧ t.voices.length = s.voices.length ∧
      (∀ j, j ≠ vi → t.voices[j]? = s.voices[j]?) ∧
      t.voices[vi]? = some { voiceAt s vi with waveform := w })

/-- R88: with `vi ≥ NV` the five per-voice commands change nothing, whatever their operand, a NaN too;
with `NV = 256` no index that a word can carry is out of range. -/
def Obligations.VoiceIndexOutOfRangeIsANoOp : Prop :=
  (∀ (s : State) (vi : Nat) (x : F64) (w : Waveform) (on : Bool), s.cfg.nv ≤ vi →
    exec (.setvolt vi x) s = .next s ∧ exec (.setdetune vi x) s = .next s ∧
    exec (.setwave vi w) s = .next s ∧ exec (.setmixlvl vi x) s = .next s ∧
    exec (.setoscen vi on) s = .next s) ∧
  ∀ (s : State) (w : OpWord), s.cfg.nv = 256 → (viField w).toNat < s.cfg.nv

/-- R118, L-PHASE-RANGE: after any `TICK`, for any frequency `≥ 0` and sample rate `> 0`, every phase is
in `[0, 1)`. -/
def Obligations.PhaseStaysInUnitInterval : Prop :=
  ∀ (s t : State) (sr : F64), s.pipe.sampleRate = some sr → isFinite sr = true →
    flt zero sr = true → (∀ v ∈ s.voices, isPhase v.phase = true ∧ fle zero v.frequency = true) →
      exec .tick s = .next t → ∀ v ∈ t.voices, isPhase v.phase = true

/-- R119: no cross-voice state: what a `TICK` leaves of a voice depends on that voice and the sample rate
alone. -/
def Obligations.VoicesShareNoState : Prop :=
  ∀ (s s' t t' : State) (j : Nat), s.pipe.sampleRate = s'.pipe.sampleRate →
    s.voices[j]? = s'.voices[j]? → exec .tick s = .next t → exec .tick s' = .next t' →
      t.voices[j]? = t'.voices[j]?

/-! ### Mixer (41_mixer.md) -/

/-- R130: `SETMIXLVL` on a voice that exists stores its operand clamped to `[0, 1]` in that voice's level
and changes nothing else; a NaN is refused. For a voice that does not exist it does nothing. -/
def Obligations.SetMixLevelStoresTheClampedLevel : Prop :=
  ∀ (s : State) (vi : Nat) (x : F64), shaped s = true →
    (s.cfg.nv ≤ vi → exec (.setmixlvl vi x) s = .next s) ∧
    (vi < s.cfg.nv → isNaN x = true → exec (.setmixlvl vi x) s = .refused .nanOperand) ∧
    (vi < s.cfg.nv → isNaN x = false → ∃ r t, StoredLevel x r ∧ inUnit r = true ∧
      exec (.setmixlvl vi x) s = .next t ∧
      t = { s with mixer := { s.mixer with level := t.mixer.level } } ∧
      t.mixer.level.length = s.mixer.level.length ∧ t.mixer.level[vi]? = some r ∧
      ∀ j, j ≠ vi → t.mixer.level[j]? = s.mixer.level[j]?)

/-- R131: `SETOSCEN` writes the enable of a voice that exists and nothing else; for one that does not it
does nothing. -/
def Obligations.SetOscEnableWritesTheEnableOnly : Prop :=
  ∀ (s : State) (vi : Nat) (on : Bool), shaped s = true →
    (s.cfg.nv ≤ vi → exec (.setoscen vi on) s = .next s) ∧
    (vi < s.cfg.nv → ∃ t, exec (.setoscen vi on) s = .next t ∧
      t = { s with mixer := { s.mixer with oscEn := t.mixer.oscEn } } ∧
      t.mixer.oscEn.length = s.mixer.oscEn.length ∧ t.mixer.oscEn[vi]? = some on ∧
      ∀ j, j ≠ vi → t.mixer.oscEn[j]? = s.mixer.oscEn[j]?)

/-- R132, R134, R201, R202: each stores its operand clamped to `[0, 1]` in its register and changes
nothing else; a NaN is refused. -/
def Obligations.UnitSettersStoreTheClampedOperand : Prop :=
  ∀ (s : State) (x : F64),
    (isNaN x = true →
      exec (.setnoiselvl x) s = .refused .nanOperand ∧ exec (.setmaster x) s = .refused .nanOperand ∧
      exec (.setemph x) s = .refused .nanOperand ∧ exec (.setcontour x) s = .refused .nanOperand) ∧
    (isNaN x = false → ∃ r, StoredLevel x r ∧ inUnit r = true ∧
      exec (.setnoiselvl x) s = .next { s with mixer := { s.mixer with noiseLevel := r } } ∧
      exec (.setmaster x) s = .next { s with mixer := { s.mixer with master := r } } ∧
      exec (.setemph x) s = .next { s with mods := { s.mods with emphasis := r } } ∧
      exec (.setcontour x) s = .next { s with mods := { s.mods with contour := r } })

/-- R133: `SETNOISEEN` writes `noiseEn` only. -/
def Obligations.SetNoiseEnableWritesNoiseEnableOnly : Prop :=
  ∀ (s : State) (on : Bool),
    exec (.setnoiseen on) s = .next { s with mixer := { s.mixer with noiseEn := on } }

/-- R140: the mix is the sum from `+0.0` of the enabled voices' terms in ascending index, then the noise
term, then the product with the master level. -/
def Obligations.MixIsTheOrderedSum : Prop :=
  ∀ (m : Mixer) (vs : List F64) (ns : F64) (n : Nat),
    m.oscEn.length = n → m.level.length = n → vs.length = n →
      ∀ acc, acc = (List.range n).foldl (fun acc i =>
          if m.oscEn.getD i false then fadd acc (fmul (m.level.getD i 0#64) (vs.getD i 0#64)) else acc)
          0#64 →
        mixStep m vs ns =
          fmul m.master (if m.noiseEn then fadd acc (fmul m.noiseLevel ns) else acc)

/-- R141, L-MIX-SILENT: with every voice and the noise disabled the mix is `+0.0` whatever the samples,
`-0.0` only for `master = -0.0`. -/
def Obligations.MixIsSilentWithEverythingDisabled : Prop :=
  ∀ (m : Mixer) (vs : List F64) (ns : F64), (∀ en ∈ m.oscEn, en = false) → m.noiseEn = false →
    inUnit m.master = true →
      mixStep m vs ns = (if m.master = negZero then negZero else 0#64) ∧
      feq (mixStep m vs ns) zero = true

/-! ### Noise (42_noise.md) -/

/-- R150: `SETNOISECOL` selects the colour of its code and changes nothing else; codes 6 and 7 change
nothing. -/
def Obligations.SetNoiseColourSelectsTheColour : Prop :=
  ∀ (s : State) (c : NoiseColour) (code : Nat),
    ((code, c) ∈ [(0, NoiseColour.white), (1, .pink), (2, .brown), (3, .blue), (4, .violet), (5, .grey)] →
      exec (.setnoisecol code) s = .next { s with noise := { s.noise with noiseColor := c } }) ∧
    (6 ≤ code → exec (.setnoisecol code) s = .next s)

/-- R153, and R154 L-WHITE-RANGE: the white sample is `u / 2^52 - 1` exactly, `u` the top 53 bits of the
LCG state, and lies in `[-1, 1)`. -/
def Obligations.WhiteSampleIsExact : Prop :=
  ∀ seed : Word64, isWhite (whiteOf seed) = true ∧
    units (whiteOf seed) * 2 ^ 52 = ((seed.toNat / 2 ^ 11 : Nat) - 2 ^ 52 : Int) * oneUnits

/-- R156, R159, R160, R161, R163: the sample handed to the mixer by a `TICK`, colour by colour, in terms
of the registers the tick leaves (`n'`) and those before it. -/
def Obligations.NoiseSampleOfEachColour : Prop :=
  ∀ (delayed : Bool) (n n' : Noise) (pink : F64), n' = noiseNext n →
    pink = fmul (fadd (fadd (fadd (fadd (fadd (fadd (fadd n'.b.b0 n'.b.b1) n'.b.b2) n'.b.b3) n'.b.b4)
      n'.b.b5) (if delayed then n.b.b6 else n'.b.b6)) (fmul n'.w1 litBias)) litPinkScale →
    (n.noiseColor = .white → noiseSample delayed n = n'.w1) ∧
    (n.noiseColor = .pink → noiseSample delayed n = pink) ∧
    (n.noiseColor = .brown → noiseSample delayed n = n'.brown) ∧
    (n.noiseColor = .blue → noiseSample delayed n = clamp (fsub n'.w1 n.w1) negOne one) ∧
    (n.noiseColor = .violet →
      noiseSample delayed n = clamp (fadd (fsub n'.w1 (fmul litTwo n.w1)) n.w2) negOne one) ∧
    (n.noiseColor = .grey → noiseSample delayed n =
      clamp (fadd (fmul litGreyWhite n'.w1) (fmul litGreyPink pink)) negOne one)

/-- R154, L-NOISE-DET: what a `TICK` leaves of the noise registers depends on them alone, and no other
operation touches one of them but the selection. -/
def Obligations.NoiseStreamDependsOnNoiseRegistersAlone : Prop :=
  (∀ (s s' t t' : State), { s.noise with noiseColor := .white } = { s'.noise with noiseColor := .white } →
    exec .tick s = .next t → exec .tick s' = .next t' →
      { t.noise with noiseColor := .white } = { t'.noise with noiseColor := .white }) ∧
  ∀ (i : Instr) (s t : State), i ≠ .tick → exec i s = .next t →
    t.noise = { s.noise with noiseColor := t.noise.noiseColor }

/-- R155, R156, with the model's own bound on the pink taps (`pinkBounded`, log 17): every step keeps each tap
in `[-64, 64]`, and the pink sample of a tick is finite. -/
def Obligations.StepKeepsPinkTapsBounded : Prop :=
  ∀ s : State, pinkBounded s.noise.b = true →
    isFinite (noiseTuple s.cfg.pinkB6Delayed s.noise).pink = true ∧
    ∀ t, step s = .next t → pinkBounded t.noise.b = true

/-! ### Envelopes (43_envelopes.md) -/

/-- R170, R171: `SETGATE` with the value the gate has changes nothing; a rising edge puts both envelopes
in `Attack`, a falling edge puts each that is not `Idle` in `Release`, and neither writes a value. -/
def Obligations.SetGateActsOnEdgesOnly : Prop :=
  ∀ s : State,
    exec (.setgate s.mods.gate) s = .next s ∧
    (s.mods.gate = false → exec (.setgate true) s = .next { s with mods := { s.mods with
      gate := true
      fenv := { s.mods.fenv with stage := .attack }
      lenv := { s.mods.lenv with stage := .attack } } }) ∧
    (s.mods.gate = true → exec (.setgate false) s = .next { s with mods := { s.mods with
      gate := false
      fenv := { s.mods.fenv with
        stage := if s.mods.fenv.stage = .idle then .idle else .release }
      lenv := { s.mods.lenv with
        stage := if s.mods.lenv.stage = .idle then .idle else .release } } })

/-- R172, R173: the envelope commands store the two times clamped to `[+0.0, +inf]` and the sustain level
clamped to `[0, 1]`, together, and change nothing else; a NaN in any operand refuses the whole. -/
def Obligations.EnvelopeSettersStoreClampedParameters : Prop :=
  ∀ (s : State) (a d su : F64),
    (isNaN a = true ∨ isNaN d = true ∨ isNaN su = true →
      exec (.setfenv a d su) s = .refused .nanOperand ∧
      exec (.setlenv a d su) s = .refused .nanOperand) ∧
    (isNaN a = false → isNaN d = false → isNaN su = false →
      ∃ ra rd rs, StoredTime a ra ∧ StoredTime d rd ∧ StoredLevel su rs ∧
        isTime ra = true ∧ isTime rd = true ∧ inUnit rs = true ∧
        exec (.setfenv a d su) s = .next { s with mods := { s.mods with
          fenv := { s.mods.fenv with attack := ra, decay := rd, sustain := rs } } } ∧
        exec (.setlenv a d su) s = .next { s with mods := { s.mods with
          lenv := { s.mods.lenv with attack := ra, decay := rd, sustain := rs } } })

/-- R174, R175: the release commands store a time clamped to `[+0.0, +inf]` in their envelope's release
register and change nothing else; a NaN is refused. -/
def Obligations.ReleaseSettersStoreClampedTime : Prop :=
  ∀ (s : State) (r : F64),
    (isNaN r = true → exec (.setfrel r) s = .refused .nanOperand ∧
      exec (.setlrel r) s = .refused .nanOperand) ∧
    (isNaN r = false → ∃ t, StoredTime r t ∧ isTime t = true ∧
      exec (.setfrel r) s = .next { s with mods := { s.mods with
        fenv := { s.mods.fenv with release := t } } } ∧
      exec (.setlrel r) s = .next { s with mods := { s.mods with
        lenv := { s.mods.lenv with release := t } } })

/-- R180 to R185, and the tick columns of R189: the rule of the stage held at the start of the step, the
value it moves to, the threshold it is compared with and what the stage becomes; the parameters are not
written. -/
def Obligations.EnvelopeStepFollowsTheStageRules : Prop :=
  ∀ (dt k v : F64) (e : Envelope),
    (e.stage = .idle → envStep dt e = e) ∧
    (e.stage = .attack → k = fmin (fdiv dt e.attack) one →
      v = fadd e.value (fmul (fsub one e.value) k) →
      (flt (fabs (fsub one v)) litSnap = true → envStep dt e = { e with value := one, stage := .decay }) ∧
      (flt (fabs (fsub one v)) litSnap = false → envStep dt e = { e with value := v })) ∧
    (e.stage = .decay → k = fmin (fdiv dt e.decay) one →
      v = fadd e.value (fmul (fsub e.sustain e.value) k) →
      (flt (fabs (fsub e.sustain v)) litSnap = true →
        envStep dt e = { e with value := e.sustain, stage := .sustain }) ∧
      (flt (fabs (fsub e.sustain v)) litSnap = false → envStep dt e = { e with value := v })) ∧
    (e.stage = .sustain → envStep dt e = { e with value := e.sustain }) ∧
    (e.stage = .release → k = fmin (fdiv dt e.release) one →
      v = fadd e.value (fmul (fsub zero e.value) k) →
      (fle v litSnap = true → envStep dt e = { e with value := zero, stage := .idle }) ∧
      (fle v litSnap = false → envStep dt e = { e with value := v }))

/-- R189: every step keeps the gate and the envelope stages in step: with the gate up both stages are in
`Attack`, `Decay` or `Sustain`, with it down in `Idle` or `Release`. -/
def Obligations.StepKeepsGateAndStagesTogether : Prop :=
  ∀ s t : State, gateLegal s.mods = true → step s = .next t → gateLegal t.mods = true

/-- R186, L-ENV-RANGE, in binary64 (the spec leaves its rounding unexamined; the model's claim, log 18):
the envelope step keeps the value in `[0, 1]` for every non-negative `dt`, given legal parameters. -/
def Obligations.EnvelopeValueStaysInUnitInterval : Prop :=
  ∀ (dt : F64) (e : Envelope), fle zero dt = true → envLegal e = true → inUnit e.value = true →
    inUnit (envStep dt e).value = true

/-! ### Filter (44_filter.md) -/

/-- R200: `SETCUTOFF` stores its operand as it is, unclamped, and changes nothing else; a NaN is
refused. -/
def Obligations.SetCutoffStoresUnclamped : Prop :=
  ∀ (s : State) (x : F64),
    (isNaN x = true → exec (.setcutoff x) s = .refused .nanOperand) ∧
    (isNaN x = false → exec (.setcutoff x) s = .next { s with mods := { s.mods with cutoff := x } })

/-- R205, R206: the dynamic cutoff is in `[80, 18000]` for every cutoff that is no NaN, and the
coefficient of such a cutoff is above zero and at most 0.99. -/
def Obligations.DynamicCutoffAndCoefficientRanges : Prop :=
  (∀ cutoff contour v : F64, isNaN cutoff = false → inUnit contour = true → inUnit v = true →
    between litCutoffMin litCutoffMax (dynCutoff cutoff contour v) = true) ∧
  ∀ dyn sr : F64, between litCutoffMin litCutoffMax dyn = true → legalRate sr = true →
    flt zero (filterCoeff dyn (fdiv one sr)) = true ∧
    fle (filterCoeff dyn (fdiv one sr)) litMaxCoeff = true

/-- R211, L-LADDER-BOUND, in binary64 (the spec leaves its rounding unexamined; the model's claim, log
18): for a coefficient in `[0, 0.99]` the ladder keeps every stage in `[-1, 1]`. -/
def Obligations.LadderStaysBounded : Prop :=
  ∀ (nm : Numerics) (g drive : F64) (l : Ladder), LawfulNumerics nm →
    between zero litMaxCoeff g = true → inOne drive = true → ladderBounded l = true →
      ladderBounded (ladderStep nm g drive l) = true

/-! ### Pipeline (45_pipeline.md) -/

/-- R220: `NOP` reads nothing, writes nothing, responds nothing. -/
def Obligations.NopChangesNothing : Prop := ∀ s : State, exec .nop s = .next s

/-- R221: `SETRATE` with a rate that is finite, above zero and has a finite reciprocal writes
`sampleRate` and `rateSet` and nothing else; a NaN and every other rate are refused. -/
def Obligations.SetRateStoresALegalRate : Prop :=
  ∀ (s : State) (x : F64),
    (isNaN x = true → exec (.setrate x) s = .refused .nanOperand) ∧
    (isNaN x = false → (isFinite x && flt zero x && isFinite (fdiv one x)) = false →
      exec (.setrate x) s = .refused .illegalSampleRate) ∧
    (isFinite x = true → flt zero x = true → isFinite (fdiv one x) = true →
      exec (.setrate x) s = .next { s with pipe := { rateSet := true, sampleRate := some x } })

/-- R222, and R117: a `TICK` before any `SETRATE` is refused, and so is one in which a voice's phase
increment is not finite. -/
def Obligations.TickIsRefusedWithoutRateOrFiniteIncrement : Prop :=
  (∀ s : State, s.pipe.rateSet = false → exec .tick s = .refused .tickBeforeSetRate) ∧
  ∀ (s : State) (sr : F64), s.pipe = { rateSet := true, sampleRate := some sr } →
    (∃ v ∈ s.voices, isFinite (fdiv v.frequency sr) = false) →
      exec .tick s = .refused .phaseIncrementNotFinite

/-- R223, R224, R240: a `TICK` whose preconditions hold completes, and what it leaves of every part of
the state: every voice's phase advanced; the noise registers stepped; the envelopes, then the ladder in
place and in order; one ring slot written; two words responded; nothing else changed. -/
def Obligations.TickProducesOneSample : Prop :=
  ∀ (s : State) (sr : F64), s.pipe = { rateSet := true, sampleRate := some sr } →
    (∀ v ∈ s.voices, isFinite (fdiv v.frequency sr) = true) → s.ring.cursor < s.cfg.ringN →
    ∃ (t : State) (y yc dt g : F64), exec .tick s = .next t ∧ dt = fdiv one sr ∧
      (t.cfg = s.cfg ∧ t.mixer = s.mixer ∧ t.pipe = s.pipe ∧ t.ports.input = s.ports.input) ∧
      t.voices.length = s.voices.length ∧
      (∀ (j : Nat) (v : Voice), s.voices[j]? = some v → ∃ x, x = fadd v.phase (fdiv v.frequency sr) ∧
        t.voices[j]? = some { v with phase := fsub x (ffloor x) }) ∧
      (t.noise.noiseColor = s.noise.noiseColor ∧
        t.noise.seed = s.noise.seed * 6364136223846793005#64 + 1#64 ∧
        t.noise.w1 = fsub (fmul (u2f (t.noise.seed.toNat / 2 ^ 11)) litWhiteScale) one ∧
        t.noise.w2 = s.noise.w1 ∧
        t.noise.b.b0 = fadd (fmul litPole0 s.noise.b.b0) (fmul t.noise.w1 litGain0) ∧
        t.noise.b.b1 = fadd (fmul litPole1 s.noise.b.b1) (fmul t.noise.w1 litGain1) ∧
        t.noise.b.b2 = fadd (fmul litPole2 s.noise.b.b2) (fmul t.noise.w1 litGain2) ∧
        t.noise.b.b3 = fadd (fmul litPole3 s.noise.b.b3) (fmul t.noise.w1 litGain3) ∧
        t.noise.b.b4 = fadd (fmul litPole4 s.noise.b.b4) (fmul t.noise.w1 litGain4) ∧
        t.noise.b.b5 = fadd (fmul litPole5 s.noise.b.b5) (fmul t.noise.w1 litGain5) ∧
        t.noise.b.b6 = fmul t.noise.w1 litTap6 ∧
        t.noise.brown = clamp (fadd s.noise.brown (fmul t.noise.w1 litBrownStep))
          litBrownMin litBrownMax) ∧
      (t.mods.gate = s.mods.gate ∧ t.mods.cutoff = s.mods.cutoff ∧
        t.mods.emphasis = s.mods.emphasis ∧ t.mods.contour = s.mods.contour ∧
        t.mods.fenv = envStep dt s.mods.fenv ∧ t.mods.lenv = envStep dt s.mods.lenv) ∧
      g = clamp (fmul (fmul litTwoPi (clamp (fmul s.mods.cutoff (fadd one
          (fmul (fmul s.mods.contour t.mods.fenv.value) litFour))) litCutoffMin litCutoffMax)) dt)
        zero litMaxCoeff ∧
      (∃ drive, drive = numerics.ftanh (fsub
          (mixStep s.mixer (t.voices.map (voiceSample numerics))
            (noiseSample s.cfg.pinkB6Delayed s.noise))
          (fmul s.mods.ladder.s3 (fmul s.mods.emphasis litFour))) ∧
        t.mods.ladder.s0 = fadd s.mods.ladder.s0 (fmul g (fsub drive s.mods.ladder.s0))) ∧
      t.mods.ladder.s1 = fadd s.mods.ladder.s1
        (fmul g (fsub (numerics.ftanh t.mods.ladder.s0) s.mods.ladder.s1)) ∧
      t.mods.ladder.s2 = fadd s.mods.ladder.s2
        (fmul g (fsub (numerics.ftanh t.mods.ladder.s1) s.mods.ladder.s2)) ∧
      t.mods.ladder.s3 = fadd s.mods.ladder.s3
        (fmul g (fsub (numerics.ftanh t.mods.ladder.s2) s.mods.ladder.s3)) ∧
      y = fmul t.mods.ladder.s3 t.mods.lenv.value ∧
      yc = clamp y (fsub zero s.cfg.outLim) s.cfg.outLim ∧
      ringWord t s.ring.cursor = some yc ∧
      (∀ k, k ≠ s.ring.cursor → ringWord t k = ringWord s k) ∧
      (t.ring.cursor = if s.ring.cursor + 1 = s.cfg.ringN then 0 else s.ring.cursor + 1) ∧
      (t.ring.filled = if s.ring.cursor + 1 = s.cfg.ringN then true else s.ring.filled) ∧
      t.ports.responses = s.ports.responses ++ [⟨y, false⟩, ⟨yc, true⟩]

/-- R226: the clamped sample lies in `[-OUT_LIM, OUT_LIM]`, is the sample where that lies there and the
bound it has passed elsewhere; `-OUT_LIM` is `OUT_LIM` with the sign bit set. -/
def Obligations.OutputClampBoundsTheSample : Prop :=
  ∀ lim y : F64, isFinite lim = true → flt zero lim = true → isNaN y = false →
    fsub zero lim = lim ||| 0x8000000000000000#64 ∧
    between (lim ||| 0x8000000000000000#64) lim (outputClamp lim y) = true ∧
    (between (lim ||| 0x8000000000000000#64) lim y = true → outputClamp lim y = y) ∧
    (flt lim y = true → outputClamp lim y = lim) ∧
    (flt y (fsub zero lim) = true → outputClamp lim y = fsub zero lim)

/-- R228, L-SILENT-RESET: from reset, `SETRATE` with a legal rate (at which the reset frequency's
increment is finite, or `TICK` is refused by R117) and any number of `TICK`s respond `(+0.0, +0.0)` every
time. -/
def Obligations.SilentAfterReset : Prop :=
  ∀ (c : Params) (sr : F64) (n : Nat), cfgLegal c = true → legalRate sr = true →
    isFinite (fdiv 0x404B800000000000#64 sr) = true →
      ∃ t, runInstrs (.setrate sr :: List.replicate n .tick)
          (State.resetWith c { input := [], responses := [] }) = some t ∧
        t.ports.responses = (List.replicate n [⟨0#64, false⟩, ⟨0#64, true⟩]).flatten

/-! ### Ring buffer (46_ring.md) -/

/-- R242, R243: in a state whose ring is as R53 item 7 says, `SNAP` completes and responds the number of
valid slots and then their words, oldest first; nothing else changes. The first word is that number below
`2^64`; from `2^64` on, where the spec states no word, that it is a free value is the model's choice (log
16). -/
def Obligations.SnapRespondsTheValidSlotsOldestFirst : Prop :=
  (∀ n, n < 2 ^ 64 → (lengthWord n).toNat = n) ∧
  ∀ s : State, ringLegal s.cfg.ringN s.ring = true →
    ∃ out, out.length = (if s.ring.filled then s.cfg.ringN else s.ring.cursor) ∧
      (∀ k, k < out.length →
        ringWord s (if s.ring.filled then (s.ring.cursor + k) % s.cfg.ringN else k) = out[k]?) ∧
      exec .snap s = .next { s with ports := { s.ports with
        responses := s.ports.responses ++ rspWords (lengthWord out.length :: out) } }

/-- R241, R244 L-RING-RECENT, R245 L-RING-PREFIX: after `n` pushes from reset the cursor is `n mod
RING_N`, `filled` says whether `n ≥ RING_N`, and `SNAP` responds exactly the most recent `RING_N` of them
(all of them before the first wrap), oldest first, after their number (`lengthWord`: below `2^64` the number
itself, by `SnapRespondsTheValidSlotsOldestFirst`; that it is a free value from there on is the model's
choice, log 16). -/
def Obligations.SnapReturnsTheMostRecentPushes : Prop :=
  ∀ (ringN : Nat) (ps : List F64), 1 ≤ ringN →
    ∃ r, pushAll ringN ps { mem := [], cursor := 0, filled := false } = some r ∧
      r.cursor = ps.length % ringN ∧ r.filled = decide (ringN ≤ ps.length) ∧
      ∀ s : State, s.cfg.ringN = ringN → s.ring = r →
        exec .snap s = .next (respond s
          (lengthWord (min ps.length ringN) :: ps.drop (ps.length - ringN)))

/-- R53 item 7: every step keeps the cursor a slot, and the written slots those below the cursor, or all
of them once `filled`, in canonical form. -/
def Obligations.StepKeepsTheRingLegal : Prop :=
  ∀ s t : State, 1 ≤ s.cfg.ringN → ringLegal s.cfg.ringN s.ring = true → step s = .next t →
    ringLegal t.cfg.ringN t.ring = true

/-! ### The whole machine -/

/-- R20: no step changes the configuration. -/
def Obligations.ConfigurationNeverChanges : Prop :=
  ∀ s t : State, step s = .next t → t.cfg = s.cfg

/-- R92, and the `resp` column of R83: only `TICK` and `SNAP` respond, `TICK` two words and `SNAP` one
more than the length its first word gives (below `2^64`; from there on, where the spec states no word, that
the first word is a free value is the model's choice, log 16); `rsp_last` comes with the final word; no
operation touches the input. -/
def Obligations.OnlyTickAndSnapRespond : Prop :=
  (∀ n, n < 2 ^ 64 → (lengthWord n).toNat = n) ∧
  (∀ (i : Instr) (s t : State), exec i s = .next t →
    ∃ ds, t.ports = { s.ports with responses := s.ports.responses ++ rspWords ds } ∧
      (i = .tick → ds.length = 2) ∧
      (i = .snap → ∃ out, ds = lengthWord out.length :: out) ∧
      (i ≠ .tick → i ≠ .snap → ds = [])) ∧
  ∀ (ds : List Word64) (d : Word64),
    (rspWords (ds ++ [d])).map RspWord.data = ds ++ [d] ∧
    (rspWords (ds ++ [d])).map RspWord.last = List.replicate ds.length false ++ [true]

/-- R22 to R31: the operations that can change each register of the voice file and the mixer. -/
def Obligations.WritersOfVoiceAndMixerRegisters : Prop :=
  ∀ (i : Instr) (s t : State) (vi : Nat), exec i s = .next t →
    ((voiceAt t vi).waveform ≠ (voiceAt s vi).waveform → ∃ w, i = .setwave vi w) ∧
    ((voiceAt t vi).voltage ≠ (voiceAt s vi).voltage → ∃ x, i = .setvolt vi x) ∧
    ((voiceAt t vi).detune ≠ (voiceAt s vi).detune → ∃ x, i = .setdetune vi x) ∧
    ((voiceAt t vi).frequency ≠ (voiceAt s vi).frequency →
      ∃ x, i = .setvolt vi x ∨ i = .setdetune vi x) ∧
    ((voiceAt t vi).phase ≠ (voiceAt s vi).phase → i = .tick) ∧
    (t.mixer.oscEn[vi]? ≠ s.mixer.oscEn[vi]? → ∃ on, i = .setoscen vi on) ∧
    (t.mixer.level[vi]? ≠ s.mixer.level[vi]? → ∃ x, i = .setmixlvl vi x) ∧
    (t.mixer.noiseEn ≠ s.mixer.noiseEn → ∃ on, i = .setnoiseen on) ∧
    (t.mixer.noiseLevel ≠ s.mixer.noiseLevel → ∃ x, i = .setnoiselvl x) ∧
    (t.mixer.master ≠ s.mixer.master → ∃ x, i = .setmaster x)

/-- R37 to R45: the operations that can change each register of the modifiers. -/
def Obligations.WritersOfModifierRegisters : Prop :=
  ∀ (i : Instr) (s t : State), exec i s = .next t →
    (t.mods.gate ≠ s.mods.gate → ∃ on, i = .setgate on) ∧
    (t.mods.cutoff ≠ s.mods.cutoff → ∃ x, i = .setcutoff x) ∧
    (t.mods.emphasis ≠ s.mods.emphasis → ∃ x, i = .setemph x) ∧
    (t.mods.contour ≠ s.mods.contour → ∃ x, i = .setcontour x) ∧
    (t.mods.fenv.attack ≠ s.mods.fenv.attack ∨ t.mods.fenv.decay ≠ s.mods.fenv.decay ∨
      t.mods.fenv.sustain ≠ s.mods.fenv.sustain → ∃ a d su, i = .setfenv a d su) ∧
    (t.mods.fenv.release ≠ s.mods.fenv.release → ∃ r, i = .setfrel r) ∧
    (t.mods.lenv.attack ≠ s.mods.lenv.attack ∨ t.mods.lenv.decay ≠ s.mods.lenv.decay ∨
      t.mods.lenv.sustain ≠ s.mods.lenv.sustain → ∃ a d su, i = .setlenv a d su) ∧
    (t.mods.lenv.release ≠ s.mods.lenv.release → ∃ r, i = .setlrel r) ∧
    (t.mods.fenv.stage ≠ s.mods.fenv.stage ∨ t.mods.lenv.stage ≠ s.mods.lenv.stage →
      i = .tick ∨ ∃ on, i = .setgate on) ∧
    (t.mods.fenv.value ≠ s.mods.fenv.value ∨ t.mods.lenv.value ≠ s.mods.lenv.value → i = .tick) ∧
    (t.mods.ladder ≠ s.mods.ladder → i = .tick)

/-- R46, R48 to R50: the operations that can change the pipeline's registers and the ring; a word of the
ring changes only at the cursor, and `filled` is never cleared. -/
def Obligations.WritersOfPipelineAndRing : Prop :=
  ∀ (i : Instr) (s t : State), exec i s = .next t →
    (t.pipe ≠ s.pipe → ∃ x, i = .setrate x) ∧
    (t.ring ≠ s.ring → i = .tick) ∧
    (∀ k, ringWord t k ≠ ringWord s k → i = .tick ∧ k = s.ring.cursor) ∧
    (s.ring.filled = true → t.ring.filled = true)

/-- R51: the one-bit state elements change only by the commands that set them and, `filled` alone, by
`TICK`: none changes as a side effect of arithmetic. -/
def Obligations.OneBitElementsChangeOnlyByTheirCommands : Prop :=
  ∀ (i : Instr) (s t : State), exec i s = .next t →
    (∀ on vi x, i ≠ .setoscen vi on ∧ i ≠ .setnoiseen on ∧ i ≠ .setgate on ∧ i ≠ .setrate x) →
      (i ≠ .tick → oneBitElements t = oneBitElements s) ∧
      (oneBitElements t).dropLast = (oneBitElements s).dropLast

/-- R252, R254: in a state that meets the invariant, an operation is refused in the situations U1 to U5
and in no other; in every other case it completes, and none faults. The invariant holds parts that are the
model's choice (log 17, log 18). -/
def Obligations.OperationsCompleteUnlessListed : Prop :=
  ∀ (i : Instr) (s : State), invariant s = true →
    (accepted i s = true → ∃ t, exec i s = .next t) ∧
    (accepted i s = false → ∃ r, exec i s = .refused r)

/-- R53 and R189: every step keeps the invariant. Three parts of it are the model's choice and no rule of
the spec: the bound on the pink taps (log 17), and R186 and R211 in binary64, which the spec marks `real
only` (log 18). -/
def Obligations.StepKeepsTheInvariant : Prop :=
  ∀ s t : State, invariant s = true → step s = .next t → invariant t = true

/-- R53, R54: the invariant holds after reset, for every legal configuration, and so at `State.reset`. The
bound on the pink taps in it is the model's choice (log 17), and so are the parameters of `State.reset`
(log 3). -/
def Obligations.ResetMeetsTheInvariant : Prop :=
  (∀ (c : Params) (p : Ports), cfgLegal c = true → invariant (State.resetWith c p) = true) ∧
  invariant State.reset = true

/-- R53 item 8: in a state that meets the invariant no register holds a NaN. For the pink taps, the envelope
values and the ladder stages it rests on the parts of the invariant that are the model's choice (log 17, log
18). -/
def Obligations.NoRegisterHoldsANaN : Prop :=
  ∀ s : State, invariant s = true → ∀ x ∈ numericRegisters s, isNaN x = false
end

