-- ==== Sys2Proof/Laws/Encoding.lean ====
section
/-! SUPPORT. The fields of a packed operation word, and the operand fields the encoder writes. -/

namespace Sys2Proof

@[simp] theorem opField_packWord (op : BitVec 8) (vi : Nat) (a b c : Word64) :
    opField (packWord op vi a b c) = op := by
  change BitVec.extractLsb' 200 8 (op ++ BitVec.ofNat 8 vi ++ a ++ b ++ c) = _
  apply BitVec.eq_of_getLsbD_eq
  intro i hi
  rw [BitVec.getLsbD_extractLsb']
  simp only [BitVec.getLsbD_append]
  rw [if_neg (by omega), if_neg (by omega), if_neg (by omega), if_neg (by omega)]
  simp [show 200 + i - 64 - 64 - 64 - 8 = i by omega, hi]

@[simp] theorem viField_packWord (op : BitVec 8) (vi : Nat) (a b c : Word64) :
    viField (packWord op vi a b c) = BitVec.ofNat 8 vi := by
  change BitVec.extractLsb' 192 8 (op ++ BitVec.ofNat 8 vi ++ a ++ b ++ c) = _
  apply BitVec.eq_of_getLsbD_eq
  intro i hi
  rw [BitVec.getLsbD_extractLsb']
  simp only [BitVec.getLsbD_append]
  rw [if_neg (by omega), if_neg (by omega), if_neg (by omega), if_pos (by omega)]
  simp [show 192 + i - 64 - 64 - 64 = i by omega, hi]

@[simp] theorem fieldA_packWord (op : BitVec 8) (vi : Nat) (a b c : Word64) :
    fieldA (packWord op vi a b c) = a := by
  change BitVec.extractLsb' 128 64 (op ++ BitVec.ofNat 8 vi ++ a ++ b ++ c) = _
  apply BitVec.eq_of_getLsbD_eq
  intro i hi
  rw [BitVec.getLsbD_extractLsb']
  simp only [BitVec.getLsbD_append]
  rw [if_neg (by omega), if_neg (by omega), if_pos (by omega)]
  simp [show 128 + i - 64 - 64 = i by omega, hi]

@[simp] theorem fieldB_packWord (op : BitVec 8) (vi : Nat) (a b c : Word64) :
    fieldB (packWord op vi a b c) = b := by
  change BitVec.extractLsb' 64 64 (op ++ BitVec.ofNat 8 vi ++ a ++ b ++ c) = _
  apply BitVec.eq_of_getLsbD_eq
  intro i hi
  rw [BitVec.getLsbD_extractLsb']
  simp only [BitVec.getLsbD_append]
  rw [if_neg (by omega), if_pos (by omega)]
  simp [show 64 + i - 64 = i by omega, hi]

@[simp] theorem fieldC_packWord (op : BitVec 8) (vi : Nat) (a b c : Word64) :
    fieldC (packWord op vi a b c) = c := by
  change BitVec.extractLsb' 0 64 (op ++ BitVec.ofNat 8 vi ++ a ++ b ++ c) = _
  apply BitVec.eq_of_getLsbD_eq
  intro i hi
  rw [BitVec.getLsbD_extractLsb']
  simp only [BitVec.getLsbD_append]
  rw [if_pos (by omega)]
  simp [show 0 + i = i by omega, hi]

@[simp] theorem boolOf_boolField (b : Bool) : boolOf (boolField b) = b := by cases b <;> rfl

@[simp] theorem waveOf_waveCode (w : Waveform) : waveOf (BitVec.ofNat 64 (waveCode w)) = w := by
  cases w <;> rfl

end Sys2Proof
end

