-- ==== Sys2Proof/Laws/Rounding.lean ====
section
/-! SUPPORT. Rounding: `roundEven` and `roundBits` are monotone, and exact on what binary64 holds. -/

namespace Sys2Proof.Machine

/-! ### `roundEven` -/

theorem roundEven_ge (n d : Nat) : n / d ≤ roundEven n d := by
  simp only [roundEven]
  split_ifs <;> omega

theorem roundEven_le (n d : Nat) : roundEven n d ≤ n / d + 1 := by
  have := Nat.mod_lt (n / d) (show 0 < 2 by decide)
  simp only [roundEven]
  split_ifs <;> omega

theorem roundEven_mul_right (n d : Nat) (hd : 0 < d) : roundEven (n * d) d = n := by
  simp [roundEven, Nat.mul_div_cancel _ hd, hd]

theorem roundEven_mono {n₁ d₁ n₂ d₂ : Nat} (h₁ : 0 < d₁) (h₂ : 0 < d₂) (h : n₁ * d₂ ≤ n₂ * d₁) :
    roundEven n₁ d₁ ≤ roundEven n₂ d₂ := by
  have hq : n₁ / d₁ ≤ n₂ / d₂ := by
    rw [Nat.le_div_iff_mul_le h₂]
    have := Nat.div_mul_le_self n₁ d₁
    have h3 : n₁ / d₁ * d₁ * d₂ ≤ n₂ * d₁ := (Nat.mul_le_mul_right d₂ this).trans h
    have h4 : (n₁ / d₁ * d₂) * d₁ ≤ n₂ * d₁ := by
      calc (n₁ / d₁ * d₂) * d₁ = n₁ / d₁ * d₁ * d₂ := by ring
        _ ≤ _ := h3
    exact Nat.le_of_mul_le_mul_right h4 h₁
  rcases Nat.lt_or_ge (n₁ / d₁) (n₂ / d₂) with hlt | hge
  · have a := roundEven_le n₁ d₁
    have b := roundEven_ge n₂ d₂
    omega
  · have he : n₁ / d₁ = n₂ / d₂ := le_antisymm hq hge
    have hr : (n₁ % d₁) * d₂ ≤ (n₂ % d₂) * d₁ := by
      have e₁ := Nat.div_add_mod n₁ d₁
      have e₂ := Nat.div_add_mod n₂ d₂
      rw [← he] at e₂
      generalize n₁ / d₁ = q at *
      rw [← e₁, ← e₂] at h
      have h' : q * d₁ * d₂ + n₁ % d₁ * d₂ ≤ q * d₁ * d₂ + n₂ % d₂ * d₁ := by
        nlinarith [h]
      omega
    simp only [roundEven, ← he]
    have m2 : n₁ / d₁ % 2 < 2 := Nat.mod_lt _ (by decide)
    split_ifs with a b c e f g
    all_goals first | omega | skip
    all_goals (exfalso; nlinarith)

/-! ### `roundBits` -/

theorem roundBits_le (n d : Nat) : roundBits n d ≤ infBits := by
  simp only [roundBits]; exact Nat.min_le_right _ _

/-- The significand kept when places are dropped is at least `2^52`. -/
theorem significand_ge {n d : Nat} (he : 0 < Nat.log2 (n / d) - 52) :
    2 ^ 52 ≤ roundEven n (d * 2 ^ (Nat.log2 (n / d) - 52)) := by
  refine le_trans ?_ (roundEven_ge _ _)
  have hq : n / d ≠ 0 := by
    intro h0; rw [h0] at he; simp at he
  have hl := Nat.log2_self_le hq
  rw [← Nat.div_div_eq_div_mul, Nat.le_div_iff_mul_le (by positivity)]
  calc 2 ^ 52 * 2 ^ (Nat.log2 (n / d) - 52) = 2 ^ (Nat.log2 (n / d)) := by
        rw [← pow_add]; congr 1; omega
    _ ≤ n / d := hl

/-- The significand kept is at most `2^53`. -/
theorem significand_le (n d : Nat) :
    roundEven n (d * 2 ^ (Nat.log2 (n / d) - 52)) ≤ 2 ^ 53 := by
  refine le_trans (roundEven_le _ _) ?_
  have h : n / (d * 2 ^ (Nat.log2 (n / d) - 52)) < 2 ^ 53 := by
    rw [← Nat.div_div_eq_div_mul, Nat.div_lt_iff_lt_mul (by positivity), ← pow_add]
    refine lt_of_lt_of_le (Nat.lt_log2_self (n := n / d)) ?_
    exact Nat.pow_le_pow_right (by decide) (by omega)
  omega

theorem roundBits_mono {n₁ d₁ n₂ d₂ : Nat} (h₁ : 0 < d₁) (h₂ : 0 < d₂) (h : n₁ * d₂ ≤ n₂ * d₁) :
    roundBits n₁ d₁ ≤ roundBits n₂ d₂ := by
  have hq : n₁ / d₁ ≤ n₂ / d₂ := by
    rw [Nat.le_div_iff_mul_le h₂]
    have := Nat.div_mul_le_self n₁ d₁
    have h4 : (n₁ / d₁ * d₂) * d₁ ≤ n₂ * d₁ := by
      calc (n₁ / d₁ * d₂) * d₁ = n₁ / d₁ * d₁ * d₂ := by ring
        _ ≤ n₁ * d₂ := Nat.mul_le_mul_right d₂ this
        _ ≤ _ := h
    exact Nat.le_of_mul_le_mul_right h4 h₁
  have he : Nat.log2 (n₁ / d₁) ≤ Nat.log2 (n₂ / d₂) := by
    rw [Nat.log2_eq_log_two, Nat.log2_eq_log_two]; exact Nat.log_mono_right hq
  simp only [roundBits]
  refine min_le_min_right _ ?_
  rcases Nat.lt_or_ge (Nat.log2 (n₁ / d₁) - 52) (Nat.log2 (n₂ / d₂) - 52) with hlt | hge
  · have a := significand_le n₁ d₁
    have b := significand_ge (n := n₂) (d := d₂) (by omega)
    omega
  · have hee : Nat.log2 (n₁ / d₁) - 52 = Nat.log2 (n₂ / d₂) - 52 := by omega
    rw [hee]
    refine Nat.add_le_add_left (roundEven_mono (by positivity) (by positivity) ?_) _
    generalize 2 ^ (Nat.log2 (n₂ / d₂) - 52) = p
    calc n₁ * (d₂ * p) = (n₁ * d₂) * p := by ring
      _ ≤ (n₂ * d₁) * p := Nat.mul_le_mul_right _ h
      _ = n₂ * (d₁ * p) := by ring

/-! ### Magnitudes -/

/-- The magnitude that an encoding without sign stands for, in units. -/
def bitsUnits (b : Nat) : Nat :=
  if b / 2 ^ 52 = 0 then b % 2 ^ 52 else (2 ^ 52 + b % 2 ^ 52) * 2 ^ (b / 2 ^ 52 - 1)

theorem magUnits_eq (x : F64) : magUnits x = bitsUnits (magBits x) := rfl

theorem bitsUnits_zero : bitsUnits 0 = 0 := by decide

/-- Rounding is exact on what binary64 holds. -/
theorem roundBits_bitsUnits {b d : Nat} (hb : b < infBits) (hd : 0 < d) :
    roundBits (bitsUnits b * d) d = b := by
  simp only [roundBits, Nat.mul_div_cancel _ hd]
  have hfl : b % 2 ^ 52 < 2 ^ 52 := Nat.mod_lt _ (by positivity)
  have hbm := Nat.div_add_mod b (2 ^ 52)
  by_cases h0 : b / 2 ^ 52 = 0
  · have hbu : bitsUnits b = b % 2 ^ 52 := if_pos h0
    have hl : Nat.log2 (b % 2 ^ 52) - 52 = 0 := by
      rcases Nat.eq_zero_or_pos (b % 2 ^ 52) with hz | hp
      · rw [hz]; decide
      · have := (Nat.log2_lt (by omega)).2 hfl
        omega
    rw [hbu, hl]
    simp only [pow_zero, mul_one, Nat.zero_mul, Nat.zero_add, roundEven_mul_right _ _ hd]
    rw [h0] at hbm
    rw [min_eq_left (by omega)]; omega
  · have hbu : bitsUnits b = (2 ^ 52 + b % 2 ^ 52) * 2 ^ (b / 2 ^ 52 - 1) := if_neg h0
    have hl : Nat.log2 ((2 ^ 52 + b % 2 ^ 52) * 2 ^ (b / 2 ^ 52 - 1)) - 52 = b / 2 ^ 52 - 1 := by
      have hne : (2 ^ 52 + b % 2 ^ 52) * 2 ^ (b / 2 ^ 52 - 1) ≠ 0 := by positivity
      have hlog : Nat.log2 ((2 ^ 52 + b % 2 ^ 52) * 2 ^ (b / 2 ^ 52 - 1)) = 52 + (b / 2 ^ 52 - 1) := by
        rw [Nat.log2_eq_iff hne]
        constructor
        · rw [pow_add]; exact Nat.mul_le_mul_right _ (by omega)
        · rw [show 52 + (b / 2 ^ 52 - 1) + 1 = 53 + (b / 2 ^ 52 - 1) by omega, pow_add]
          exact Nat.mul_lt_mul_of_pos_right (by omega) (by positivity)
      omega
    rw [hbu, hl]
    rw [show (2 ^ 52 + b % 2 ^ 52) * 2 ^ (b / 2 ^ 52 - 1) * d
      = (2 ^ 52 + b % 2 ^ 52) * (d * 2 ^ (b / 2 ^ 52 - 1)) by ring,
      roundEven_mul_right _ _ (by positivity)]
    have : (b / 2 ^ 52 - 1) * 2 ^ 52 + (2 ^ 52 + b % 2 ^ 52) = b := by
      have : (b / 2 ^ 52 - 1) * 2 ^ 52 + 2 ^ 52 = b / 2 ^ 52 * 2 ^ 52 := by
        rw [← Nat.succ_mul]; congr 1; omega
      omega
    rw [this, min_eq_left (by omega)]

/-- Magnitudes rise with their encodings. -/
theorem bitsUnits_lt_iff {a b : Nat} (ha : a < infBits) (hb : b < infBits) :
    bitsUnits a < bitsUnits b ↔ a < b := by
  constructor
  · intro h
    by_contra hn
    have hge : b ≤ a := by omega
    rcases Nat.eq_or_lt_of_le hge with rfl | hlt
    · exact absurd h (lt_irrefl _)
    · have := roundBits_mono (n₁ := bitsUnits a * 1) (n₂ := bitsUnits b * 1) (d₁ := 1) (d₂ := 1)
        (by decide) (by decide) (by omega)
      rw [roundBits_bitsUnits ha (by decide), roundBits_bitsUnits hb (by decide)] at this
      omega
  · intro h
    by_contra hn
    have := roundBits_mono (n₁ := bitsUnits b * 1) (n₂ := bitsUnits a * 1) (d₁ := 1) (d₂ := 1)
      (by decide) (by decide) (by omega)
    rw [roundBits_bitsUnits ha (by decide), roundBits_bitsUnits hb (by decide)] at this
    omega

theorem bitsUnits_le_iff {a b : Nat} (ha : a < infBits) (hb : b < infBits) :
    bitsUnits a ≤ bitsUnits b ↔ a ≤ b := by
  have := bitsUnits_lt_iff hb ha
  omega

end Sys2Proof.Machine
end

