-- ==== Sys2Proof/Laws/Float.lean ====
section
/-! SUPPORT. What the binary64 operations do, said once in the order of R11: the order place of a
result is the rounding of the exact result's value (`orderKey_fadd` and its fellows), rounding is
monotone and exact on numbers, and comparisons compare order places. -/

namespace Sys2Proof.Machine

/-! ### Encodings -/

theorem infBits_lt : infBits < 2 ^ 63 := by decide

theorem magBits_lt (x : F64) : magBits x < 2 ^ 63 := Nat.mod_lt _ (by positivity)

theorem signBit_iff (x : F64) : signBit x = decide (2 ^ 63 ≤ x.toNat) := by
  simp [signBit, BitVec.msb_eq_decide]

theorem toNat_eq (x : F64) : x.toNat = (if signBit x then 2 ^ 63 else 0) + magBits x := by
  rw [signBit_iff]
  have h := x.isLt
  by_cases hs : 2 ^ 63 ≤ x.toNat
  · simp only [hs, decide_true, if_true, magBits]; omega
  · simp only [hs, decide_false, magBits, Bool.false_eq_true, if_false]; omega

/-- Two encodings with the same sign and the same bits are the same. -/
theorem f64_ext {x y : F64} (hs : signBit x = signBit y) (hm : magBits x = magBits y) : x = y := by
  apply BitVec.eq_of_toNat_eq
  rw [toNat_eq x, toNat_eq y, hs, hm]

theorem toNat_withSign {neg : Bool} {bits : Nat} (h : bits < 2 ^ 63) :
    (withSign neg bits).toNat = (if neg then 2 ^ 63 else 0) + bits := by
  cases neg <;> simp [withSign] <;> omega

@[simp] theorem magBits_withSign {neg : Bool} {bits : Nat} (h : bits < 2 ^ 63) :
    magBits (withSign neg bits) = bits := by
  rw [magBits, toNat_withSign h]
  cases neg <;> simp only [if_true, Bool.false_eq_true, if_false] <;> omega

@[simp] theorem signBit_withSign {neg : Bool} {bits : Nat} (h : bits < 2 ^ 63) :
    signBit (withSign neg bits) = neg := by
  rw [signBit_iff, toNat_withSign h]; cases neg <;> simp <;> omega

theorem roundBits_lt (n d : Nat) : roundBits n d < 2 ^ 63 :=
  lt_of_le_of_lt (roundBits_le n d) infBits_lt

@[simp] theorem magBits_pack (neg : Bool) (n d : Nat) : magBits (pack neg n d) = roundBits n d :=
  magBits_withSign (roundBits_lt n d)

@[simp] theorem signBit_pack (neg : Bool) (n d : Nat) : signBit (pack neg n d) = neg :=
  signBit_withSign (roundBits_lt n d)

@[simp] theorem isNaN_pack (neg : Bool) (n d : Nat) : isNaN (pack neg n d) = false := by
  simp [isNaN, roundBits_le]

@[simp] theorem magBits_fneg (x : F64) : magBits (fneg x) = magBits x := by
  have h : (fneg x).toNat = x.toNat ^^^ 2 ^ 63 := by simp [fneg]
  rw [magBits, magBits, h, Nat.xor_mod_two_pow]
  simp

@[simp] theorem signBit_fneg (x : F64) : signBit (fneg x) = !signBit x := by
  have h : (0x8000000000000000#64).msb = true := by decide
  simp only [signBit, fneg, BitVec.msb_xor, h, Bool.xor_true]

@[simp] theorem magBits_fabs (x : F64) : magBits (fabs x) = magBits x := by
  have h : (fabs x).toNat = x.toNat % 2 ^ 63 := by
    have : (0x7FFFFFFFFFFFFFFF : Nat) = 2 ^ 63 - 1 := by decide
    simp only [fabs, BitVec.toNat_and]
    rw [show (0x7FFFFFFFFFFFFFFF#64).toNat = 2 ^ 63 - 1 by decide, Nat.and_two_pow_sub_one_eq_mod]
  rw [magBits, magBits, h]; omega

@[simp] theorem signBit_fabs (x : F64) : signBit (fabs x) = false := by
  have h : (0x7FFFFFFFFFFFFFFF#64).msb = false := by decide
  simp only [signBit, fabs, BitVec.msb_and, h, Bool.and_false]

@[simp] theorem isFinite_fneg (x : F64) : isFinite (fneg x) = isFinite x := by simp [isFinite]
@[simp] theorem isNaN_fneg (x : F64) : isNaN (fneg x) = isNaN x := by simp [isNaN]
@[simp] theorem isFinite_fabs (x : F64) : isFinite (fabs x) = isFinite x := by simp [isFinite]
@[simp] theorem isNaN_fabs (x : F64) : isNaN (fabs x) = isNaN x := by simp [isNaN]

theorem isNaN_of_isFinite {x : F64} (h : isFinite x = true) : isNaN x = false := by
  simp only [isFinite, isNaN, decide_eq_true_eq, decide_eq_false_iff_not] at *; omega

theorem isInf_of_isFinite {x : F64} (h : isFinite x = true) : isInf x = false := by
  simp only [isFinite, isInf, decide_eq_true_eq, decide_eq_false_iff_not] at *; omega

/-- A number that is no NaN is finite or an infinity. -/
theorem isFinite_or_isInf {x : F64} (h : isNaN x = false) : isFinite x = true ∨ isInf x = true := by
  simp only [isFinite, isNaN, isInf, decide_eq_true_eq, decide_eq_false_iff_not] at *; omega

/-! ### Order places and values -/

@[simp] theorem orderKey_fneg (x : F64) : orderKey (fneg x) = -orderKey x := by
  simp only [orderKey, signBit_fneg, magBits_fneg]; cases signBit x <;> simp

theorem natAbs_orderKey (x : F64) : (orderKey x).natAbs = magBits x := by
  simp only [orderKey]; split <;> simp

@[simp] theorem orderKey_fabs (x : F64) : orderKey (fabs x) = ((orderKey x).natAbs : Int) := by
  rw [natAbs_orderKey]; simp [orderKey]

@[simp] theorem units_fneg (x : F64) : units (fneg x) = -units x := by
  simp only [units, signBit_fneg, magUnits_eq, magBits_fneg]; cases signBit x <;> simp

theorem isFinite_iff (x : F64) :
    isFinite x = true ↔ -(infBits : Int) < orderKey x ∧ orderKey x < infBits := by
  simp only [isFinite, decide_eq_true_eq, orderKey]; split <;> omega

theorem isNaN_iff (x : F64) :
    isNaN x = false ↔ -(infBits : Int) ≤ orderKey x ∧ orderKey x ≤ infBits := by
  simp only [isNaN, decide_eq_false_iff_not, orderKey]; split <;> omega

theorem fle_iff {a b : F64} :
    fle a b = true ↔ isNaN a = false ∧ isNaN b = false ∧ orderKey a ≤ orderKey b := by
  simp [fle, and_assoc]

theorem flt_iff {a b : F64} :
    flt a b = true ↔ isNaN a = false ∧ isNaN b = false ∧ orderKey a < orderKey b := by
  simp [flt, and_assoc]

theorem feq_iff {a b : F64} :
    feq a b = true ↔ isNaN a = false ∧ isNaN b = false ∧ orderKey a = orderKey b := by
  simp [feq, and_assoc]

/-- The rounding of `z / d` units, as an order place. -/
def rnd (z : Int) (d : Nat) : Int :=
  if z < 0 then -(roundBits z.natAbs d : Int) else (roundBits z.natAbs d : Int)

theorem roundBits_zero (d : Nat) : roundBits 0 d = 0 := by
  have : Nat.log2 0 = 0 := by decide
  simp [roundBits, roundEven, this]

@[simp] theorem rnd_zero (d : Nat) : rnd 0 d = 0 := by simp [rnd, roundBits_zero]

theorem rnd_neg (z : Int) (d : Nat) : rnd (-z) d = -rnd z d := by
  rcases lt_trichotomy z 0 with h | rfl | h
  · simp only [rnd, Int.natAbs_neg, show ¬ (-z < 0) by omega, h, if_true, if_false, neg_neg]
  · simp
  · simp only [rnd, Int.natAbs_neg, show -z < 0 by omega, show ¬ z < 0 by omega, if_true, if_false]

theorem orderKey_pack (neg : Bool) (n d : Nat) :
    orderKey (pack neg n d) = rnd (if neg then -(n : Int) else n) d := by
  simp only [orderKey, signBit_pack, magBits_pack]
  cases neg
  · simp [rnd]
  · rw [if_pos rfl, if_pos rfl, rnd_neg]
    simp [rnd]

theorem rnd_le_rnd_nonneg {z₁ z₂ : Int} {d₁ d₂ : Nat} (h₁ : 0 < d₁) (h₂ : 0 < d₂) (hz : 0 ≤ z₁)
    (h : z₁ * d₂ ≤ z₂ * d₁) : rnd z₁ d₁ ≤ rnd z₂ d₂ := by
  have hz2 : 0 ≤ z₂ := by
    by_contra hn
    have : z₂ * d₁ < 0 := mul_neg_of_neg_of_pos (by omega) (by exact_mod_cast h₁)
    have : 0 ≤ z₁ * d₂ := by positivity
    omega
  lift z₁ to Nat using hz
  lift z₂ to Nat using hz2
  simp only [rnd, show ¬ ((z₁ : Int) < 0) by omega, show ¬ ((z₂ : Int) < 0) by omega, if_false,
    Int.natAbs_natCast]
  exact_mod_cast roundBits_mono h₁ h₂ (by exact_mod_cast h)

/-- Rounding is monotone. -/
theorem rnd_mono {z₁ z₂ : Int} {d₁ d₂ : Nat} (h₁ : 0 < d₁) (h₂ : 0 < d₂)
    (h : z₁ * d₂ ≤ z₂ * d₁) : rnd z₁ d₁ ≤ rnd z₂ d₂ := by
  rcases le_or_gt 0 z₁ with hz | hz
  · exact rnd_le_rnd_nonneg h₁ h₂ hz h
  · rcases le_or_gt 0 z₂ with hz2 | hz2
    · have a : rnd z₁ d₁ ≤ 0 := by simp [rnd, hz]
      have b : 0 ≤ rnd z₂ d₂ := by simp [rnd, show ¬ z₂ < 0 by omega]
      omega
    · have := rnd_le_rnd_nonneg h₂ h₁ (z₁ := -z₂) (z₂ := -z₁) (by omega) (by linarith)
      rw [rnd_neg, rnd_neg] at this
      omega

/-- Rounding is exact on numbers. -/
theorem rnd_units {x : F64} (hx : isFinite x = true) {d : Nat} (hd : 0 < d) :
    rnd (units x * d) d = orderKey x := by
  have hb : magBits x < infBits := by simpa [isFinite] using hx
  have h := roundBits_bitsUnits hb hd
  have hn : rnd ((magUnits x : Int) * d) d = (magBits x : Int) := by
    have : ¬ ((magUnits x : Int) * d < 0) := not_lt.2 (by positivity)
    simp only [rnd, this, if_false]
    rw [show ((magUnits x : Int) * d).natAbs = magUnits x * d by
      rw [Int.natAbs_mul, Int.natAbs_natCast, Int.natAbs_natCast]]
    rw [magUnits_eq, h]
  simp only [units, orderKey]
  split
  · rw [neg_mul, rnd_neg, hn]
  · exact hn

theorem rnd_units_one {x : F64} (hx : isFinite x = true) : rnd (units x) 1 = orderKey x := by
  simpa using rnd_units hx (d := 1) (by decide)

/-- Order places and values of finite numbers stand in the same order. -/
theorem units_le_iff {a b : F64} (ha : isFinite a = true) (hb : isFinite b = true) :
    units a ≤ units b ↔ orderKey a ≤ orderKey b := by
  have ha' : magBits a < infBits := by simpa [isFinite] using ha
  have hb' : magBits b < infBits := by simpa [isFinite] using hb
  have h1 := bitsUnits_le_iff ha' hb'
  have h2 := bitsUnits_le_iff hb' ha'
  have z : bitsUnits 0 = 0 := bitsUnits_zero
  have h3 := bitsUnits_lt_iff (a := 0) (b := magBits a) (by decide) ha'
  have h4 := bitsUnits_lt_iff (a := 0) (b := magBits b) (by decide) hb'
  rw [z] at h3 h4
  simp only [units, orderKey, magUnits_eq]
  cases signBit a <;> cases signBit b <;> simp <;> omega

theorem units_lt_iff {a b : F64} (ha : isFinite a = true) (hb : isFinite b = true) :
    units a < units b ↔ orderKey a < orderKey b := by
  have := units_le_iff hb ha
  omega

/-! ### The operations -/

theorem orderKey_packSum (z : Int) (b : Bool) : orderKey (packSum z b) = rnd z 1 := by
  unfold packSum
  split
  · next h => subst h; cases b <;> simp <;> decide
  · rw [orderKey_pack]
    congr 1
    by_cases hz : z < 0
    · simp only [hz, decide_true, if_true]; omega
    · simp only [hz, decide_false]; simp; omega

theorem isNaN_packSum (z : Int) (b : Bool) : isNaN (packSum z b) = false := by
  unfold packSum
  split
  · cases b <;> decide
  · exact isNaN_pack _ _ _

theorem fadd_finite {a b : F64} (ha : isFinite a = true) (hb : isFinite b = true) :
    fadd a b = packSum (units a + units b) (signBit a && signBit b) := by
  simp [fadd, isNaN_of_isFinite ha, isNaN_of_isFinite hb, isInf_of_isFinite ha,
    isInf_of_isFinite hb]

theorem orderKey_fadd {a b : F64} (ha : isFinite a = true) (hb : isFinite b = true) :
    orderKey (fadd a b) = rnd (units a + units b) 1 := by
  rw [fadd_finite ha hb, orderKey_packSum]

theorem isNaN_fadd {a b : F64} (ha : isFinite a = true) (hb : isFinite b = true) :
    isNaN (fadd a b) = false := by
  rw [fadd_finite ha hb, isNaN_packSum]

theorem orderKey_fsub {a b : F64} (ha : isFinite a = true) (hb : isFinite b = true) :
    orderKey (fsub a b) = rnd (units a - units b) 1 := by
  rw [fsub, orderKey_fadd ha (by simpa using hb), units_fneg, sub_eq_add_neg]

theorem isNaN_fsub {a b : F64} (ha : isFinite a = true) (hb : isFinite b = true) :
    isNaN (fsub a b) = false := isNaN_fadd ha (by simpa using hb)

theorem fmul_finite {a b : F64} (ha : isFinite a = true) (hb : isFinite b = true) :
    fmul a b = pack (signBit a != signBit b) (magUnits a * magUnits b) oneUnits := by
  simp [fmul, isNaN_of_isFinite ha, isNaN_of_isFinite hb, isInf_of_isFinite ha,
    isInf_of_isFinite hb]

theorem orderKey_fmul {a b : F64} (ha : isFinite a = true) (hb : isFinite b = true) :
    orderKey (fmul a b) = rnd (units a * units b) oneUnits := by
  rw [fmul_finite ha hb, orderKey_pack]
  congr 1
  simp only [units]
  cases signBit a <;> cases signBit b <;> simp

theorem isNaN_fmul {a b : F64} (ha : isFinite a = true) (hb : isFinite b = true) :
    isNaN (fmul a b) = false := by
  rw [fmul_finite ha hb, isNaN_pack]

theorem fdiv_finite {a b : F64} (ha : isFinite a = true) (hb : isFinite b = true)
    (h0 : isZero b = false) :
    fdiv a b = pack (signBit a != signBit b) (magUnits a * oneUnits) (magUnits b) := by
  simp [fdiv, isNaN_of_isFinite ha, isNaN_of_isFinite hb, isInf_of_isFinite ha,
    isInf_of_isFinite hb, h0]

theorem isNaN_fdiv {a b : F64} (ha : isFinite a = true) (hb : isFinite b = true)
    (h0 : isZero b = false) : isNaN (fdiv a b) = false := by
  rw [fdiv_finite ha hb h0, isNaN_pack]

/-- Division by a positive finite number. -/
theorem orderKey_fdiv {a b : F64} (ha : isFinite a = true) (hb : isFinite b = true)
    (hp : 0 < orderKey b) :
    orderKey (fdiv a b) = rnd (units a * oneUnits) (magUnits b) := by
  have hs : signBit b = false := by
    cases h : signBit b
    · rfl
    · simp [orderKey, h] at hp; omega
  have h0 : isZero b = false := by
    simp only [isZero, decide_eq_false_iff_not]
    intro h; simp [orderKey, hs, h] at hp
  rw [fdiv_finite ha hb h0, orderKey_pack, hs]
  congr 1
  simp only [units]
  generalize oneUnits = o
  cases signBit a <;> simp

theorem magUnits_pos {b : F64} (hb : isFinite b = true) (hp : 0 < orderKey b) : 0 < magUnits b := by
  have h1 : magBits b < infBits := by simpa [isFinite] using hb
  have h2 := bitsUnits_lt_iff (a := 0) (b := magBits b) (by decide) h1
  have h3 := natAbs_orderKey b
  rw [bitsUnits_zero] at h2
  rw [magUnits_eq]
  omega

/-! ### The four operations are monotone (as order places), with the bounds as numbers -/

/-- A sum whose exact value lies at or below a finite number rounds at or below it. -/
theorem rnd_le_of_le {z : Int} {d : Nat} {c : F64} (hd : 0 < d) (hc : isFinite c = true)
    (h : z ≤ units c * d) : rnd z d ≤ orderKey c := by
  rw [← rnd_units hc hd]; exact rnd_mono hd hd (mul_le_mul_of_nonneg_right h (by positivity))

theorem le_rnd_of_le {z : Int} {d : Nat} {c : F64} (hd : 0 < d) (hc : isFinite c = true)
    (h : units c * d ≤ z) : orderKey c ≤ rnd z d := by
  rw [← rnd_units hc hd]; exact rnd_mono hd hd (mul_le_mul_of_nonneg_right h (by positivity))

theorem rnd_nonneg {z : Int} {d : Nat} (h : 0 ≤ z) : 0 ≤ rnd z d := by
  simp [rnd, show ¬ z < 0 by omega]

theorem rnd_nonpos {z : Int} {d : Nat} (h : z ≤ 0) : rnd z d ≤ 0 := by
  rcases eq_or_lt_of_le h with rfl | h
  · simp
  · simp [rnd, h]

theorem oneUnits_pos : 0 < oneUnits := by
  unfold oneUnits; positivity

/-! ### Clamps (R11) -/

/-- `clamp` once and for all: below, above, or within its bounds. -/
theorem clamp_cases (x lo hi : F64) :
    (flt x lo = true ∧ clamp x lo hi = lo) ∨
    (flt x lo = false ∧ flt hi x = true ∧ clamp x lo hi = hi) ∨
    (flt x lo = false ∧ flt hi x = false ∧ clamp x lo hi = x) := by
  unfold clamp
  cases flt x lo <;> cases flt hi x <;> simp

/-- A clamp of a number that is no NaN lies within its bounds. -/
theorem clamp_range {x lo hi : F64} (hx : isNaN x = false) (h : fle lo hi = true) :
    fle lo (clamp x lo hi) = true ∧ fle (clamp x lo hi) hi = true := by
  obtain ⟨hl, hh, hle⟩ := fle_iff.1 h
  rcases clamp_cases x lo hi with ⟨_, e⟩ | ⟨_, _, e⟩ | ⟨h1, h2, e⟩ <;> rw [e]
  · exact ⟨fle_iff.2 ⟨hl, hl, le_rfl⟩, h⟩
  · exact ⟨h, fle_iff.2 ⟨hh, hh, le_rfl⟩⟩
  · refine ⟨fle_iff.2 ⟨hl, hx, ?_⟩, fle_iff.2 ⟨hx, hh, ?_⟩⟩
    · by_contra hn
      exact absurd (flt_iff.2 ⟨hx, hl, by omega⟩) (by simp [h1])
    · by_contra hn
      exact absurd (flt_iff.2 ⟨hh, hx, by omega⟩) (by simp [h2])

theorem isFinite_of_range {x lo hi : F64} (hlo : isFinite lo = true) (hhi : isFinite hi = true)
    (h : fle lo x = true ∧ fle x hi = true) : isFinite x = true := by
  have a := (fle_iff.1 h.1).2.2
  have b := (fle_iff.1 h.2).2.2
  have c := (isFinite_iff lo).1 hlo
  have d := (isFinite_iff hi).1 hhi
  exact (isFinite_iff x).2 ⟨by omega, by omega⟩

end Sys2Proof.Machine
end

