-- ==== Sys2Proof/Laws/State.lean ====
section
/-! SUPPORT. What each named update of the state leaves in each field, and the fields of the state after
reset: true by definition, so that no later proof unfolds a record update. -/

namespace Sys2Proof.Machine

@[simp] theorem setVoice_cfg (s : State) (vi : Nat) (v : Voice) :
    (setVoice s vi v).cfg = s.cfg := rfl
@[simp] theorem setVoice_voices (s : State) (vi : Nat) (v : Voice) :
    (setVoice s vi v).voices = s.voices.set vi v := rfl
@[simp] theorem setVoice_mixer (s : State) (vi : Nat) (v : Voice) :
    (setVoice s vi v).mixer = s.mixer := rfl
@[simp] theorem setVoice_noise (s : State) (vi : Nat) (v : Voice) :
    (setVoice s vi v).noise = s.noise := rfl
@[simp] theorem setVoice_mods (s : State) (vi : Nat) (v : Voice) :
    (setVoice s vi v).mods = s.mods := rfl
@[simp] theorem setVoice_pipe (s : State) (vi : Nat) (v : Voice) :
    (setVoice s vi v).pipe = s.pipe := rfl
@[simp] theorem setVoice_ring (s : State) (vi : Nat) (v : Voice) :
    (setVoice s vi v).ring = s.ring := rfl
@[simp] theorem setVoice_ports (s : State) (vi : Nat) (v : Voice) :
    (setVoice s vi v).ports = s.ports := rfl

@[simp] theorem setMixer_cfg (s : State) (m : Mixer) :
    (setMixer s m).cfg = s.cfg := rfl
@[simp] theorem setMixer_voices (s : State) (m : Mixer) :
    (setMixer s m).voices = s.voices := rfl
@[simp] theorem setMixer_mixer (s : State) (m : Mixer) :
    (setMixer s m).mixer = m := rfl
@[simp] theorem setMixer_noise (s : State) (m : Mixer) :
    (setMixer s m).noise = s.noise := rfl
@[simp] theorem setMixer_mods (s : State) (m : Mixer) :
    (setMixer s m).mods = s.mods := rfl
@[simp] theorem setMixer_pipe (s : State) (m : Mixer) :
    (setMixer s m).pipe = s.pipe := rfl
@[simp] theorem setMixer_ring (s : State) (m : Mixer) :
    (setMixer s m).ring = s.ring := rfl
@[simp] theorem setMixer_ports (s : State) (m : Mixer) :
    (setMixer s m).ports = s.ports := rfl

@[simp] theorem setMods_cfg (s : State) (m : Modifiers) :
    (setMods s m).cfg = s.cfg := rfl
@[simp] theorem setMods_voices (s : State) (m : Modifiers) :
    (setMods s m).voices = s.voices := rfl
@[simp] theorem setMods_mixer (s : State) (m : Modifiers) :
    (setMods s m).mixer = s.mixer := rfl
@[simp] theorem setMods_noise (s : State) (m : Modifiers) :
    (setMods s m).noise = s.noise := rfl
@[simp] theorem setMods_mods (s : State) (m : Modifiers) :
    (setMods s m).mods = m := rfl
@[simp] theorem setMods_pipe (s : State) (m : Modifiers) :
    (setMods s m).pipe = s.pipe := rfl
@[simp] theorem setMods_ring (s : State) (m : Modifiers) :
    (setMods s m).ring = s.ring := rfl
@[simp] theorem setMods_ports (s : State) (m : Modifiers) :
    (setMods s m).ports = s.ports := rfl

@[simp] theorem respond_cfg (s : State) (ds : List Word64) :
    (respond s ds).cfg = s.cfg := rfl
@[simp] theorem respond_voices (s : State) (ds : List Word64) :
    (respond s ds).voices = s.voices := rfl
@[simp] theorem respond_mixer (s : State) (ds : List Word64) :
    (respond s ds).mixer = s.mixer := rfl
@[simp] theorem respond_noise (s : State) (ds : List Word64) :
    (respond s ds).noise = s.noise := rfl
@[simp] theorem respond_mods (s : State) (ds : List Word64) :
    (respond s ds).mods = s.mods := rfl
@[simp] theorem respond_pipe (s : State) (ds : List Word64) :
    (respond s ds).pipe = s.pipe := rfl
@[simp] theorem respond_ring (s : State) (ds : List Word64) :
    (respond s ds).ring = s.ring := rfl
@[simp] theorem respond_ports (s : State) (ds : List Word64) :
    (respond s ds).ports = { s.ports with responses := s.ports.responses ++ rspWords ds } := rfl

@[simp] theorem withInput_cfg (s : State) (es : List PortEvent) :
    (withInput s es).cfg = s.cfg := rfl
@[simp] theorem withInput_voices (s : State) (es : List PortEvent) :
    (withInput s es).voices = s.voices := rfl
@[simp] theorem withInput_mixer (s : State) (es : List PortEvent) :
    (withInput s es).mixer = s.mixer := rfl
@[simp] theorem withInput_noise (s : State) (es : List PortEvent) :
    (withInput s es).noise = s.noise := rfl
@[simp] theorem withInput_mods (s : State) (es : List PortEvent) :
    (withInput s es).mods = s.mods := rfl
@[simp] theorem withInput_pipe (s : State) (es : List PortEvent) :
    (withInput s es).pipe = s.pipe := rfl
@[simp] theorem withInput_ring (s : State) (es : List PortEvent) :
    (withInput s es).ring = s.ring := rfl
@[simp] theorem withInput_ports (s : State) (es : List PortEvent) :
    (withInput s es).ports = { s.ports with input := es } := rfl

@[simp] theorem resetWith_cfg (c : Params) (p : Ports) :
    (State.resetWith c p).cfg = c := rfl
@[simp] theorem resetWith_voices (c : Params) (p : Ports) :
    (State.resetWith c p).voices = List.replicate c.nv Voice.atReset := rfl
@[simp] theorem resetWith_mixer (c : Params) (p : Ports) :
    (State.resetWith c p).mixer = Mixer.atReset c.nv := rfl
@[simp] theorem resetWith_noise (c : Params) (p : Ports) :
    (State.resetWith c p).noise = Noise.atReset c.seed0 := rfl
@[simp] theorem resetWith_mods (c : Params) (p : Ports) :
    (State.resetWith c p).mods = Modifiers.atReset := rfl
@[simp] theorem resetWith_pipe (c : Params) (p : Ports) :
    (State.resetWith c p).pipe = { rateSet := false, sampleRate := none } := rfl
@[simp] theorem resetWith_ring (c : Params) (p : Ports) :
    (State.resetWith c p).ring = { mem := [], cursor := 0, filled := false } := rfl
@[simp] theorem resetWith_ports (c : Params) (p : Ports) :
    (State.resetWith c p).ports = p := rfl

/-- Two states that agree in every part are equal. -/
theorem state_ext {s t : State} (h₁ : s.cfg = t.cfg) (h₂ : s.voices = t.voices)
    (h₃ : s.mixer = t.mixer) (h₄ : s.noise = t.noise) (h₅ : s.mods = t.mods) (h₆ : s.pipe = t.pipe)
    (h₇ : s.ring = t.ring) (h₈ : s.ports = t.ports) : s = t := by
  cases s; cases t; simp_all

end Sys2Proof.Machine
end

