-- ==== Sys2Proof/Laws/Ops.lean ====
section
/-! SUPPORT. What the shared operations can do, each said once: the ring memory and its canonical form,
the operand conditions, the per-voice commands, the ring push, the tick. -/

namespace Sys2Proof.Machine

/-! ### The ring memory -/

@[simp] theorem memRead_memWrite_same (m : Memory) (k : Nat) (v : F64) :
    memRead (memWrite m k v) k = some v := by
  induction m with
  | nil => simp [memWrite, memRead]
  | cons p rest ih =>
    obtain ⟨j, u⟩ := p
    simp only [memWrite]
    split_ifs with h1 h2
    · simp [memRead]
    · simp [memRead]
    · simp [memRead, Ne.symm h2, ih]

theorem memRead_memWrite_other (m : Memory) {k a : Nat} (v : F64) (h : a ≠ k) :
    memRead (memWrite m k v) a = memRead m a := by
  induction m with
  | nil => simp [memWrite, memRead, Ne.symm h]
  | cons p rest ih =>
    obtain ⟨j, u⟩ := p
    simp only [memWrite]
    split_ifs with h1 h2
    · simp [memRead, Ne.symm h]
    · subst h2; simp [memRead, Ne.symm h]
    · simp only [memRead, ih]

/-- Every slot of a canonical memory's tail lies above its head's. -/
theorem wf_head_lt {j : Nat} {v : F64} {rest : Memory} (h : Memory.wf ((j, v) :: rest) = true) :
    ∀ p ∈ rest, j < p.1 := by
  induction rest generalizing j v with
  | nil => simp
  | cons q rest ih =>
    obtain ⟨k, u⟩ := q
    simp only [Memory.wf, Bool.and_eq_true, decide_eq_true_eq] at h
    intro p hp
    rcases List.mem_cons.1 hp with rfl | hp
    · exact h.1
    · exact lt_trans h.1 (ih h.2 p hp)

theorem wf_tail {q : Nat × F64} {rest : Memory} (h : Memory.wf (q :: rest) = true) :
    Memory.wf rest = true := by
  obtain ⟨j, v⟩ := q
  cases rest with
  | nil => rfl
  | cons p rest =>
    obtain ⟨k, u⟩ := p
    simp only [Memory.wf, Bool.and_eq_true, decide_eq_true_eq] at h
    exact h.2

theorem wf_cons {j : Nat} {v : F64} {rest : Memory} (h : Memory.wf rest = true)
    (hl : ∀ p ∈ rest, j < p.1) : Memory.wf ((j, v) :: rest) = true := by
  cases rest with
  | nil => rfl
  | cons p rest =>
    obtain ⟨k, u⟩ := p
    simp only [Memory.wf, Bool.and_eq_true, decide_eq_true_eq]
    exact ⟨hl (k, u) (by simp), h⟩

/-- The slots a write lists: the written one and those listed before. -/
theorem mem_memWrite {m : Memory} {k : Nat} {v : F64} {p : Nat × F64} (h : p ∈ memWrite m k v) :
    p.1 = k ∨ p ∈ m := by
  induction m with
  | nil => simp [memWrite] at h; simp [h]
  | cons q rest ih =>
    obtain ⟨j, u⟩ := q
    simp only [memWrite] at h
    split_ifs at h with h1 h2
    · rcases List.mem_cons.1 h with rfl | h
      · simp
      · exact .inr h
    · rcases List.mem_cons.1 h with rfl | h
      · simp
      · exact .inr (List.mem_cons_of_mem _ h)
    · rcases List.mem_cons.1 h with rfl | h
      · simp
      · rcases ih h with e | e
        · exact .inl e
        · exact .inr (List.mem_cons_of_mem _ e)

/-- A write keeps the canonical form. -/
theorem memWrite_wf {m : Memory} (k : Nat) (v : F64) (h : Memory.wf m = true) :
    Memory.wf (memWrite m k v) = true := by
  induction m with
  | nil => rfl
  | cons q rest ih =>
    obtain ⟨j, u⟩ := q
    simp only [memWrite]
    split_ifs with h1 h2
    · exact wf_cons h fun p hp => by
        rcases List.mem_cons.1 hp with rfl | hp
        · exact h1
        · exact lt_trans h1 (wf_head_lt h p hp)
    · subst h2
      exact wf_cons (wf_tail h) (wf_head_lt h)
    · refine wf_cons (ih (wf_tail h)) fun p hp => ?_
      rcases mem_memWrite hp with e | e
      · omega
      · exact wf_head_lt h p e

/-- The machine's memory is canonical after reset. -/
theorem reset_mem_wf : Memory.wf State.reset.ring.mem = true := rfl

/-- What `RingWrite` can do. -/
theorem ringWrite_cases (ringN : Nat) (m : Memory) (k : Nat) (v : F64) :
    (ringN ≤ k ∧ ringWrite ringN m k v = .error .ringSlotOutOfRange) ∨
    (k < ringN ∧ ringWrite ringN m k v = .ok (memWrite m k v)) := by
  by_cases h : ringN ≤ k
  · exact .inl ⟨h, by simp [ringWrite, h]⟩
  · exact .inr ⟨by omega, by simp [ringWrite, h]⟩

/-- What `RingRead` answers when it answers a word. -/
theorem ringRead_ok {ringN : Nat} {m : Memory} {k : Nat} {v : F64} :
    ringRead ringN m k = .ok v ↔ k < ringN ∧ memRead m k = some v := by
  unfold ringRead
  split_ifs with h
  · simp; omega
  · cases hm : memRead m k <;> simp; omega

/-- Reading several slots answers a word for each, in order, or faults. -/
theorem ringReadAll_ok {ringN : Nat} {m : Memory} {ks : List Nat} {vs : List F64} :
    ringReadAll ringN m ks = .ok vs ↔
      List.Forall₂ (fun k v => k < ringN ∧ memRead m k = some v) ks vs := by
  induction ks generalizing vs with
  | nil => cases vs <;> simp [ringReadAll]
  | cons k ks ih =>
    simp only [ringReadAll]
    cases hr : ringRead ringN m k with
    | error f =>
      simp only [reduceCtorEq, false_iff]
      intro h
      cases h with
      | cons h _ => rw [ringRead_ok.2 h] at hr; cases hr
    | ok v =>
      cases ha : ringReadAll ringN m ks with
      | error f =>
        simp only [reduceCtorEq, false_iff]
        intro h
        cases h with
        | cons _ h => rw [ih.2 h] at ha; cases ha
      | ok us =>
        have hv := ringRead_ok.1 hr
        have hu := ih.1 ha
        constructor
        · intro h; cases h; exact .cons hv hu
        · intro h
          cases h with
          | cons h h' =>
            rw [ringRead_ok.2 h] at hr
            rw [ih.2 h'] at ha
            cases hr; cases ha; rfl

/-- What a push answers: the word at the cursor, the cursor moved on, `filled` set at the wrap. -/
theorem ringPush_cases (ringN : Nat) (r : Ring) (v : F64) :
    (ringN ≤ r.cursor ∧ ringPush ringN r v = .error .ringSlotOutOfRange) ∨
    (r.cursor + 1 = ringN ∧
      ringPush ringN r v = .ok { mem := memWrite r.mem r.cursor v, cursor := 0, filled := true }) ∨
    (r.cursor + 1 < ringN ∧
      ringPush ringN r v =
        .ok { mem := memWrite r.mem r.cursor v, cursor := r.cursor + 1, filled := r.filled }) := by
  unfold ringPush
  rcases ringWrite_cases ringN r.mem r.cursor v with ⟨h, e⟩ | ⟨h, e⟩ <;> rw [e]
  · exact .inl ⟨h, rfl⟩
  · by_cases hc : r.cursor + 1 = ringN
    · exact .inr (.inl ⟨hc, by simp [hc]⟩)
    · exact .inr (.inr ⟨by omega, by simp [hc]⟩)

/-- A push keeps the memory's canonical form. -/
theorem ringPush_wf {ringN : Nat} {r r' : Ring} {v : F64} (h : Memory.wf r.mem = true)
    (hp : ringPush ringN r v = .ok r') : Memory.wf r'.mem = true := by
  rcases ringPush_cases ringN r v with ⟨_, e⟩ | ⟨_, e⟩ | ⟨_, e⟩ <;> rw [e] at hp <;> cases hp
  · exact memWrite_wf _ _ h
  · exact memWrite_wf _ _ h

/-! ### Operand conditions -/

theorem withNum_next {x : F64} {e : Result} {t : State} :
    withNum x e = .next t ↔ isNaN x = false ∧ e = .next t := by
  unfold withNum; cases isNaN x <;> simp

theorem withNum3_next {a b c : F64} {e : Result} {t : State} :
    withNum3 a b c e = .next t ↔
      isNaN a = false ∧ isNaN b = false ∧ isNaN c = false ∧ e = .next t := by
  unfold withNum3; cases isNaN a <;> cases isNaN b <;> cases isNaN c <;> simp

theorem withPitch_next {x : F64} {e : Result} {t : State} :
    withPitch x e = .next t ↔ isNaN x = false ∧ isFinite x = true ∧ e = .next t := by
  unfold withPitch; rw [withNum_next]; cases isFinite x <;> simp

theorem withRate_next {x : F64} {e : Result} {t : State} :
    withRate x e = .next t ↔ isNaN x = false ∧ legalRate x = true ∧ e = .next t := by
  unfold withRate; rw [withNum_next]; cases legalRate x <;> simp

theorem perVoice_next {vi : Nat} {s t : State} {e : Result} :
    perVoice vi s e = .next t ↔ (s.cfg.nv ≤ vi ∧ t = s) ∨ (vi < s.cfg.nv ∧ e = .next t) := by
  unfold perVoice
  split_ifs with h
  · constructor
    · intro h'; cases h'; exact .inl ⟨h, rfl⟩
    · rintro (⟨_, rfl⟩ | ⟨h', _⟩)
      · rfl
      · omega
  · constructor
    · exact fun h' => .inr ⟨by omega, h'⟩
    · rintro (⟨h', _⟩ | ⟨_, h'⟩)
      · exact absurd h' h
      · exact h'

/-! ### The pitch commands and the tick -/

/-- What a pitch command does when it answers a next state. -/
theorem setPitch_next {nm : Numerics} {vi : Nat} {x : F64} {v : Voice} {s t : State} :
    setPitch nm vi x v s = .next t ↔
      (s.cfg.nv ≤ vi ∧ t = s) ∨
      (vi < s.cfg.nv ∧ isNaN x = false ∧ isFinite x = true ∧
        isFinite (retuned nm v).frequency = true ∧ t = setVoice s vi (retuned nm v)) := by
  unfold setPitch
  rw [perVoice_next]
  refine or_congr Iff.rfl (and_congr_right fun _ => ?_)
  rw [withPitch_next]
  refine and_congr_right fun _ => and_congr_right fun _ => ?_
  cases isFinite (retuned nm v).frequency <;> simp [eq_comm]

/-- The state a tick answers, its parts named. -/
def tickState (nm : Numerics) (sr : F64) (s : State) (ring : Ring) : State :=
  let y := modOutput (tickMods nm sr s)
  respond
    { s with
      voices := tickVoices sr s, noise := noiseNext s.noise, mods := tickMods nm sr s, ring := ring }
    [y, outputClamp s.cfg.outLim y]

/-- What a tick does when it answers a next state. -/
theorem tickWith_next {nm : Numerics} {s t : State} :
    tickWith nm s = .next t ↔
      ∃ sr ring, s.pipe.rateSet = true ∧ s.pipe.sampleRate = some sr ∧ incsFinite sr s = true ∧
        ringPush s.cfg.ringN s.ring
          (outputClamp s.cfg.outLim (modOutput (tickMods nm sr s))) = .ok ring ∧
        t = tickState nm sr s ring := by
  unfold tickWith
  cases hr : s.pipe.rateSet <;> cases hs : s.pipe.sampleRate <;> simp
  rename_i sr
  cases hi : incsFinite sr s
  · simp
  · simp only [if_true, tickAt]
    cases hp : ringPush s.cfg.ringN s.ring
      (outputClamp s.cfg.outLim (modOutput (tickMods nm sr s))) with
    | error f => simp
    | ok ring => simp [tickState, eq_comm]

/-- What `SNAP` does when it answers a next state. -/
theorem execSnap_next {s t : State} :
    execSnap s = .next t ↔
      ∃ out, ringReadAll s.cfg.ringN s.ring.mem (snapSlots s.cfg.ringN s.ring) = .ok out ∧
        t = respond s (lengthWord out.length :: out) := by
  unfold execSnap
  cases ringReadAll s.cfg.ringN s.ring.mem (snapSlots s.cfg.ringN s.ring) <;> simp [eq_comm]

/-! ### Steps -/

theorem step_idle {s : State} (h : s.ports.input = []) : step s = .next s := by
  simp [step, h]

theorem step_event {s : State} {e : PortEvent} {rest : List PortEvent}
    (h : s.ports.input = e :: rest) : step s = runEvent e (withInput s rest) := by
  simp [step, h]

/-- What a step can do when it answers a next state: nothing presented, an instruction, a reset. -/
theorem step_cases {s t : State} (h : step s = .next t) :
    (s.ports.input = [] ∧ t = s) ∨
    (∃ w rest, s.ports.input = .accept w :: rest ∧
      exec (decodeOrNop w) (withInput s rest) = .next t) ∨
    (∃ rest p, (s.ports.input = .rst :: rest ∨ ∃ w k, s.ports.input = .abandoned w k :: rest) ∧
      p.input = rest ∧ t = State.resetWith s.cfg p) := by
  cases hi : s.ports.input with
  | nil => rw [step_idle hi] at h; cases h; exact .inl ⟨rfl, rfl⟩
  | cons e rest =>
    rw [step_event hi] at h
    cases e with
    | accept w => exact .inr (.inl ⟨w, rest, rfl, h⟩)
    | rst =>
      cases h
      exact .inr (.inr ⟨rest, _, .inl rfl, rfl, rfl⟩)
    | abandoned w k =>
      cases h
      exact .inr (.inr ⟨rest, _, .inr ⟨w, k, rfl⟩, rfl, rfl⟩)

end Sys2Proof.Machine
end

