-- ==== Sys2Proof/Laws/PerInstr.lean ====
section
/-! SUPPORT. Statements for all instructions, one lemma per constructor. -/

namespace Sys2Proof.Laws

open Sys2Proof.Machine

/-- The word of an instruction carries one of the 21 opcodes of 30_encoding.md R83. -/
def HasDefinedOpcode.Statement (i : Instr) : Prop := (opField (encode i)).toNat ∈ definedOpcodes

theorem HasDefinedOpcode.nop :
    HasDefinedOpcode.Statement .nop := by
  rw [HasDefinedOpcode.Statement, encode, opField_packWord]; decide

theorem HasDefinedOpcode.tick :
    HasDefinedOpcode.Statement .tick := by
  rw [HasDefinedOpcode.Statement, encode, opField_packWord]; decide

theorem HasDefinedOpcode.snap :
    HasDefinedOpcode.Statement .snap := by
  rw [HasDefinedOpcode.Statement, encode, opField_packWord]; decide

theorem HasDefinedOpcode.setgate (on : Bool) :
    HasDefinedOpcode.Statement (.setgate on) := by
  rw [HasDefinedOpcode.Statement, encode, opField_packWord]; decide

theorem HasDefinedOpcode.setvolt (vi : Nat) (volts : F64) :
    HasDefinedOpcode.Statement (.setvolt vi volts) := by
  rw [HasDefinedOpcode.Statement, encode, opField_packWord]; decide

theorem HasDefinedOpcode.setdetune (vi : Nat) (octaves : F64) :
    HasDefinedOpcode.Statement (.setdetune vi octaves) := by
  rw [HasDefinedOpcode.Statement, encode, opField_packWord]; decide

theorem HasDefinedOpcode.setwave (vi : Nat) (w : Waveform) :
    HasDefinedOpcode.Statement (.setwave vi w) := by
  rw [HasDefinedOpcode.Statement, encode, opField_packWord]; decide

theorem HasDefinedOpcode.setmixlvl (vi : Nat) (lvl : F64) :
    HasDefinedOpcode.Statement (.setmixlvl vi lvl) := by
  rw [HasDefinedOpcode.Statement, encode, opField_packWord]; decide

theorem HasDefinedOpcode.setoscen (vi : Nat) (on : Bool) :
    HasDefinedOpcode.Statement (.setoscen vi on) := by
  rw [HasDefinedOpcode.Statement, encode, opField_packWord]; decide

theorem HasDefinedOpcode.setnoiselvl (lvl : F64) :
    HasDefinedOpcode.Statement (.setnoiselvl lvl) := by
  rw [HasDefinedOpcode.Statement, encode, opField_packWord]; decide

theorem HasDefinedOpcode.setnoiseen (on : Bool) :
    HasDefinedOpcode.Statement (.setnoiseen on) := by
  rw [HasDefinedOpcode.Statement, encode, opField_packWord]; decide

theorem HasDefinedOpcode.setnoisecol (code : Nat) :
    HasDefinedOpcode.Statement (.setnoisecol code) := by
  rw [HasDefinedOpcode.Statement, encode, opField_packWord]; decide

theorem HasDefinedOpcode.setmaster (lvl : F64) :
    HasDefinedOpcode.Statement (.setmaster lvl) := by
  rw [HasDefinedOpcode.Statement, encode, opField_packWord]; decide

theorem HasDefinedOpcode.setcutoff (hz : F64) :
    HasDefinedOpcode.Statement (.setcutoff hz) := by
  rw [HasDefinedOpcode.Statement, encode, opField_packWord]; decide

theorem HasDefinedOpcode.setemph (amount : F64) :
    HasDefinedOpcode.Statement (.setemph amount) := by
  rw [HasDefinedOpcode.Statement, encode, opField_packWord]; decide

theorem HasDefinedOpcode.setcontour (amount : F64) :
    HasDefinedOpcode.Statement (.setcontour amount) := by
  rw [HasDefinedOpcode.Statement, encode, opField_packWord]; decide

theorem HasDefinedOpcode.setfenv (attack decay sustain : F64) :
    HasDefinedOpcode.Statement (.setfenv attack decay sustain) := by
  rw [HasDefinedOpcode.Statement, encode, opField_packWord]; decide

theorem HasDefinedOpcode.setlenv (attack decay sustain : F64) :
    HasDefinedOpcode.Statement (.setlenv attack decay sustain) := by
  rw [HasDefinedOpcode.Statement, encode, opField_packWord]; decide

theorem HasDefinedOpcode.setrate (hz : F64) :
    HasDefinedOpcode.Statement (.setrate hz) := by
  rw [HasDefinedOpcode.Statement, encode, opField_packWord]; decide

theorem HasDefinedOpcode.setfrel (release : F64) :
    HasDefinedOpcode.Statement (.setfrel release) := by
  rw [HasDefinedOpcode.Statement, encode, opField_packWord]; decide

theorem HasDefinedOpcode.setlrel (release : F64) :
    HasDefinedOpcode.Statement (.setlrel release) := by
  rw [HasDefinedOpcode.Statement, encode, opField_packWord]; decide

end Sys2Proof.Laws
end

