-- ==== Sys2Proof/Machine/Assembler.lean ====
section
/-! DEFINITION. The written form of operation streams (30_encoding.md R93) with its pseudo-operations
(R94). The machine never sees it: it stands here for writing streams down. Text is a list of characters;
an answer of none means that the text is not in the form R93 fixes. -/

namespace Sys2Proof.Machine

/-! ### Lexical pieces -/

/-- The pieces of a text between the occurrences of a character. -/
def splitAt (c : Char) : List Char → List (List Char)
  | [] => [[]]
  | x :: xs =>
    match splitAt c xs with
    | [] => [[x]]
    | piece :: pieces => if x = c then [] :: piece :: pieces else (x :: piece) :: pieces

/-- A space or a tab. -/
def isBlank (c : Char) : Bool := c = ' ' || c = '\t' || c = '\r'

/-- A text without the blanks at its two ends. -/
def trimBlanks (cs : List Char) : List Char :=
  ((cs.dropWhile isBlank).reverse.dropWhile isBlank).reverse

/-- The value of a digit below 16. -/
def digitOf (c : Char) : Option Nat :=
  let n := c.toNat
  if 48 ≤ n ∧ n ≤ 57 then some (n - 48)
  else if 65 ≤ n ∧ n ≤ 70 then some (n - 55)
  else if 97 ≤ n ∧ n ≤ 102 then some (n - 87)
  else none

/-- The number that digits write in a base, after those read so far. -/
def readDigits (base acc : Nat) : List Char → Option Nat
  | [] => some acc
  | c :: cs =>
    match digitOf c with
    | some d => if d < base then readDigits base (acc * base + d) cs else none
    | none => none

/-- A decimal natural number, at least one digit. -/
def readNat (cs : List Char) : Option Nat := if cs = [] then none else readDigits 10 0 cs

/-- A decimal exponent with its sign. -/
def readInt : List Char → Option Int
  | '-' :: cs => (readNat cs).map fun n => -(n : Int)
  | '+' :: cs => (readNat cs).map Int.ofNat
  | cs => (readNat cs).map Int.ofNat

/-- Digits with at most one point: the number without the point, and how many digits follow it. -/
def readMantissa (cs : List Char) : Option (Nat × Nat) :=
  match splitAt '.' cs with
  | [whole] => (readNat whole).map fun m => (m, 0)
  | [whole, fraction] => (readNat (whole ++ fraction)).map fun m => (m, fraction.length)
  | _ => none

/-- A decimal literal without its sign: the nearest binary64, ties to even (R12, R93). -/
def readDecimal (neg : Bool) (cs : List Char) : Option F64 :=
  match splitAt 'e' cs with
  | [mantissa] => (readMantissa mantissa).map fun p => decimal neg p.1 (-(p.2 : Int))
  | [mantissa, exponent] =>
    match readMantissa mantissa, readInt exponent with
    | some p, some e => some (decimal neg p.1 (e - p.2))
    | _, _ => none
  | _ => none

/-! ### Operands (R93) -/

/-- A voice index: 0 to 255. -/
def readVi (cs : List Char) : Option Nat :=
  match readNat cs with
  | some n => if n < 256 then some n else none
  | none => none

/-- A num operand: an encoding, an infinity or a decimal literal. Whether the operation takes an
infinity is left to the operation (log 15). -/
def readNum : List Char → Option F64
  | '0' :: 'x' :: cs => if cs.length = 16 then (readDigits 16 0 cs).map (BitVec.ofNat 64) else none
  | ['i', 'n', 'f'] => some (infinity false)
  | ['-', 'i', 'n', 'f'] => some (infinity true)
  | '-' :: cs => readDecimal true cs
  | cs => readDecimal false cs

/-- A bool operand. -/
def readBool : List Char → Option Bool
  | ['0'] => some false
  | ['1'] => some true
  | _ => none

/-- A wave operand: its name or its code. -/
def readWave (cs : List Char) : Option Waveform :=
  if cs = "SAW".toList ∨ cs = ['0'] then some .saw
  else if cs = "PULSE".toList ∨ cs = ['1'] then some .pulse
  else if cs = "TRI".toList ∨ cs = ['2'] then some .triangle
  else if cs = "SINE".toList ∨ cs = ['3'] then some .sine
  else none

/-- A colour operand: its name or its code, 0 to 7. -/
def readColour (cs : List Char) : Option Nat :=
  if cs = "WHITE".toList then some 0
  else if cs = "PINK".toList then some 1
  else if cs = "BROWN".toList then some 2
  else if cs = "BLUE".toList then some 3
  else if cs = "VIOLET".toList then some 4
  else if cs = "GREY".toList then some 5
  else match readNat cs with
    | some n => if n < 8 then some n else none
    | none => none

/-! ### Operations -/

/-- An operation with one operand of a kind. -/
def asmOne {α : Type} (read : List Char → Option α) (make : α → Instr) :
    List (List Char) → Option (List Instr)
  | [a] => (read a).map fun x => [make x]
  | _ => none

/-- A per-voice operation with one operand of a kind. -/
def asmVoice {α : Type} (read : List Char → Option α) (make : Nat → α → Instr) :
    List (List Char) → Option (List Instr)
  | [vi, a] =>
    match readVi vi, read a with
    | some n, some x => some [make n x]
    | _, _ => none
  | _ => none

/-- Num operands, as many as are written. -/
def readNums : List (List Char) → Option (List F64)
  | [] => some []
  | a :: rest =>
    match readNum a, readNums rest with
    | some x, some xs => some (x :: xs)
    | _, _ => none

/-- Three num operands. -/
def asmThree (make : F64 → F64 → F64 → Instr) (args : List (List Char)) : Option (List Instr) :=
  match readNums args with
  | some [a, d, su] => some [make a d su]
  | _ => none

/-- An operation of no operand. -/
def asmNone (i : Instr) (args : List (List Char)) : Option (List Instr) :=
  if args = [] then some [i] else none

/-- A pseudo-operation of four num operands (R94). -/
def asmFour (make : F64 → F64 → F64 → F64 → Pseudo) (args : List (List Char)) :
    Option (List Instr) :=
  match readNums args with
  | some [a, d, su, r] => some (expandPseudo (make a d su r))
  | _ => none

/-- `NOTEON i, v` (R94). -/
def asmNoteOn : List (List Char) → Option (List Instr)
  | [vi, v] =>
    match readVi vi, readNum v with
    | some n, some x => some (expandPseudo (.noteon n x))
    | _, _ => none
  | _ => none

/-- `TICKS n` (R94). -/
def asmTicks : List (List Char) → Option (List Instr)
  | [n] => (readNat n).map fun k => expandPseudo (.ticks k)
  | _ => none

/-- The mnemonics of R83 and R94 with what each reads. -/
def mnemonics : List (String × (List (List Char) → Option (List Instr))) :=
  [("NOP", asmNone .nop), ("TICK", asmNone .tick), ("SNAP", asmNone .snap),
    ("SETGATE", asmOne readBool .setgate), ("SETVOLT", asmVoice readNum .setvolt),
    ("SETDETUNE", asmVoice readNum .setdetune), ("SETWAVE", asmVoice readWave .setwave),
    ("SETMIXLVL", asmVoice readNum .setmixlvl), ("SETOSCEN", asmVoice readBool .setoscen),
    ("SETNOISELVL", asmOne readNum .setnoiselvl), ("SETNOISEEN", asmOne readBool .setnoiseen),
    ("SETNOISECOL", asmOne readColour .setnoisecol), ("SETMASTER", asmOne readNum .setmaster),
    ("SETCUTOFF", asmOne readNum .setcutoff), ("SETEMPH", asmOne readNum .setemph),
    ("SETCONTOUR", asmOne readNum .setcontour), ("SETFENV", asmThree .setfenv),
    ("SETLENV", asmThree .setlenv), ("SETRATE", asmOne readNum .setrate),
    ("SETFREL", asmOne readNum .setfrel), ("SETLREL", asmOne readNum .setlrel)] ++
  [("SETFADSR", asmFour .setfadsr), ("SETLADSR", asmFour .setladsr), ("NOTEON", asmNoteOn),
    ("NOTEOFF", asmNone (.setgate false)), ("TICKS", asmTicks)]

/-- The operands of a line: the pieces between its commas; none written, none read. -/
def operandsOf (cs : List Char) : List (List Char) :=
  if cs = [] then [] else (splitAt ',' cs).map trimBlanks

/-- The operations of one line: none for a blank line or a comment. -/
def assembleLine (line : List Char) : Option (List Instr) :=
  let cs := trimBlanks (line.takeWhile (· ≠ '#'))
  if cs = [] then some []
  else
    let name := cs.takeWhile fun c => !isBlank c
    match mnemonics.find? fun m => m.1.toList = name with
    | some m => m.2 (operandsOf (trimBlanks (cs.drop name.length)))
    | none => none

/-- The operations of several lines, in their order. -/
def assembleLines : List (List Char) → Option (List Instr)
  | [] => some []
  | line :: rest =>
    match assembleLine line, assembleLines rest with
    | some is, some js => some (is ++ js)
    | _, _ => none

/-- The operation words of a text, one operation a line (R93). -/
def assemble (text : String) : Option (List OpWord) :=
  (assembleLines (splitAt '\n' text.toList)).map fun is => is.map encode

end Sys2Proof.Machine
end

