-- ==== Sys2Proof/Tests/Slice0.lean ====
section
/-! SUPPORT. Tests. Expected results are those of spec/95_test_vectors.md and of the tables the comments
name. The `test_witness_` theorems show, for each statement that has hypotheses, concrete inputs that meet
all of them. -/

namespace Sys2Proof.Tests

open Sys2Proof Sys2Proof.Machine

set_option Elab.async false

/-! ### Well-formedness: each check refuses an ill-formed term -/

theorem test_wf_voice_index :
    Instr.wf (.setvolt 256 0#64) = false ∧ Instr.wf (.setdetune 256 0#64) = false ∧
    Instr.wf (.setwave 256 .saw) = false ∧ Instr.wf (.setmixlvl 256 0#64) = false ∧
    Instr.wf (.setoscen 256 true) = false ∧ viFits 255 = true := by decide

theorem test_wf_colour :
    Instr.wf (.setnoisecol 8) = false ∧ colourFits 7 = true := by decide

/-! ### Decoding: the words of 95_test_vectors.md 2.1, one for each operation -/

theorem test_decode_nop :
    decode 0x0000000000000000000000000000000000000000000000000000#208 = .ok .nop := by decide +kernel
theorem test_decode_tick :
    decode 0x0100000000000000000000000000000000000000000000000000#208 = .ok .tick := by decide +kernel
theorem test_decode_snap :
    decode 0x0200000000000000000000000000000000000000000000000000#208 = .ok .snap := by decide +kernel
theorem test_decode_setgate :
    decode 0x1000000000000000000100000000000000000000000000000000#208 = .ok (.setgate true) := by
  decide +kernel
theorem test_decode_setvolt :
    decode 0x1102BFF000000000000000000000000000000000000000000000#208
      = .ok (.setvolt 2 0xBFF0000000000000#64) := by decide +kernel
theorem test_decode_setdetune :
    decode 0x12013FB555555555555500000000000000000000000000000000#208
      = .ok (.setdetune 1 0x3FB5555555555555#64) := by decide +kernel
theorem test_decode_setwave :
    decode 0x1300000000000000000300000000000000000000000000000000#208 = .ok (.setwave 0 .sine) := by
  decide +kernel
theorem test_decode_setmixlvl :
    decode 0x14013FE666666666666600000000000000000000000000000000#208
      = .ok (.setmixlvl 1 0x3FE6666666666666#64) := by decide +kernel
theorem test_decode_setoscen :
    decode 0x1502000000000000000100000000000000000000000000000000#208 = .ok (.setoscen 2 true) := by
  decide +kernel
theorem test_decode_setnoiselvl :
    decode 0x16003FD000000000000000000000000000000000000000000000#208
      = .ok (.setnoiselvl 0x3FD0000000000000#64) := by decide +kernel
theorem test_decode_setnoiseen :
    decode 0x1700000000000000000100000000000000000000000000000000#208 = .ok (.setnoiseen true) := by
  decide +kernel
theorem test_decode_setnoisecol :
    decode 0x1800000000000000000500000000000000000000000000000000#208 = .ok (.setnoisecol 5) := by
  decide +kernel
theorem test_decode_setmaster :
    decode 0x19003FE999999999999A00000000000000000000000000000000#208
      = .ok (.setmaster 0x3FE999999999999A#64) := by decide +kernel
theorem test_decode_setcutoff :
    decode 0x1A00408F40000000000000000000000000000000000000000000#208
      = .ok (.setcutoff 0x408F400000000000#64) := by decide +kernel
theorem test_decode_setemph :
    decode 0x1B003FE000000000000000000000000000000000000000000000#208
      = .ok (.setemph 0x3FE0000000000000#64) := by decide +kernel
theorem test_decode_setcontour :
    decode 0x1C003FE000000000000000000000000000000000000000000000#208
      = .ok (.setcontour 0x3FE0000000000000#64) := by decide +kernel
theorem test_decode_setfenv :
    decode 0x1D003F847AE147AE147B3FB999999999999A3FE6666666666666#208
      = .ok (.setfenv 0x3F847AE147AE147B#64 0x3FB999999999999A#64 0x3FE6666666666666#64) := by
  decide +kernel
theorem test_decode_setlenv :
    decode 0x1E003F747AE147AE147B3FC999999999999A3FE999999999999A#208
      = .ok (.setlenv 0x3F747AE147AE147B#64 0x3FC999999999999A#64 0x3FE999999999999A#64) := by
  decide +kernel
theorem test_decode_setrate :
    decode 0x1F0040E588800000000000000000000000000000000000000000#208
      = .ok (.setrate 0x40E5888000000000#64) := by decide +kernel
theorem test_decode_setfrel :
    decode 0x20003FB999999999999A00000000000000000000000000000000#208
      = .ok (.setfrel 0x3FB999999999999A#64) := by decide +kernel
theorem test_decode_setlrel :
    decode 0x21003FD333333333333300000000000000000000000000000000#208
      = .ok (.setlrel 0x3FD3333333333333#64) := by decide +kernel

/-- Stray bits are ignored, reserved opcodes are named (the decoding vectors of 2.1). -/
theorem test_decode_stray_and_reserved :
    decode 0x1000FFFFFFFFFFFFFFFE00000000000000000000000000000000#208 = .ok (.setgate false) ∧
    decode 0x03FF7FF80000000000017FF80000000000027FF8000000000003#208
      = .error (.reservedOpcode 0x03#8) ∧
    decode 0x2200000000000000000000000000000000000000000000000000#208
      = .error (.reservedOpcode 0x22#8) := by decide +kernel

/-- The transport form's first and last byte (R61). -/
theorem test_transport_order :
    (bytesOfWord 0x1102BFF000000000000000000000000000000000000000000007#208).take 3
      = [0x11#8, 0x02#8, 0xBF#8] ∧
    (bytesOfWord 0x1102BFF000000000000000000000000000000000000000000007#208)[25]? = some 0x07#8 := by
  decide +kernel

/-- The words that R93's written form assembles to (its example, and rows of 2.1). -/
theorem test_assemble :
    assemble "SETVOLT 1, 1.0  # R93\nSETFENV 0.01, 0.1, 0.7\nSETNOISECOL GREY\nTICKS 2" = some
      [0x11013FF000000000000000000000000000000000000000000000#208,
        0x1D003F847AE147AE147B3FB999999999999A3FE6666666666666#208,
        0x1800000000000000000500000000000000000000000000000000#208,
        0x0100000000000000000000000000000000000000000000000000#208,
        0x0100000000000000000000000000000000000000000000000000#208] ∧
    assemble "SETVOLT 256, 1.0" = none := by decide +kernel

/-! ### Arithmetic (R11, R12, R82) -/

/-- Literals of R12 from their decimals. -/
theorem test_literals :
    decimal false 55 0 = litRefFreq ∧ decimal false 99886 (-5) = litPole0 ∧
    decimal false 555179 (-7) = litGain0 ∧ decimal false 99332 (-5) = litPole1 ∧
    decimal false 750759 (-7) = litGain1 ∧ decimal false 969 (-3) = litPole2 ∧
    decimal false 153852 (-6) = litGain2 ∧ decimal false 8665 (-4) = litPole3 ∧
    decimal false 3104856 (-7) = litGain3 ∧ decimal false 55 (-2) = litPole4 ∧
    decimal false 5329522 (-7) = litGain4 ∧ decimal true 7616 (-4) = litPole5 ∧
    decimal true 16898 (-6) = litGain5 ∧ decimal false 115926 (-6) = litTap6 ∧
    decimal false 5362 (-4) = litBias ∧ decimal false 11 (-2) = litPinkScale ∧
    decimal false 2 (-2) = litBrownStep ∧ decimal false 15 (-1) = litBrownMax ∧
    decimal false 35 (-2) = litGreyWhite ∧ decimal false 65 (-2) = litGreyPink ∧
    decimal false 1 (-3) = litSnap ∧ decimal false 80 0 = litCutoffMin ∧
    decimal false 18000 0 = litCutoffMax ∧ decimal false 99 (-2) = litMaxCoeff ∧
    decimal false 98 (-2) = Config.params.outLim := by decide +kernel

/-- Sums and quotients of 2.2 and 2.7: an increment lost to rounding, one that rounds up to 1, the rates'
reciprocals. -/
theorem test_rounding :
    fadd 0x3FEFFFFFFFFFFFFF#64 0x3C7804EA293472C7#64 = 0x3FEFFFFFFFFFFFFF#64 ∧
    fadd 0x3FEFFFFFFFFFFFFF#64 0x3CA08360FC540EE9#64 = one ∧
    fdiv one 0x40E7700000000000#64 = 0x3EF5D867C3ECE2A5#64 ∧
    fdiv one 0x0004000000000001#64 = 0x7FEFFFFFFFFFFFF8#64 ∧
    isFinite (fdiv one 0x0004000000000000#64) = false ∧
    fdiv 0x407B800000000000#64 0x40E5888000000000#64 = 0x3F846EFDCB4A6B82#64 := by decide +kernel

/-- R11's clamp keeps `-0.0` and brings the infinities in. -/
theorem test_clamp :
    clampUnit negZero = negZero ∧ clampUnit (infinity false) = one ∧
    clampUnit (infinity true) = zero ∧ clampT negZero = zero ∧
    clampT (infinity false) = infinity false := by decide +kernel

/-! ### States -/

/-- An instance for tests: the spec's defaults but for a ring of four slots. -/
def cfg : Params where
  nv := 3
  ringN := 4
  seed0 := 0#64
  outLim := 0x3FEF5C28F5C28F5C#64
  pinkB6Delayed := true

/-- The instance right after reset. -/
def base : State := State.resetWith cfg { input := [], responses := [] }

/-- After `SETRATE 48000.0`. -/
def rated : State :=
  { base with pipe := { rateSet := true, sampleRate := some 0x40E7700000000000#64 } }

/-- With the given events to come. -/
def presented (s : State) (es : List PortEvent) : State := withInput s es

/-- The word of `TICK`. -/
def tickWord : OpWord := 0x0100000000000000000000000000000000000000000000000000#208

/-- An outcome is a next state. -/
def isNext : Result → Bool
  | .next _ => true
  | _ => false

theorem next_of_isNext {r : Result} (h : isNext r = true) : ∃ t, r = .next t := by
  cases r with
  | next t => exact ⟨t, rfl⟩
  | fault f => cases h
  | refused f => cases h

/-- Two outcomes are the same. -/
def same : Result → Result → Bool
  | .next s, .next t => decide (s = t)
  | .fault f, .fault g => decide (f = g)
  | .refused f, .refused g => decide (f = g)
  | _, _ => false

theorem eq_of_same {r r' : Result} (h : same r r' = true) : r = r' := by
  cases r <;> cases r' <;> simp_all [same]

/-- The next state of an outcome; `base` where there is none. -/
def after : Result → State
  | .next t => t
  | _ => base

/-! ### Voices (95_test_vectors.md 2.2, R111) -/

/-- Three functions in place of the free ones, on the few points that vectors need: `ftanh` as in the
worked example of R223 (the three inner values computed by hand to 60 digits and rounded). -/
def tableNum : Numerics where
  fsin := fun _ => zero
  ftanh := fun x =>
    if x = 0xBFEF69D0369D036A#64 then 0xBFE81F04D6359498#64
    else if x = 0xBFE7E144C9D3C3BF#64 then 0xBFE440C33DC9D5B9#64
    else if x = 0xBFE40CEA3FBB043A#64 then 0xBFE1C83739A6C079#64
    else if x = 0xBFE19AB18D8E0B59#64 then 0xBFE00514C454D8BC#64
    else zero
  fexp2 := fun x => if x = zero then one else litTwo

theorem test_wave_corners :
    wave tableNum .saw zero = negOne ∧ wave tableNum .saw 0x3FEFFFFFFFFFFFFF#64 = 0x3FEFFFFFFFFFFFFE#64 ∧
    wave tableNum .pulse litHalf = negOne ∧ wave tableNum .pulse 0x3FD0000000000000#64 = one ∧
    wave tableNum .triangle zero = one ∧ wave tableNum .triangle litHalf = negOne ∧
    wave tableNum .triangle 0x3FEFFFFFFFFFFFFF#64 = 0x3FEFFFFFFFFFFFFC#64 := by decide +kernel

/-- Table V3: wraps, and a sum that rounds up to an integer. -/
theorem test_phase_wraps :
    frac (fadd 0x3FE8000000000000#64 litHalf) = 0x3FD0000000000000#64 ∧
    frac (fadd 0x3FD0000000000000#64 0x4004000000000000#64) = 0x3FE8000000000000#64 ∧
    frac (fadd 0x3FEFFFFFFFFFFFFF#64 0x3CA08360FC540EE9#64) = zero := by decide +kernel

/-- `SETVOLT 0, -0.0` keeps the sign in the register and gives 55 Hz (table V1). -/
theorem test_setvolt :
    voiceAt (after (exec (.setvolt 0 negZero) base)) 0
      = { Voice.atReset with voltage := negZero } := by decide +kernel

/-- `SETVOLT 2, 1.0` doubles the frequency of voice 2 and leaves voice 1. -/
theorem test_setvolt_octave :
    (after (exec (.setvolt 2 one) base)).voices.map Voice.frequency
      = [litRefFreq, litRefFreq, 0x405B800000000000#64] := by decide +kernel

/-- U1 and U2, and the silent no-op `SETVOLT 7, NaN` (2.9). -/
theorem test_setvolt_refusals :
    same (exec (.setvolt 0 0x7FF8000000000000#64) base) (.refused .nanOperand) = true ∧
    same (exec (.setvolt 0 (infinity false)) base) (.refused .infinitePitchOperand) = true ∧
    same (exec (.setvolt 7 0x7FF8000000000000#64) base) (.next base) = true := by decide +kernel

/-- U2: a frequency that overflows, with three functions for which `fexp2` does. -/
theorem test_setPitch_overflow :
    same (setPitch { tableNum with fexp2 := fun _ => infinity false } 0 one Voice.atReset base)
      (.refused .frequencyNotFinite) = true := by decide +kernel

/-- `SETDETUNE 1, 0.0` with a voltage of 1.0 keeps 110 Hz; an infinity is refused. -/
theorem test_setdetune :
    (voiceAt (after (exec (.setdetune 1 zero) (after (exec (.setvolt 1 one) base)))) 1).frequency
      = 0x405B800000000000#64 ∧
    same (exec (.setdetune 0 (infinity true)) base) (.refused .infinitePitchOperand) = true := by decide +kernel

theorem test_setwave :
    (after (exec (.setwave 2 .sine) base)).voices.map Voice.waveform = [.saw, .saw, .sine] ∧
    same (exec (.setwave 3 .sine) base) (.next base) = true := by decide +kernel

/-! ### Mixer (2.3) -/

theorem test_setmixlvl :
    (after (exec (.setmixlvl 0 0x3FFB333333333333#64) base)).mixer.level = [one, zero, zero] ∧
    (after (exec (.setmixlvl 0 0xC008000000000000#64) base)).mixer.level = [zero, zero, zero] ∧
    same (exec (.setmixlvl 0 0x7FF8000000000000#64) base) (.refused .nanOperand) = true := by decide +kernel

theorem test_setoscen :
    (after (exec (.setoscen 1 true) base)).mixer.oscEn = [false, true, false] := by decide +kernel

theorem test_setnoiselvl_setmaster :
    (after (exec (.setnoiselvl 0x3FD0000000000000#64) base)).mixer.noiseLevel = 0x3FD0000000000000#64 ∧
    (after (exec (.setnoiselvl litTwo) base)).mixer.noiseLevel = one ∧
    (after (exec (.setmaster 0x3FE999999999999A#64) base)).mixer.master = 0x3FE999999999999A#64 ∧
    (after (exec (.setmaster negOne) base)).mixer.master = zero := by decide +kernel

theorem test_setnoiseen :
    (after (exec (.setnoiseen true) base)).mixer.noiseEn = true := by decide +kernel

/-- `MixStep` vectors: the third, the fourth and the sixth row. -/
theorem test_mix :
    mixStep ⟨[true, false, true], [litHalf, one, 0x3FD0000000000000#64], true, litHalf, litHalf⟩
      [0xBFE0000000000000#64, one, one] litHalf = 0x3FC0000000000000#64 ∧
    mixStep ⟨[true, true, true], [one, one, one], true, one, one⟩ [one, one, one] litBrownMax
      = 0x4012000000000000#64 ∧
    mixStep ⟨[true, true, false], [0x3FB999999999999A#64, 0x3FC999999999999A#64, one], false, one, one⟩
      [0x3FD3333333333333#64, 0x3FD3333333333333#64, one] one = 0x3FB70A3D70A3D70A#64 := by
  decide +kernel

/-! ### Noise (2.4) -/

theorem test_setnoisecol :
    (after (exec (.setnoisecol 1) base)).noise.noiseColor = .pink ∧
    same (exec (.setnoisecol 6) base) (.next base) = true ∧
    same (exec (.setnoisecol 7) base) (.next base) = true := by
  decide +kernel

/-- Table N2, its first tick, both settings of `PINK_B6_DELAYED`. -/
theorem test_noise_first_tick :
    noiseTuple true (Noise.atReset 1#64) =
      { white := 0xBFD3D705E959B544#64, pink := 0xBFACC22996A92E32#64,
        brown := 0xBF7965264968961A#64, blue := 0xBFD3D705E959B544#64,
        violet := 0xBFD3D705E959B544#64, grey := 0xBFC28FAAE56D7CCB#64 } ∧
    (noiseTuple false (Noise.atReset 1#64)).pink = 0xBFAEC84C630CE71F#64 ∧
    (noiseTuple false (Noise.atReset 1#64)).grey = 0xBFC2E3DD59D74AD8#64 := by decide +kernel

/-- Table N2, its second tick: the registers of the first are read; violet is clamped. -/
theorem test_noise_second_tick :
    noiseTuple true (noiseNext (Noise.atReset 1#64)) =
      { white := 0x3FE02C6333D3894A#64, pink := 0x3FADF36CC17927C0#64,
        brown := 0x3F70023E124E8BEC#64, blue := 0x3FEA17E6288063EC#64,
        violet := one, grey := 0x3FCB827FC198A376#64 } ∧
    lcgStep 0xFFFFFFFFFFFFFFFF#64 = 0xA7AE0BD2B36A80D4#64 ∧ whiteOf 0x7FF#64 = negOne ∧
    whiteOf 0xFFFFFFFFFFFFFFFF#64 = 0x3FEFFFFFFFFFFFFE#64 ∧
    whiteOf 0x8000000000000000#64 = zero := by decide +kernel

/-! ### Envelopes (2.5) -/

theorem test_setfenv :
    (after (exec (.setfenv negOne 0x3FB999999999999A#64 0x3FF8000000000000#64) base)).mods.fenv
      = { Envelope.atReset with decay := 0x3FB999999999999A#64, sustain := one } := by decide +kernel

theorem test_setlenv :
    (after (exec (.setlenv negZero (infinity false) 0xBFD0000000000000#64) base)).mods.lenv
      = { Envelope.atReset with decay := infinity false } ∧
    same (exec (.setlenv zero zero 0x7FF8000000000000#64) base) (.refused .nanOperand) = true := by decide +kernel

theorem test_setfrel_setlrel :
    (after (exec (.setfrel 0x3FB999999999999A#64) base)).mods.fenv.release = 0x3FB999999999999A#64 ∧
    (after (exec (.setfrel 0xC000000000000000#64) base)).mods.fenv.release = zero ∧
    (after (exec (.setlrel 0x3FD3333333333333#64) base)).mods.lenv.release = 0x3FD3333333333333#64 := by
  decide +kernel

/-- `SETGATE 1`, again, then `SETGATE 0`. -/
theorem test_setgate :
    (after (exec (.setgate true) base)).mods.lenv.stage = .attack ∧
    same (exec (.setgate false) base) (.next base) = true ∧
    (after (exec (.setgate false) (after (exec (.setgate true) base)))).mods.fenv.stage = .release := by
  decide +kernel

/-- E3: `k` is exactly one half; then a release from 0.9375. -/
theorem test_envelope_dyadic :
    (envStep 0x3F50624DD2F1A9FC#64 { Envelope.atReset with
      attack := 0x3F60624DD2F1A9FC#64, stage := .attack, value := 0x3FE8000000000000#64 }).value
      = 0x3FEC000000000000#64 ∧
    (envStep 0x3F50624DD2F1A9FC#64 { Envelope.atReset with
      release := 0x3F60624DD2F1A9FC#64, stage := .release, value := 0x3FEE000000000000#64 }).value
      = 0x3FDE000000000000#64 := by decide +kernel

/-- E1 and E2: a time of zero completes its stage in one tick, an infinite one never. -/
theorem test_envelope_zero_and_infinite_times :
    envStep 0x3EF5D867C3ECE2A5#64 { Envelope.atReset with stage := .attack }
      = { Envelope.atReset with stage := .decay, value := one } ∧
    envStep 0x3EF5D867C3ECE2A5#64 { Envelope.atReset with stage := .attack, attack := infinity false }
      = { Envelope.atReset with stage := .attack, attack := infinity false } := by decide +kernel

/-! ### Filter (2.6) -/

theorem test_filter_setters :
    (after (exec (.setcutoff 0xC014000000000000#64) base)).mods.cutoff = 0xC014000000000000#64 ∧
    (after (exec (.setemph litTwo) base)).mods.emphasis = one ∧
    (after (exec (.setcontour 0x3FE0000000000000#64) base)).mods.contour = litHalf ∧
    same (exec (.setcutoff 0x7FF0000000000001#64) base) (.refused .nanOperand) = true := by decide +kernel

/-- The table of dynamic cutoffs and coefficients: the first, the last but two, the last but one row. -/
theorem test_cutoff_and_coefficient :
    dynCutoff 0x408F400000000000#64 litHalf one = 0x40A7700000000000#64 ∧
    filterCoeff 0x40A7700000000000#64 0x3EF5D867C3ECE2A5#64 = 0x3FD921FB54442D18#64 ∧
    dynCutoff 0x7FE1CCF385EBC8A0#64 one one = litCutoffMax ∧
    dynCutoff 0x407F400000000000#64 one 0x3FEEEC850C7B923C#64 = 0x40A3017CF7185667#64 ∧
    filterCoeff litCutoffMax 0x3EF5D867C3ECE2A5#64 = litMaxCoeff := by decide +kernel

/-! ### Pipeline and ring (2.7, 2.8, part 3) -/

theorem test_setrate :
    same (exec (.setrate 0x40E7700000000000#64) base) (.next rated) = true ∧
    isNext (exec (.setrate 0x0004000000000001#64) base) = true ∧
    same (exec (.setrate 0x0004000000000000#64) base) (.refused .illegalSampleRate) = true ∧
    same (exec (.setrate negZero) base) (.refused .illegalSampleRate) = true ∧
    same (exec (.setrate 0x7FF8000000000000#64) base) (.refused .nanOperand) = true := by decide +kernel

/-- Program P2's state before its first tick, but for `OUT_LIM`, which is P6's 0.25. -/
def p6 : State :=
  { rated with
    cfg := { cfg with outLim := 0x3FD0000000000000#64 }
    voices := [{ Voice.atReset with voltage := 0x4008000000000000#64, frequency := 0x407B800000000000#64 },
      Voice.atReset, Voice.atReset]
    mixer := { rated.mixer with
      oscEn := [true, false, false], level := [one, zero, zero], master := one }
    mods := { rated.mods with
      gate := true
      cutoff := litCutoffMax
      fenv := { Envelope.atReset with stage := .attack }
      lenv := { Envelope.atReset with stage := .attack, sustain := one } } }

/-- P6's first tick: the responses (the clamp acts), and the ladder of R223's worked example. -/
theorem test_tick_p6 :
    (after (tickWith tableNum p6)).ports.responses
      = [⟨0xBFDFB823FF9DC19D#64, false⟩, ⟨0xBFD0000000000000#64, true⟩] ∧
    (after (tickWith tableNum p6)).mods.ladder = ⟨0xBFE7E144C9D3C3BF#64, 0xBFE40CEA3FBB043A#64,
      0xBFE19AB18D8E0B59#64, 0xBFDFB823FF9DC19D#64⟩ ∧
    (after (tickWith tableNum p6)).ring.mem = [(0, 0xBFD0000000000000#64)] := by decide +kernel

/-- P1: after two ticks and a `SNAP`, with the machine's own numerics. -/
theorem test_tick_p1 :
    same (exec .tick base) (.refused .tickBeforeSetRate) = true ∧
    (voiceAt (after (exec .tick (after (exec .tick rated)))) 2).phase = 0x3F62C5F92C5F92C6#64 ∧
    (after (exec .tick (after (exec .tick rated)))).noise.seed = 0x5851F42D4C957F2E#64 ∧
    (after (exec .tick (after (exec .tick rated)))).noise.b.b5 = 0xBF7F41D85E2A28D5#64 := by
  decide +kernel

/-- G1: a ring of four that holds `b, c, d, e` after five pushes, and one that is not yet full. -/
theorem test_snap :
    (after (exec .snap { base with ring :=
        { mem := [(0, 5#64), (1, 2#64), (2, 3#64), (3, 4#64)], cursor := 1, filled := true } })).ports.responses
      = [⟨4#64, false⟩, ⟨2#64, false⟩, ⟨3#64, false⟩, ⟨4#64, false⟩, ⟨5#64, true⟩] ∧
    (after (exec .snap base)).ports.responses = [⟨0#64, true⟩] := by decide +kernel

theorem test_nop : same (exec .nop rated) (.next rated) = true := by decide +kernel

/-- `rst` during a `TICK`, one response word delivered (R271). -/
theorem test_reset_during_tick :
    after (step (presented rated [.abandoned tickWord 1]))
      = { base with ports := { input := [], responses := [⟨0#64, false⟩] } } := by decide +kernel

/-- `rst` ends a refused `TICK`: the reset state (R252, R271). -/
theorem test_reset_after_refusal :
    { after (step (presented base [.abandoned tickWord 0])) with ports := base.ports } = base := by
  decide +kernel

/-- The host's view: the table's word, numbered as the table numbers it, is the next one run. -/
theorem test_first_instruction :
    same (step (base.withFetchWord 208 0x1500000000000000000100000000000000000000000000000000))
      (exec (.setoscen 0 true) base) = true ∧
    same (step (base.withFetchWord 208 0x0100000000000000000000000000000000000000000000000000))
      (.refused .tickBeforeSetRate) = true := by decide +kernel

/-! ### Every statement's hypotheses can be met -/

/-- An outcome that is a next state is the one `after` names. -/
theorem next_after {r : Result} (h : isNext r = true) : r = .next (after r) := by
  cases r <;> simp_all [isNext, after]

/-- The table's functions have the named properties of R10. -/
theorem tableNum_lawful : LawfulNumerics tableNum where
  exp2_zero := by decide +kernel
  exp2_one := by decide +kernel
  exp2_pos x _ := by simp only [tableNum]; split_ifs <;> decide +kernel
  sin_range p _ _ := by constructor <;> (simp only [tableNum]; decide +kernel)
  tanh_range x _ := by
    simp only [tableNum]
    constructor <;> (split_ifs <;> decide +kernel)
  tanh_zero := by decide +kernel

/-- With one voice sounding, and a ring one push short of full. -/
def nearlyFull : State :=
  presented { rated with ring :=
    { mem := [(0, 0#64), (1, 0#64), (2, 0#64)], cursor := 3, filled := false } } [.accept tickWord]

theorem test_witness_DecodeOfEncodeGivesTheInstruction :
    Instr.wf (.setvolt 255 0xFFFFFFFFFFFFFFFF#64) = true ∧ Instr.wf (.setnoisecol 7) = true := by
  decide

theorem test_witness_ReservedOpcodeExecutesAsNop :
    (presented base [.accept 0x22#208]).ports.input = .accept 0x22#208 :: [] ∧
    0x22 ∉ definedOpcodes ∧ 0x03 ∉ definedOpcodes ∧ 0x0F ∉ definedOpcodes ∧ 0xFF ∉ definedOpcodes ∧
    (opField 0x2200000000000000000000000000000000000000000000000000#208).toNat = 0x22 := by
  decide +kernel

theorem test_witness_UnusedBitsAreIgnored :
    let w := 0x10AB00000000000000017FF8000000000000FFFFFFFFFFFFFFFF#208
    let w' := 0x1000000000000000000100000000000000000000000000000000#208
    w ≠ w' ∧ w &&& usedBits (opField w).toNat = w' &&& usedBits (opField w).toNat := by decide +kernel

theorem test_witness_TransportBytesCarryTheWord :
    0 < 26 ∧ 25 < 26 ∧ (List.replicate 25 (0#8 : Byte)).length ≠ 26 ∧ (List.replicate 27 (0#8 : Byte)).length ≠ 26 := by
  decide

theorem test_witness_StepRunsTheDecodedInstruction :
    nearlyFull.ports.input = .accept tickWord :: [] ∧ decode tickWord = .ok .tick ∧
      Instr.wf .tick = true := by decide +kernel

theorem test_witness_NothingPresentedNothingHappens : rated.ports.input = [] := by decide +kernel

theorem test_witness_ResetLeavesTheListedValues :
    State.reset = State.resetWith Config.params { input := [], responses := [] } := rfl

theorem test_witness_ResetLineRestoresTheResetState :
    (presented rated [.rst]).ports.input = .rst :: [] ∧
    (presented rated [.abandoned tickWord 1]).ports.input = .abandoned tickWord 1 :: [] ∧
    exec (decodeOrNop tickWord) (withInput (presented rated [.abandoned tickWord 1]) [])
      = .next (after (exec .tick rated)) ∧
    (after (exec .tick rated)).ports.responses
      = (presented rated [.abandoned tickWord 1]).ports.responses ++ [⟨0#64, false⟩, ⟨0#64, true⟩] :=
  ⟨rfl, rfl, eq_of_same (by decide +kernel), by decide +kernel⟩

theorem test_witness_ArithmeticRoundsToNearestEven :
    isFinite 0x7FEFFFFFFFFFFFFF#64 = true ∧ isFinite 0x8000000000000001#64 = true ∧
    isZero 0x8000000000000001#64 = false ∧ (isFinite negZero = true ∧ isZero negZero = true) ∧
    (isInf (infinity true) = true ∧ isInf (infinity false) = true) ∧
    signBit (infinity true) ≠ signBit (infinity false) ∧ isNaN 0x7FF0000000000001#64 = true := by
  decide +kernel

/-- R9's `fdiv(a, +0.0) = +inf`, and the signs of overflows and of exact zeros (IEEE 754). -/
theorem test_signs :
    fdiv one zero = infinity false ∧ fdiv one negZero = infinity true ∧
    fadd 0x7FEFFFFFFFFFFFFF#64 0x7FEFFFFFFFFFFFFF#64 = infinity false ∧
    fsub 0xFFEFFFFFFFFFFFFF#64 0x7FEFFFFFFFFFFFFF#64 = infinity true ∧
    fadd one negOne = zero ∧ fadd negZero negZero = negZero ∧ fsub negZero zero = negZero ∧
    fmul negZero one = negZero ∧ fdiv negOne (infinity false) = negZero := by decide +kernel

theorem test_witness_FracIsExactAndInUnitInterval :
    (isFinite negZero = true ∧ fle zero negZero = true) ∧
    (isFinite 0x7FEFFFFFFFFFFFFF#64 = true ∧ fle zero 0x7FEFFFFFFFFFFFFF#64 = true) ∧
    (isInf (infinity true) = true ∧ signBit (infinity true) = true) ∧
    (isInf (infinity false) = true ∧ signBit (infinity false) = false) ∧
    isNaN 0xFFF0000000000001#64 = true := by decide +kernel

theorem test_witness_LawfulNumericsAreKeptAsTheyAre :
    LawfulNumerics tableNum ∧ isPhase zero = true ∧ isPhase 0x3FEFFFFFFFFFFFFF#64 = true :=
  ⟨tableNum_lawful, by decide +kernel, by decide +kernel⟩

theorem test_witness_WaveStaysInRange :
    LawfulNumerics tableNum ∧ isPhase zero = true ∧ isPhase 0x3FEFFFFFFFFFFFFF#64 = true :=
  ⟨tableNum_lawful, by decide +kernel, by decide +kernel⟩

/-- The clause for a frequency that is not finite depends on the free `fexp2`; `test_setPitch_overflow`
shows it with a given one. -/
theorem test_witness_SetVoltWritesVoltageAndFrequency :
    shaped base = true ∧ base.cfg.nv ≤ 3 ∧ 2 < base.cfg.nv ∧ isNaN 0x7FF0000000000001#64 = true ∧
    isInf (infinity true) = true ∧ isFinite negZero = true ∧
    isFinite (fmul 0x404B800000000000#64 (numerics.fexp2 (fadd negZero (voiceAt base 2).detune))) = true := by
  decide +kernel

theorem test_witness_SetDetuneWritesDetuneAndFrequency :
    shaped base = true ∧ base.cfg.nv ≤ 3 ∧ 0 < base.cfg.nv ∧ isNaN 0xFFF8000000000000#64 = true ∧
    isInf (infinity false) = true ∧ isFinite one = true ∧
    isFinite (fmul 0x404B800000000000#64 (numerics.fexp2 (fadd (voiceAt base 0).voltage one))) = true := by
  decide +kernel

theorem test_witness_PitchContractAtZeroAndOneVolt :
    shaped base = true ∧ 2 < base.cfg.nv ∧ (voiceAt base 2).detune = 0#64 := by decide +kernel

theorem test_witness_SetWaveWritesWaveformOnly : shaped base = true ∧ base.cfg.nv ≤ 3 ∧ 2 < base.cfg.nv := by
  decide +kernel

theorem test_witness_VoiceIndexOutOfRangeIsANoOp :
    base.cfg.nv ≤ 3 ∧ ({ base with cfg := { cfg with nv := 256 } } : State).cfg.nv = 256 := by
  decide +kernel

theorem test_witness_PhaseStaysInUnitInterval :
    rated.pipe.sampleRate = some 0x40E7700000000000#64 ∧ isFinite 0x40E7700000000000#64 = true ∧
    flt zero 0x40E7700000000000#64 = true ∧
    (∀ v ∈ rated.voices, isPhase v.phase = true ∧ fle zero v.frequency = true) ∧
    exec .tick rated = .next (after (exec .tick rated)) :=
  ⟨by decide +kernel, by decide +kernel, by decide +kernel, by decide +kernel,
    next_after (by decide +kernel)⟩

/-- `rated` with another voice 0, another mixer and another noise colour. -/
def ratedOther : State :=
  { rated with
    voices := rated.voices.set 0 { Voice.atReset with waveform := .pulse }
    mixer := { rated.mixer with master := one }
    noise := { rated.noise with noiseColor := .pink } }

theorem test_witness_VoicesShareNoState :
    rated.pipe.sampleRate = ratedOther.pipe.sampleRate ∧ rated.voices[1]? = ratedOther.voices[1]? ∧
    exec .tick rated = .next (after (exec .tick rated)) ∧
    exec .tick ratedOther = .next (after (exec .tick ratedOther)) :=
  ⟨by decide +kernel, by decide +kernel, next_after (by decide +kernel), next_after (by decide +kernel)⟩

theorem test_witness_SetMixLevelStoresTheClampedLevel :
    shaped base = true ∧ base.cfg.nv ≤ 3 ∧ 2 < base.cfg.nv ∧ isNaN 0x7FF8000000000000#64 = true ∧
    isNaN negZero = false ∧ isNaN one = false ∧ isNaN (infinity false) = false := by decide +kernel

theorem test_witness_SetOscEnableWritesTheEnableOnly : shaped base = true ∧ base.cfg.nv ≤ 3 ∧ 2 < base.cfg.nv := by
  decide +kernel

theorem test_witness_UnitSettersStoreTheClampedOperand :
    isNaN 0x7FF8000000000000#64 = true ∧ isNaN (infinity true) = false := by decide +kernel

theorem test_witness_MixIsTheOrderedSum :
    base.mixer.oscEn.length = 3 ∧ base.mixer.level.length = 3 ∧ [zero, one, negOne].length = 3 := by
  decide +kernel

theorem test_witness_MixIsSilentWithEverythingDisabled :
    (∀ en ∈ base.mixer.oscEn, en = false) ∧ base.mixer.noiseEn = false ∧
    inUnit base.mixer.master = true ∧ inUnit negZero = true ∧ inUnit one = true := by decide +kernel

theorem test_witness_SetNoiseColourSelectsTheColour :
    ((5, .grey) : Nat × NoiseColour) ∈
      [(0, NoiseColour.white), (1, .pink), (2, .brown), (3, .blue), (4, .violet), (5, .grey)] ∧
    ((0, .white) : Nat × NoiseColour) ∈
      [(0, NoiseColour.white), (1, .pink), (2, .brown), (3, .blue), (4, .violet), (5, .grey)] ∧
    6 ≤ 6 := by decide

theorem test_witness_NoiseSampleOfEachColour :
    ∃ n' pink, n' = noiseNext ratedOther.noise ∧
      pink = fmul (fadd (fadd (fadd (fadd (fadd (fadd (fadd n'.b.b0 n'.b.b1) n'.b.b2) n'.b.b3) n'.b.b4)
        n'.b.b5) (if true then ratedOther.noise.b.b6 else n'.b.b6)) (fmul n'.w1 litBias)) litPinkScale ∧
      ratedOther.noise.noiseColor = .pink ∧ rated.noise.noiseColor = .white :=
  ⟨_, _, rfl, rfl, rfl, rfl⟩

theorem test_witness_NoiseStreamDependsOnNoiseRegistersAlone :
    { rated.noise with noiseColor := .white } = { ratedOther.noise with noiseColor := .white } ∧
    exec .tick rated = .next (after (exec .tick rated)) ∧
    exec .tick ratedOther = .next (after (exec .tick ratedOther)) ∧
    Instr.setnoisecol 1 ≠ .tick ∧
    exec (.setnoisecol 1) rated = .next (after (exec (.setnoisecol 1) rated)) :=
  ⟨by decide +kernel, next_after (by decide +kernel), next_after (by decide +kernel), by decide,
    next_after (by decide +kernel)⟩

theorem test_witness_StepKeepsPinkTapsBounded :
    pinkBounded ⟨0x4050000000000000#64, 0xC050000000000000#64, 0#64, 0#64, 0#64, 0#64, 0#64⟩ = true ∧
    pinkBounded nearlyFull.noise.b = true ∧ step nearlyFull = .next (after (step nearlyFull)) :=
  ⟨by decide +kernel, by decide +kernel, next_after (by decide +kernel)⟩

theorem test_witness_SetGateActsOnEdgesOnly : base.mods.gate = false ∧ p6.mods.gate = true := by
  decide +kernel

theorem test_witness_EnvelopeSettersStoreClampedParameters :
    isNaN 0x7FF8000000000000#64 = true ∧ isNaN negZero = false ∧ isNaN (infinity false) = false ∧
    isNaN one = false := by decide +kernel

theorem test_witness_ReleaseSettersStoreClampedTime :
    isNaN 0x7FF8000000000000#64 = true ∧ isNaN negZero = false ∧ isNaN (infinity false) = false := by
  decide +kernel

/-- Both sides of every threshold are met: R180's test at the rate and times of E3. -/
theorem test_witness_EnvelopeStepFollowsTheStageRules :
    Envelope.atReset.stage = .idle ∧ p6.mods.fenv.stage = .attack ∧
    flt (fabs (fsub one one)) litSnap = true ∧ flt (fabs (fsub one litHalf)) litSnap = false ∧
    fle litSnap litSnap = true ∧ fle litHalf litSnap = false ∧
    one = fadd zero (fmul (fsub one zero) (fmin (fdiv one zero) one)) ∧
    litHalf = fadd zero (fmul (fsub one zero) (fmin (fdiv one litTwo) one)) := by decide +kernel

theorem test_witness_StepKeepsGateAndStagesTogether :
    gateLegal p6.mods = true ∧ gateLegal nearlyFull.mods = true ∧
    step nearlyFull = .next (after (step nearlyFull)) :=
  ⟨by decide +kernel, by decide +kernel, next_after (by decide +kernel)⟩

theorem test_witness_EnvelopeValueStaysInUnitInterval :
    fle zero zero = true ∧ fle zero (infinity false) = true ∧
    envLegal { Envelope.atReset with attack := infinity false, sustain := one } = true ∧
    inUnit one = true ∧ inUnit zero = true := by decide +kernel

theorem test_witness_SetCutoffStoresUnclamped :
    isNaN 0x7FF0000000000001#64 = true ∧ isNaN (infinity true) = false := by decide +kernel

theorem test_witness_DynamicCutoffAndCoefficientRanges :
    isNaN (infinity true) = false ∧ inUnit one = true ∧ inUnit zero = true ∧
    between litCutoffMin litCutoffMax litCutoffMin = true ∧
    between litCutoffMin litCutoffMax litCutoffMax = true ∧
    legalRate 0x0004000000000001#64 = true ∧ legalRate 0x7FEFFFFFFFFFFFFF#64 = true := by decide +kernel

theorem test_witness_LadderStaysBounded :
    LawfulNumerics tableNum ∧ between zero litMaxCoeff litMaxCoeff = true ∧ inOne negOne = true ∧
    ladderBounded ⟨one, negOne, one, negOne⟩ = true :=
  ⟨tableNum_lawful, by decide +kernel, by decide +kernel, by decide +kernel⟩

theorem test_witness_SetRateStoresALegalRate :
    isNaN 0x7FF8000000000000#64 = true ∧
    (isNaN 0x0004000000000000#64 = false ∧
      (isFinite 0x0004000000000000#64 && flt zero 0x0004000000000000#64 &&
        isFinite (fdiv one 0x0004000000000000#64)) = false) ∧
    isFinite 0x0004000000000001#64 = true ∧ flt zero 0x0004000000000001#64 = true ∧
    isFinite (fdiv one 0x0004000000000001#64) = true := by decide +kernel

/-- U5's vector: 5.9e10 Hz at a rate of 1e-300. -/
theorem test_witness_TickIsRefusedWithoutRateOrFiniteIncrement :
    base.pipe.rateSet = false ∧
    ∃ s : State, s.pipe = { rateSet := true, sampleRate := some 0x01A56E1FC2F8F359#64 } ∧
      ∃ v ∈ s.voices, isFinite (fdiv v.frequency 0x01A56E1FC2F8F359#64) = false :=
  ⟨rfl, { rated with
      pipe := { rateSet := true, sampleRate := some 0x01A56E1FC2F8F359#64 }
      voices := [{ Voice.atReset with frequency := 0x422B79591C000000#64 }] },
    rfl, { Voice.atReset with frequency := 0x422B79591C000000#64 }, by decide +kernel, by decide +kernel⟩

theorem test_witness_TickProducesOneSample :
    rated.pipe = { rateSet := true, sampleRate := some 0x40E7700000000000#64 } ∧
    (∀ v ∈ rated.voices, isFinite (fdiv v.frequency 0x40E7700000000000#64) = true) ∧
    rated.ring.cursor < rated.cfg.ringN ∧ rated.voices[2]? = some Voice.atReset ∧
    nearlyFull.ring.cursor + 1 = nearlyFull.cfg.ringN := by decide +kernel

theorem test_witness_OutputClampBoundsTheSample :
    isFinite 0x3FEF5C28F5C28F5C#64 = true ∧ flt zero 0x3FEF5C28F5C28F5C#64 = true ∧
    isNaN (infinity true) = false ∧ flt 0x3FEF5C28F5C28F5C#64 one = true ∧
    flt negOne (fsub zero 0x3FEF5C28F5C28F5C#64) = true ∧
    between (0x3FEF5C28F5C28F5C#64 ||| 0x8000000000000000#64) 0x3FEF5C28F5C28F5C#64 0x3FEF5C28F5C28F5C#64
      = true := by decide +kernel

theorem test_witness_SilentAfterReset :
    cfgLegal cfg = true ∧ legalRate 0x40E7700000000000#64 = true ∧
    isFinite (fdiv 0x404B800000000000#64 0x40E7700000000000#64) = true := by decide +kernel

/-- A full ring whose cursor is not at its start. -/
def fullRing : Ring :=
  { mem := [(0, 5#64), (1, 2#64), (2, 3#64), (3, 4#64)], cursor := 1, filled := true }

theorem test_witness_SnapRespondsTheValidSlotsOldestFirst :
    ringLegal 4 fullRing = true ∧ ringLegal base.cfg.ringN base.ring = true ∧
    ringLegal nearlyFull.cfg.ringN nearlyFull.ring = true ∧ 2 ^ 64 - 1 < 2 ^ 64 := by decide +kernel

theorem test_witness_SnapReturnsTheMostRecentPushes :
    1 ≤ 4 ∧ pushAll 4 [1#64, 2#64, 3#64, 4#64, 5#64] { mem := [], cursor := 0, filled := false }
      = some fullRing ∧
    ({ base with ring := fullRing } : State).cfg.ringN = 4 := by decide +kernel

theorem test_witness_StepKeepsTheRingLegal :
    1 ≤ nearlyFull.cfg.ringN ∧ ringLegal nearlyFull.cfg.ringN nearlyFull.ring = true ∧
    step nearlyFull = .next (after (step nearlyFull)) :=
  ⟨by decide +kernel, by decide +kernel, next_after (by decide +kernel)⟩

theorem test_witness_ConfigurationNeverChanges :
    step nearlyFull = .next (after (step nearlyFull)) := next_after (by decide +kernel)

theorem test_witness_OnlyTickAndSnapRespond :
    2 ^ 64 - 1 < 2 ^ 64 ∧ (lengthWord (2 ^ 64 - 1)).toNat = 2 ^ 64 - 1 ∧
    exec .tick rated = .next (after (exec .tick rated)) ∧
    exec .snap base = .next (after (exec .snap base)) ∧ Instr.nop ≠ .tick ∧ Instr.nop ≠ .snap ∧
    exec .nop base = .next base :=
  ⟨by decide, by decide +kernel, next_after (by decide +kernel), next_after (by decide +kernel), by decide, by decide, rfl⟩

theorem test_witness_WritersOfVoiceAndMixerRegisters :
    exec (.setvolt 1 one) base = .next (after (exec (.setvolt 1 one) base)) ∧
    (voiceAt (after (exec (.setvolt 1 one) base)) 1).voltage ≠ (voiceAt base 1).voltage ∧
    exec (.setoscen 2 true) base = .next (after (exec (.setoscen 2 true) base)) ∧
    (after (exec (.setoscen 2 true) base)).mixer.oscEn[2]? ≠ base.mixer.oscEn[2]? :=
  ⟨next_after (by decide +kernel), by decide +kernel, next_after (by decide +kernel), by decide +kernel⟩

theorem test_witness_WritersOfModifierRegisters :
    exec (.setgate true) base = .next (after (exec (.setgate true) base)) ∧
    (after (exec (.setgate true) base)).mods.gate ≠ base.mods.gate ∧
    (after (exec (.setgate true) base)).mods.lenv.stage ≠ base.mods.lenv.stage :=
  ⟨next_after (by decide +kernel), by decide +kernel, by decide +kernel⟩

theorem test_witness_WritersOfPipelineAndRing :
    exec .tick nearlyFull = .next (after (exec .tick nearlyFull)) ∧
    (after (exec .tick nearlyFull)).ring ≠ nearlyFull.ring ∧
    ringWord (after (exec .tick nearlyFull)) 3 ≠ ringWord nearlyFull 3 ∧ fullRing.filled = true :=
  ⟨next_after (by decide +kernel), by decide +kernel, by decide +kernel, rfl⟩

theorem test_witness_OneBitElementsChangeOnlyByTheirCommands :
    exec .tick nearlyFull = .next (after (exec .tick nearlyFull)) ∧
    (∀ on vi x, Instr.tick ≠ .setoscen vi on ∧ Instr.tick ≠ .setnoiseen on ∧ Instr.tick ≠ .setgate on ∧
      Instr.tick ≠ .setrate x) ∧
    oneBitElements (after (exec .tick nearlyFull)) ≠ oneBitElements nearlyFull :=
  ⟨next_after (by decide +kernel), by simp, by decide +kernel⟩

theorem test_witness_OperationsCompleteUnlessListed :
    invariant rated = true ∧ accepted .tick rated = true ∧ accepted (.setrate negZero) rated = false ∧
    invariant base = true ∧ accepted .tick base = false := by decide +kernel

theorem test_witness_StepKeepsTheInvariant :
    invariant nearlyFull = true ∧ step nearlyFull = .next (after (step nearlyFull)) :=
  ⟨by decide +kernel, next_after (by decide +kernel)⟩

theorem test_witness_ResetMeetsTheInvariant :
    cfgLegal cfg = true ∧ cfgLegal Config.params = true := by decide +kernel

theorem test_witness_NoRegisterHoldsANaN :
    invariant nearlyFull = true ∧ 0#64 ∈ numericRegisters nearlyFull := by decide +kernel

end Sys2Proof.Tests
end

section
/-! SUPPORT. Rounding to nearest, ties to even (R9): what `roundEven`, `roundBits` and `pack` give,
against every other number. -/

namespace Sys2Proof.Machine

/-! ### `roundEven` gives the nearest integer -/

/-- No integer is nearer to `n / d` than `roundEven n d`, and where another is as near, it is even. -/
theorem roundEven_nearest (n : Nat) {d : Nat} (hd : 0 < d) (j : Int) :
    |(roundEven n d : Int) * d - n| ≤ |j * d - n| ∧
      (|j * d - n| = |(roundEven n d : Int) * d - n| → j ≠ roundEven n d →
        roundEven n d % 2 = 0) := by
  obtain ⟨i, rfl⟩ : ∃ i : Int, j = (n / d : Nat) + i := ⟨j - (n / d : Nat), by ring⟩
  have hdiv : (n : Int) = (n / d : Nat) * d + (n % d : Nat) := by
    exact_mod_cast (Nat.div_add_mod' n d).symm
  have hmod := Nat.mod_lt n hd
  have hi : (i ≤ -1 ∧ i * d ≤ -d) ∨ (i = 0 ∧ i * d = 0) ∨ (i = 1 ∧ i * d = d) ∨
      (2 ≤ i ∧ 2 * d ≤ i * d) := by
    rcases (by omega : i ≤ -1 ∨ i = 0 ∨ i = 1 ∨ 2 ≤ i) with h | rfl | rfl | h
    · exact .inl ⟨h, by nlinarith⟩
    · simp
    · simp
    · exact .inr (.inr (.inr ⟨h, by nlinarith⟩))
  simp only [roundEven]
  generalize n % d = r at *
  generalize n / d = q at *
  have hj : ((q : Int) + i) * d - n = i * d - r := by rw [hdiv]; ring
  have hdown : (q : Int) * d - n = -r := by rw [hdiv]; ring
  have hup : ((q + 1 : Nat) : Int) * d - n = d - r := by rw [hdiv]; push_cast; ring
  rw [hj]
  split_ifs with hlow hhigh
  · simp only [hdown, Int.abs_eq_natAbs]
    omega
  · simp only [hup, Int.abs_eq_natAbs]
    omega
  · rcases Nat.mod_two_eq_zero_or_one q with hq | hq
    · simp only [hq, Nat.add_zero, hdown, Int.abs_eq_natAbs, implies_true, and_true]
      omega
    · simp only [hq, hup, Int.abs_eq_natAbs]
      omega

/-- Rounding reaches an even `c` from the midpoint below it on. -/
theorem le_roundEven_iff {c n d : Nat} (hd : 0 < d) (hc : c % 2 = 0) :
    c ≤ roundEven n d ↔ 2 * (c * d) ≤ 2 * n + d := by
  have hdiv := Nat.div_add_mod' n d
  have hmod := Nat.mod_lt n hd
  simp only [roundEven]
  generalize n % d = r at *
  generalize n / d = q at *
  rcases (by omega : c ≤ q ∨ c = q + 1 ∨ q + 2 ≤ c) with h | rfl | h
  · have := Nat.mul_le_mul_right d h
    refine iff_of_true ?_ (by omega)
    split_ifs <;> omega
  · have := Nat.add_one_mul q d
    split_ifs <;> omega
  · have := Nat.mul_le_mul_right d h
    rw [Nat.add_mul] at this
    refine iff_of_false ?_ (by omega)
    split_ifs <;> omega

/-! ### The value of a rounded encoding -/

/-- The binary places that rounding `n / d` to a significand of 53 bits drops. -/
def droppedPlaces (n d : Nat) : Nat := Nat.log2 (n / d) - 52

/-- The significand that rounding keeps. -/
def significand (n d : Nat) : Nat := roundEven n (d * 2 ^ droppedPlaces n d)

theorem roundBits_eq (n d : Nat) :
    roundBits n d = min (droppedPlaces n d * 2 ^ 52 + significand n d) infBits := rfl

theorem bitsUnits_add {e k : Nat} (hk : k ≤ 2 ^ 53) (he : 0 < e → 2 ^ 52 ≤ k) :
    bitsUnits (e * 2 ^ 52 + k) = k * 2 ^ e := by
  rcases (by omega : k < 2 ^ 52 ∨ (2 ^ 52 ≤ k ∧ k < 2 ^ 53) ∨ k = 2 ^ 53) with h | ⟨_, _⟩ | rfl
  · obtain rfl : e = 0 := by omega
    rw [bitsUnits, if_pos (by omega)]
    omega
  · rw [bitsUnits, if_neg (by omega), show (e * 2 ^ 52 + k) / 2 ^ 52 - 1 = e by omega,
      show 2 ^ 52 + (e * 2 ^ 52 + k) % 2 ^ 52 = k by omega]
  · rw [bitsUnits, if_neg (by omega), show (e * 2 ^ 52 + 2 ^ 53) / 2 ^ 52 - 1 = e + 1 by omega,
      show 2 ^ 52 + (e * 2 ^ 52 + 2 ^ 53) % 2 ^ 52 = 2 ^ 52 by omega]
    ring

theorem bitsUnits_roundBits {n d : Nat} (h : roundBits n d < infBits) :
    bitsUnits (roundBits n d) = significand n d * 2 ^ droppedPlaces n d := by
  rw [roundBits_eq] at h ⊢
  rw [min_eq_left (by omega)]
  exact bitsUnits_add (significand_le n d) significand_ge

theorem roundBits_mod_two {n d : Nat} (h : roundBits n d < infBits) :
    roundBits n d % 2 = significand n d % 2 := by
  rw [roundBits_eq] at h ⊢
  omega

/-- Where places are dropped, `n / d` has at least 53 bits. -/
theorem le_of_droppedPlaces_pos {n d : Nat} (h : 0 < droppedPlaces n d) :
    2 ^ 52 * 2 ^ droppedPlaces n d * d ≤ n := by
  have hq : n / d ≠ 0 := by
    intro h0; simp [droppedPlaces, h0] at h
  refine (Nat.mul_le_mul_right d ?_).trans (Nat.div_mul_le_self n d)
  refine le_trans ?_ (Nat.log2_self_le hq)
  rw [← pow_add]
  exact Nat.pow_le_pow_right (by decide) (by unfold droppedPlaces at *; omega)

theorem lt_of_droppedPlaces (n : Nat) {d : Nat} (hd : 0 < d) :
    n < 2 ^ 53 * 2 ^ droppedPlaces n d * d := by
  rw [← Nat.div_lt_iff_lt_mul hd, ← pow_add]
  exact Nat.lt_log2_self.trans_le (Nat.pow_le_pow_right (by decide) (by unfold droppedPlaces; omega))

/-- Rounding overflows exactly from the midpoint between the largest finite number and `2^1024` on. -/
theorem roundBits_lt_infBits_iff {n d : Nat} (hd : 0 < d) :
    roundBits n d < infBits ↔ n < (2 ^ 54 - 1) * 2 ^ 2044 * d := by
  have hinf : infBits = 2047 * 2 ^ 52 := rfl
  have hlo := le_of_droppedPlaces_pos (n := n) (d := d)
  have hhi := lt_of_droppedPlaces n hd
  have hk : significand n d ≤ 2 ^ 53 := significand_le n d
  have hk' : 0 < droppedPlaces n d → 2 ^ 52 ≤ significand n d := significand_ge
  have hmono := fun i j (h : i ≤ j) => Nat.mul_le_mul_right d (Nat.pow_le_pow_right two_pos h)
  have h2045 : 2 ^ 2045 * d = 2 * (2 ^ 2044 * d) := by rw [pow_succ' 2 2044, Nat.mul_assoc]
  have h2046 : 2 ^ 2046 * d = 2 * (2 ^ 2045 * d) := by rw [pow_succ' 2 2045, Nat.mul_assoc]
  rw [roundBits_eq]
  rw [Nat.mul_assoc] at hlo hhi ⊢
  rcases lt_trichotomy (droppedPlaces n d) 2045 with h | h | h
  · have := hmono (droppedPlaces n d) 2044 (by omega)
    exact iff_of_true (by omega) (by omega)
  · have hmid : 2 ^ 53 ≤ significand n d ↔ _ :=
      le_roundEven_iff (d := d * 2 ^ droppedPlaces n d) (by positivity) (by norm_num)
    rw [h] at hmid ⊢
    rw [Nat.mul_comm d] at hmid
    omega
  · have := hmono 2046 (droppedPlaces n d) (by omega)
    exact iff_of_false (by omega) (by omega)

/-! ### The nearest number -/

/-- Every magnitude is a significand of at most 53 bits at some place. -/
theorem bitsUnits_eq_mul_pow (b : Nat) : ∃ m < 2 ^ 53, bitsUnits b = m * 2 ^ (b / 2 ^ 52 - 1) := by
  unfold bitsUnits
  split
  · next h => exact ⟨b % 2 ^ 52, by omega, by rw [h]; simp⟩
  · exact ⟨2 ^ 52 + b % 2 ^ 52, by omega, rfl⟩

/-- A significand of 53 bits at some place is a multiple of `2^k`, or below `2^(52 + k)`. -/
theorem dvd_or_mul_pow_lt {m : Nat} (hm : m < 2 ^ 53) (e k : Nat) :
    2 ^ k ∣ m * 2 ^ e ∨ m * 2 ^ e < 2 ^ 52 * 2 ^ k := by
  rcases le_or_gt k e with h | h
  · exact .inl ((pow_dvd_pow 2 h).mul_left m)
  · refine .inr ?_
    calc m * 2 ^ e < 2 ^ 53 * 2 ^ e := Nat.mul_lt_mul_of_pos_right hm (by positivity)
      _ = 2 ^ 52 * 2 ^ (e + 1) := by rw [← pow_add, ← pow_add]; congr 1; omega
      _ ≤ 2 ^ 52 * 2 ^ k := Nat.mul_le_mul_left _ (Nat.pow_le_pow_right two_pos h)

theorem dvd_or_units_lt (y : F64) (e : Nat) :
    (2 ^ e : Int) ∣ units y ∨ |units y| < 2 ^ 52 * 2 ^ e := by
  have habs : |units y| = (bitsUnits (magBits y) : Int) := by
    unfold units; split <;> simp [magUnits_eq]
  obtain ⟨m, hm, hmag⟩ := bitsUnits_eq_mul_pow (magBits y)
  rw [← dvd_abs, habs, hmag]
  exact_mod_cast dvd_or_mul_pow_lt hm _ e

/-- Among the multiples of the last place kept, the rounding is the nearest; `roundEven_nearest` at that
place. -/
theorem significand_nearest (n : Nat) {d : Nat} (hd : 0 < d) (j : Int) :
    |(significand n d : Int) * 2 ^ droppedPlaces n d * d - n| ≤ |j * 2 ^ droppedPlaces n d * d - n| ∧
      (|j * 2 ^ droppedPlaces n d * d - n|
          = |(significand n d : Int) * 2 ^ droppedPlaces n d * d - n| →
        j ≠ significand n d → significand n d % 2 = 0) := by
  have hnear := roundEven_nearest n (d := d * 2 ^ droppedPlaces n d) (by positivity) j
  have hscale : ∀ k : Int, k * ((d * 2 ^ droppedPlaces n d : Nat) : Int)
      = k * 2 ^ droppedPlaces n d * d := fun k => by push_cast; ring
  simp only [hscale] at hnear
  exact hnear

/-- No finite number is nearer to `n / d` than the rounding, and where another is as near, the rounding
is even. A number that is no multiple of the last place kept lies below the least significand of 53 bits,
and so below `n / d` and farther from it than that significand. -/
theorem roundBits_nearest {n d : Nat} (hd : 0 < d) (hfin : roundBits n d < infBits) {z : Int}
    (hz : ∀ e : Nat, (2 ^ e : Int) ∣ z ∨ |z| < 2 ^ 52 * 2 ^ e) :
    |(bitsUnits (roundBits n d) : Int) * d - n| ≤ |z * d - n| ∧
      (|z * d - n| = |(bitsUnits (roundBits n d) : Int) * d - n| → z ≠ bitsUnits (roundBits n d) →
        roundBits n d % 2 = 0) := by
  have hnear := significand_nearest n hd
  have hlo := le_of_droppedPlaces_pos (n := n) (d := d)
  rw [roundBits_mod_two hfin, bitsUnits_roundBits hfin]
  push_cast
  have hcase : (2 ^ droppedPlaces n d : Int) ∣ z ∨
      (0 < droppedPlaces n d ∧ |z| < 2 ^ 52 * 2 ^ droppedPlaces n d) := by
    rcases Nat.eq_zero_or_pos (droppedPlaces n d) with h0 | h0
    · simp [h0]
    · exact (hz _).imp_right fun h => ⟨h0, h⟩
  rcases hcase with ⟨j, rfl⟩ | ⟨h0, hsmall⟩
  · rw [mul_comm _ j]
    obtain ⟨hle, heven⟩ := hnear j
    exact ⟨hle, fun h hne => heven h fun hj => hne (by rw [hj])⟩
  · have hfar : |(2 ^ 52 : Int) * 2 ^ droppedPlaces n d * d - n| < |z * d - n| := by
      have hlo' : (2 ^ 52 : Int) * 2 ^ droppedPlaces n d * d ≤ n := by exact_mod_cast hlo h0
      have := mul_lt_mul_of_pos_right (lt_of_abs_lt hsmall) (Int.natCast_pos.2 hd)
      rw [abs_of_nonpos (by omega), abs_of_nonpos (by omega)]
      omega
    have hlt := (hnear (2 ^ 52)).1.trans_lt hfar
    exact ⟨hlt.le, fun h => absurd h hlt.ne'⟩

/-! ### `pack` rounds to nearest, ties to even -/

theorem getLsbD_zero_pack (neg : Bool) (n d : Nat) :
    (pack neg n d).getLsbD 0 = decide (roundBits n d % 2 = 1) := by
  have h := toNat_withSign (neg := neg) (roundBits_lt n d)
  rw [BitVec.getLsbD, Nat.testBit_zero, pack, h]
  cases neg
  · simp
  · simp; omega

theorem units_pack (neg : Bool) (n d : Nat) : units (pack neg n d)
    = if neg then -(bitsUnits (roundBits n d) : Int) else bitsUnits (roundBits n d) := by
  simp [units, magUnits_eq]

/-- R9: `pack` gives the number that IEEE 754 asks of the ratio `n / d` with a sign. -/
theorem pack_roundsToNearestEven (neg : Bool) (n : Nat) {d : Nat} (hd : 0 < d) :
    RoundsToNearestEven (pack neg n d) neg (if neg then -(n : Int) else n) d := by
  have hfin : isFinite (pack neg n d) = true ↔ roundBits n d < infBits := by simp [isFinite]
  refine ⟨isNaN_pack _ _ _, signBit_pack _ _ _, ?_, fun h y _ => ?_⟩
  · rw [hfin, roundBits_lt_infBits_iff hd, Nat.abs_cast]
    have habs : |if neg then -(n : Int) else n| = n := by cases neg <;> simp
    rw [habs, ← Int.ofNat_lt, Nat.cast_mul, Nat.cast_mul, Nat.cast_pow]
    rfl
  · have hy := dvd_or_units_lt y
    have hbit : (pack neg n d).getLsbD 0 = false ↔ roundBits n d % 2 = 0 := by
      rw [getLsbD_zero_pack]; simp
    rw [hbit, units_pack]
    cases neg
    · simpa using roundBits_nearest hd (hfin.1 h) hy
    · have hflip : ∀ u : Int, |-u * d - n| = |u * d - -n| := fun u => by
        rw [← abs_neg]; congr 1; ring
      have := roundBits_nearest hd (hfin.1 h) (z := -units y) (by simpa using hy)
      rw [← neg_neg ((bitsUnits (roundBits n d) : Nat) : Int), hflip, hflip] at this
      simpa [neg_eq_iff_eq_neg] using this

end Sys2Proof.Machine
end

section
/-! CERTIFICATE. The four operations are those of IEEE 754 (R9): O10. -/

namespace Sys2Proof.Machine

/-! ### The kinds of number -/

theorem isInf_iff {x : F64} : isInf x = true ↔ magBits x = infBits := by simp [isInf]

theorem isNaN_of_isInf {x : F64} (h : isInf x = true) : isNaN x = false := by
  simp [isNaN, isInf_iff.1 h]

theorem isZero_of_isInf {x : F64} (h : isInf x = true) : isZero x = false := by
  simp [isZero, isInf_iff.1 h, infBits]

@[simp] theorem isInf_fneg (x : F64) : isInf (fneg x) = isInf x := by simp [isInf]

theorem isInfWith_infinity (neg : Bool) : isInfWith neg (infinity neg) = true := by
  cases neg <;> decide

theorem isZeroWith_zero (neg : Bool) : isZeroWith neg (withSign neg 0) = true := by
  cases neg <;> decide

/-- An invalid operation's result is a NaN, whatever sign and payload it has (log 6): the exponent
field and the quiet bit are set. -/
theorem isNaN_quietNaN (a b : F64) : isNaN (quietNaN a b) = true := by
  have h : 0x7FF8000000000000 ≤ magBits (quietNaN a b) := by
    unfold magBits quietNaN
    rw [BitVec.toNat_or, Nat.or_mod_two_pow]
    exact Nat.left_le_or
  have hinf : infBits < 0x7FF8000000000000 := by decide
  simpa [isNaN] using hinf.trans_le h

theorem magUnits_pos_of_isZero {x : F64} (hx : isFinite x = true) (h0 : isZero x = false) :
    0 < magUnits x := by
  have h1 : magBits x < infBits := by simpa [isFinite] using hx
  have h2 : 0 < magBits x := Nat.pos_of_ne_zero (by simpa [isZero] using h0)
  rw [magUnits_eq, ← bitsUnits_zero]
  exact (bitsUnits_lt_iff (by decide) h1).2 h2

/-! ### The operations on numbers -/

/-- A sum is the rounding of its exact value, zero included. -/
theorem packSum_eq_pack (z : Int) (bothNeg : Bool) :
    packSum z bothNeg = pack (sumSign z bothNeg) z.natAbs 1 := by
  unfold packSum sumSign
  split
  · next h =>
    rw [h, pack, Int.natAbs_zero, roundBits_zero]
    cases bothNeg <;> rfl
  · rfl

/-- A sum's magnitude under its sign is the sum. -/
theorem signed_natAbs (z : Int) (bothNeg : Bool) :
    (if sumSign z bothNeg then -(z.natAbs : Int) else z.natAbs) = z := by
  rcases lt_trichotomy z 0 with h | rfl | h
  · simp [sumSign, h, h.ne, abs_of_neg h]
  · simp
  · simp [sumSign, h.ne', h.not_gt, abs_of_pos h]

theorem packSum_roundsToNearestEven (z : Int) (bothNeg : Bool) :
    RoundsToNearestEven (packSum z bothNeg) (sumSign z bothNeg) z 1 := by
  have h := pack_roundsToNearestEven (sumSign z bothNeg) z.natAbs one_pos
  rw [signed_natAbs, ← packSum_eq_pack] at h
  exact_mod_cast h

theorem fadd_roundsToNearestEven {a b : F64} (ha : isFinite a = true) (hb : isFinite b = true) :
    RoundsToNearestEven (fadd a b) (sumSign (units a + units b) (signBit a && signBit b))
      (units a + units b) 1 := by
  rw [fadd_finite ha hb]
  exact packSum_roundsToNearestEven _ _

theorem fsub_roundsToNearestEven {a b : F64} (ha : isFinite a = true) (hb : isFinite b = true) :
    RoundsToNearestEven (fsub a b) (sumSign (units a - units b) (signBit a && !signBit b))
      (units a - units b) 1 := by
  have h := fadd_roundsToNearestEven ha (b := fneg b) (by simpa using hb)
  rwa [units_fneg, signBit_fneg, ← sub_eq_add_neg] at h

theorem fmul_roundsToNearestEven {a b : F64} (ha : isFinite a = true) (hb : isFinite b = true) :
    RoundsToNearestEven (fmul a b) (signBit a != signBit b) (units a * units b) oneUnits := by
  have h := pack_roundsToNearestEven (signBit a != signBit b) (magUnits a * magUnits b) oneUnits_pos
  have hz : (if signBit a != signBit b then -((magUnits a * magUnits b : Nat) : Int)
      else (magUnits a * magUnits b : Nat)) = units a * units b := by
    unfold units
    cases signBit a <;> cases signBit b <;> simp
  rwa [hz, ← fmul_finite ha hb] at h

/-- The exact result `n / d` is the same with both signs turned. -/
theorem RoundsToNearestEven.neg_neg {r : F64} {neg : Bool} {n d : Int}
    (h : RoundsToNearestEven r neg n d) : RoundsToNearestEven r neg (-n) (-d) := by
  have hflip : ∀ u : Int, |u * -d - -n| = |u * d - n| := fun u => by
    rw [← abs_neg]; congr 1; ring
  unfold RoundsToNearestEven
  simp only [hflip, abs_neg]
  exact h

theorem fdiv_roundsToNearestEven {a b : F64} (ha : isFinite a = true) (hb : isFinite b = true)
    (h0 : isZero b = false) :
    RoundsToNearestEven (fdiv a b) (signBit a != signBit b) (units a * oneUnits) (units b) := by
  have h := pack_roundsToNearestEven (signBit a != signBit b) (magUnits a * oneUnits)
    (magUnits_pos_of_isZero hb h0)
  rw [← fdiv_finite ha hb h0] at h
  unfold units
  generalize oneUnits = o at *
  cases hsb : signBit b
  · cases hsa : signBit a <;> simpa [hsa, hsb] using h
  · cases hsa : signBit a <;> simpa [hsa, hsb] using h.neg_neg

/-! ### Zero divisors, infinities and NaNs -/

theorem fdiv_zero {a b : F64} (ha : isFinite a = true) (hb : isFinite b = true)
    (hb0 : isZero b = true) :
    fdiv a b = if isZero a then quietNaN a b else infinity (signBit a != signBit b) := by
  simp [fdiv, isNaN_of_isFinite ha, isNaN_of_isFinite hb, isInf_of_isFinite ha,
    isInf_of_isFinite hb, hb0]

theorem fadd_inf_left {a b : F64} (ha : isInf a = true) (hb : isFinite b = true) : fadd a b = a := by
  simp [fadd, isNaN_of_isInf ha, isNaN_of_isFinite hb, ha, isInf_of_isFinite hb]

theorem fadd_inf_right {a b : F64} (ha : isFinite a = true) (hb : isInf b = true) : fadd a b = b := by
  simp [fadd, isNaN_of_isInf hb, isNaN_of_isFinite ha, hb, isInf_of_isFinite ha]

theorem fadd_inf_inf {a b : F64} (ha : isInf a = true) (hb : isInf b = true) :
    fadd a b = if signBit a = signBit b then a else quietNaN a b := by
  simp only [fadd, isNaN_of_isInf ha, isNaN_of_isInf hb, ha, hb]
  cases signBit a <;> cases signBit b <;> simp

theorem fmul_inf_left {a b : F64} (ha : isInf a = true) (hb : isNaN b = false) :
    fmul a b = if isZero b then quietNaN a b else infinity (signBit a != signBit b) := by
  simp [fmul, isNaN_of_isInf ha, hb, ha]

theorem fmul_inf_right {a b : F64} (ha : isFinite a = true) (hb : isInf b = true) :
    fmul a b = if isZero a then quietNaN a b else infinity (signBit a != signBit b) := by
  simp [fmul, isNaN_of_isInf hb, isNaN_of_isFinite ha, hb, isInf_of_isFinite ha]

theorem fdiv_inf_left {a b : F64} (ha : isInf a = true) (hb : isNaN b = false) :
    fdiv a b = if isInf b then quietNaN a b else infinity (signBit a != signBit b) := by
  simp [fdiv, isNaN_of_isInf ha, hb, ha]

theorem fdiv_inf_right {a b : F64} (ha : isFinite a = true) (hb : isInf b = true) :
    fdiv a b = withSign (signBit a != signBit b) 0 := by
  simp [fdiv, isNaN_of_isInf hb, isNaN_of_isFinite ha, hb, isInf_of_isFinite ha]

theorem isInfWith_fneg {a : F64} (ha : isInf a = true) : isInfWith (!signBit a) (fneg a) = true := by
  simp [isInfWith, ha]

/-- Every operation on a NaN gives a NaN. -/
theorem operations_isNaN_of_isNaN {a b : F64} (h : isNaN a = true ∨ isNaN b = true) :
    isNaN (fadd a b) = true ∧ isNaN (fsub a b) = true ∧ isNaN (fmul a b) = true ∧
      isNaN (fdiv a b) = true := by
  have hor : (isNaN a || isNaN b) = true := by simpa using h
  simp [fadd, fsub, fmul, fdiv, hor, isNaN_quietNaN]

/-- Settles O10: on finite numbers every operation is a `pack` of its exact result
(`pack_roundsToNearestEven`); the other cases are read off the operations' equations above. -/
theorem arithmeticRoundsToNearestEven : Obligations.ArithmeticRoundsToNearestEven := by
  refine ⟨fun a b ha hb => ?finite, fun a b ha hb => ?infFinite, fun a b ha hb => ?infInf,
    fun a b h => operations_isNaN_of_isNaN h⟩
  case finite =>
    refine ⟨fadd_roundsToNearestEven ha hb, fsub_roundsToNearestEven ha hb,
      fmul_roundsToNearestEven ha hb, fdiv_roundsToNearestEven ha hb, fun hb0 ha0 => ?_,
      fun hb0 ha0 => ?_⟩
    · simpa [fdiv_zero ha hb hb0, ha0] using isInfWith_infinity _
    · simp [fdiv_zero ha hb hb0, ha0, isNaN_quietNaN]
  case infFinite =>
    have hbn := isNaN_of_isFinite hb
    refine ⟨fadd_inf_left ha hb, fadd_inf_right hb ha, fadd_inf_left ha (by simpa using hb), ?_,
      ?_, ?_, fun hb0 => ?_, fun hb0 => ?_⟩
    · rw [fsub, fadd_inf_right hb (by simpa using ha)]
      exact isInfWith_fneg ha
    · simpa [fdiv_inf_left ha hbn, isInf_of_isFinite hb] using isInfWith_infinity _
    · simpa [fdiv_inf_right hb ha] using isZeroWith_zero _
    · simpa [fmul_inf_left ha hbn, fmul_inf_right hb ha, hb0] using
        ⟨isInfWith_infinity _, isInfWith_infinity _⟩
    · simp [fmul_inf_left ha hbn, fmul_inf_right hb ha, hb0, isNaN_quietNaN]
  case infInf =>
    have hbn := isNaN_of_isInf hb
    have hsub : fsub a b = if signBit a = !signBit b then a else quietNaN a (fneg b) := by
      rw [fsub, fadd_inf_inf ha (by simpa using hb), signBit_fneg]
    refine ⟨?_, ?_, fun hs => ?_, fun hs => ?_⟩
    · simpa [fmul_inf_left ha hbn, isZero_of_isInf hb] using isInfWith_infinity _
    · simp [fdiv_inf_left ha hbn, hb, isNaN_quietNaN]
    · simp [fadd_inf_inf ha hb, hsub, hs, isNaN_quietNaN]
    · simp [fadd_inf_inf ha hb, hsub, hs, isNaN_quietNaN]

end Sys2Proof.Machine
end

section
/-! CERTIFICATE. Comparisons, `ffloor` and `frac` (R11): O11. -/

namespace Sys2Proof.Machine

/-! ### Comparisons (R11) -/

theorem compare_finite {a b : F64} (ha : isFinite a = true) (hb : isFinite b = true) :
    flt a b = decide (units a < units b) ∧ fle a b = decide (units a ≤ units b) ∧
      feq a b = decide (units a = units b) := by
  have hna := isNaN_of_isFinite ha
  have hnb := isNaN_of_isFinite hb
  have heq : units a = units b ↔ orderKey a = orderKey b := by
    rw [le_antisymm_iff, le_antisymm_iff, units_le_iff ha hb, units_le_iff hb ha]
  simp [flt, fle, feq, hna, hnb, units_lt_iff ha hb, units_le_iff ha hb, heq]

theorem compare_isNaN {a b : F64} (h : isNaN a = true ∨ isNaN b = true) :
    flt a b = false ∧ fle a b = false ∧ feq a b = false := by
  rcases h with h | h <;> simp [flt, fle, feq, h]

theorem orderKey_of_isInf {a : F64} (ha : isInf a = true) :
    orderKey a = if signBit a then -(infBits : Int) else infBits := by
  rw [orderKey, isInf_iff.1 ha]

theorem signBit_of_isInf {a : F64} (ha : isInf a = true) : signBit a = decide (orderKey a < 0) := by
  rw [orderKey_of_isInf ha]
  cases signBit a <;> decide

/-- At the place of an infinity stands no other number. -/
theorem orderKey_eq_of_isInf_iff {a b : F64} (ha : isInf a = true) :
    orderKey b = orderKey a ↔ b = a := by
  refine ⟨fun h => ?_, fun h => h ▸ rfl⟩
  have hmag : magBits b = magBits a := by rw [← natAbs_orderKey, h, natAbs_orderKey]
  have hb : isInf b = true := isInf_iff.2 (hmag.trans (isInf_iff.1 ha))
  exact f64_ext (by rw [signBit_of_isInf hb, signBit_of_isInf ha, h]) hmag

theorem compare_isInf {a b : F64} (ha : isInf a = true) (hb : isNaN b = false) :
    feq a b = decide (b = a) ∧ feq b a = decide (b = a) ∧
    (signBit a = false → flt a b = false ∧ flt b a = decide (b ≠ a) ∧ fle a b = decide (b = a) ∧
      fle b a = true) ∧
    (signBit a = true → flt b a = false ∧ flt a b = decide (b ≠ a) ∧ fle b a = decide (b = a) ∧
      fle a b = true) := by
  obtain ⟨hlo, hhi⟩ := (isNaN_iff b).1 hb
  have hkey := orderKey_of_isInf ha
  simp only [← orderKey_eq_of_isInf_iff ha, feq, flt, fle, isNaN_of_isInf ha, hb, Bool.not_false,
    Bool.true_and, decide_eq_decide, decide_eq_false_iff_not, decide_eq_true_eq, ne_eq]
  refine ⟨eq_comm, trivial, fun hs => ?_, fun hs => ?_⟩ <;>
  · simp only [hs, if_true, Bool.false_eq_true, if_false] at hkey
    omega

/-! ### Numbers of 53 significant bits -/

/-- `n` units have a binary64: a significand of 53 bits at a place that the exponent field reaches. -/
def HasFinite (n : Nat) : Prop := ∃ m e, m < 2 ^ 53 ∧ e ≤ 2045 ∧ n = m * 2 ^ e

theorem hasFinite_magUnits {x : F64} (hx : isFinite x = true) : HasFinite (magUnits x) := by
  have hb : magBits x < 2047 * 2 ^ 52 := of_decide_eq_true hx
  obtain ⟨m, hm, hmag⟩ := bitsUnits_eq_mul_pow (magBits x)
  exact ⟨m, _, hm, by omega, hmag⟩

/-- The remainder and the rest of a division by a power of two need no more places. -/
theorem HasFinite.mod {n : Nat} (h : HasFinite n) (k : Nat) : HasFinite (n % 2 ^ k) := by
  obtain ⟨m, e, hm, he, rfl⟩ := h
  rcases le_total k e with hk | hk
  · refine ⟨0, 0, by norm_num, by norm_num, ?_⟩
    rw [Nat.mod_eq_zero_of_dvd ((pow_dvd_pow 2 hk).mul_left m), Nat.zero_mul]
  · refine ⟨m % 2 ^ (k - e), e, (Nat.mod_le _ _).trans_lt hm, he, ?_⟩
    rw [← Nat.mul_mod_mul_right, ← pow_add, Nat.sub_add_cancel hk]

theorem HasFinite.div_mul {n : Nat} (h : HasFinite n) (k : Nat) : HasFinite (n / 2 ^ k * 2 ^ k) := by
  obtain ⟨m, e, hm, he, rfl⟩ := h
  rcases le_total k e with hk | hk
  · refine ⟨m, e, hm, he, ?_⟩
    rw [Nat.div_mul_cancel ((pow_dvd_pow 2 hk).mul_left m)]
  · refine ⟨m / 2 ^ (k - e) * 2 ^ (k - e), e, (Nat.div_mul_le_self _ _).trans_lt hm, he, ?_⟩
    have hpow : 2 ^ k = 2 ^ (k - e) * 2 ^ e := by rw [← pow_add, Nat.sub_add_cancel hk]
    rw [hpow, Nat.mul_div_mul_right _ _ (by positivity), Nat.mul_assoc]

theorem HasFinite.roundBits_lt {n : Nat} (h : HasFinite n) : roundBits n 1 < infBits := by
  obtain ⟨m, e, hm, he, rfl⟩ := h
  rw [roundBits_lt_infBits_iff one_pos, Nat.mul_one]
  calc m * 2 ^ e ≤ m * 2 ^ 2045 := Nat.mul_le_mul_left _ (pow_le_pow_right₀ one_le_two he)
    _ = m * 2 * 2 ^ 2044 := by rw [pow_succ' 2 2044, Nat.mul_assoc]
    _ < (2 ^ 54 - 1) * 2 ^ 2044 := Nat.mul_lt_mul_of_pos_right (by omega) (by positivity)

/-- Rounding is exact on such numbers: no other number is nearer, themselves included. -/
theorem HasFinite.bitsUnits_roundBits {n : Nat} (h : HasFinite n) :
    bitsUnits (roundBits n 1) = n := by
  have hfin := h.roundBits_lt
  obtain ⟨m, e, hm, _, rfl⟩ := h
  have hz : ∀ k : Nat, (2 ^ k : Int) ∣ (m * 2 ^ e : Nat) ∨
      |((m * 2 ^ e : Nat) : Int)| < 2 ^ 52 * 2 ^ k := by
    intro k
    rw [Nat.abs_cast]
    exact_mod_cast dvd_or_mul_pow_lt hm e k
  have hnear := (roundBits_nearest one_pos hfin hz).1
  rw [Nat.cast_one, mul_one, mul_one, sub_self, abs_zero, abs_nonpos_iff, sub_eq_zero] at hnear
  exact_mod_cast hnear

/-! ### `ffloor` and `frac` (R11) -/

theorem isFinite_pack_of_hasFinite (neg : Bool) {n : Nat} (h : HasFinite n) :
    isFinite (pack neg n 1) = true := by
  simpa [isFinite] using h.roundBits_lt

theorem units_pack_of_hasFinite (neg : Bool) {n : Nat} (h : HasFinite n) :
    units (pack neg n 1) = if neg then -(n : Int) else n := by
  rw [units_pack, h.bitsUnits_roundBits]

/-- A sum whose exact value is a number of binary64 is exact. -/
theorem packSum_of_hasFinite {z : Int} (bothNeg : Bool) (h : HasFinite z.natAbs) :
    isFinite (packSum z bothNeg) = true ∧ units (packSum z bothNeg) = z := by
  rw [packSum_eq_pack, units_pack_of_hasFinite _ h, signed_natAbs]
  exact ⟨isFinite_pack_of_hasFinite _ h, rfl⟩

theorem fsub_of_hasFinite {a b : F64} (ha : isFinite a = true) (hb : isFinite b = true)
    (h : HasFinite (units a - units b).natAbs) :
    isFinite (fsub a b) = true ∧ units (fsub a b) = units a - units b := by
  rw [fsub, fadd_finite ha (by simpa using hb), units_fneg, ← sub_eq_add_neg]
  exact packSum_of_hasFinite _ h

/-- A number not below zero in value has its magnitude for its value, `-0.0` included. -/
theorem units_eq_magUnits {x : F64} (h : 0 ≤ units x) : units x = magUnits x := by
  unfold units at h ⊢
  split at h <;> simp_all

/-- The whole multiples of `o` in such a number, under its sign. -/
theorem signed_div_mul {x : F64} (h : 0 ≤ units x) (o : Nat) :
    (if signBit x then -((magUnits x / o * o : Nat) : Int) else (magUnits x / o * o : Nat))
      = units x / o * o := by
  rw [units_eq_magUnits h]
  cases hs : signBit x
  · simp
  · have hzero : magUnits x = 0 := by simpa [units, hs] using h
    simp [hzero]

/-- The floor of a number not below zero: its whole units of 1. -/
theorem ffloor_nonneg {x : F64} (hx : isFinite x = true) (h : 0 ≤ units x) :
    isFinite (ffloor x) = true ∧ units (ffloor x) = units x / oneUnits * oneUnits := by
  have hfloor : HasFinite (magUnits x / oneUnits * oneUnits) := (hasFinite_magUnits hx).div_mul 1074
  have hnat : (units x / oneUnits).natAbs = magUnits x / oneUnits := by
    rw [units_eq_magUnits h, ← Int.natCast_div, Int.natAbs_natCast]
  rw [ffloor, if_pos hx, hnat, units_pack_of_hasFinite _ hfloor]
  exact ⟨isFinite_pack_of_hasFinite _ hfloor, signed_div_mul h oneUnits⟩

theorem frac_nonneg {x : F64} (hx : isFinite x = true) (h : 0 ≤ units x) :
    isFinite (frac x) = true ∧ units (frac x) = units x % oneUnits := by
  obtain ⟨hfin, hfloor⟩ := ffloor_nonneg hx h
  have hrem : units x - units (ffloor x) = units x % oneUnits := by
    rw [hfloor, Int.emod_def, mul_comm]
  have hrep : HasFinite (units x % oneUnits).natAbs := by
    rw [units_eq_magUnits h, ← Int.natCast_mod, Int.natAbs_natCast]
    exact (hasFinite_magUnits hx).mod 1074
  have hsub := fsub_of_hasFinite hx hfin (hrem ▸ hrep)
  rwa [hrem] at hsub

theorem units_zero : units zero = 0 := by decide

theorem units_one : units one = oneUnits := by decide +kernel

theorem isPhase_frac {x : F64} (hx : isFinite x = true) (h : 0 ≤ units x) :
    isPhase (frac x) = true := by
  obtain ⟨hfin, hrem⟩ := frac_nonneg hx h
  have hone : (0 : Int) < oneUnits := Int.natCast_pos.2 oneUnits_pos
  have hlo := Int.emod_nonneg (units x) hone.ne'
  have hhi := Int.emod_lt_of_pos (units x) hone
  obtain ⟨-, hle, -⟩ := compare_finite (a := zero) (by decide) hfin
  obtain ⟨hlt, -, -⟩ := compare_finite (b := one) hfin (by decide)
  rw [isPhase, hle, hlt, units_zero, units_one, hrem]
  simp only [Bool.and_eq_true, decide_eq_true_eq]
  exact ⟨hlo, hhi⟩

/-- Settles O11: order places stand as values do, and both the floor of a number not below zero and what
remains above it have 53 significant bits, so neither is rounded. -/
theorem fracIsExactAndInUnitInterval : Obligations.FracIsExactAndInUnitInterval := by
  refine ⟨fun _ _ => compare_finite, fun _ _ => compare_isInf, fun _ _ => compare_isNaN,
    fun x hx h0 => ?_⟩
  have h : 0 ≤ units x := by
    rw [← units_zero, units_le_iff (by decide) hx]
    exact (fle_iff.1 h0).2.2
  exact ⟨isPhase_frac hx h, (frac_nonneg hx h).2⟩

end Sys2Proof.Machine
end

section
/-! CERTIFICATE. The three functions and their named properties (R10): O12 and O13. -/

namespace Sys2Proof.Machine

/-- A value brought within bounds by `boundedByOne` lies there: a NaN goes to zero, the rest is clamped. -/
theorem boundedByOne_range (v : F64) :
    fle negOne (boundedByOne v) = true ∧ fle (boundedByOne v) one = true := by
  unfold boundedByOne
  split
  · decide
  · next h => exact clamp_range (by simpa using h) (by decide)

/-- A value that has the bounds already is left as it is. -/
theorem boundedByOne_of_range {v : F64} (h : fle negOne v = true ∧ fle v one = true) :
    boundedByOne v = v := by
  obtain ⟨_, hv, hlo⟩ := fle_iff.1 h.1
  obtain ⟨_, _, hhi⟩ := fle_iff.1 h.2
  have hlow : flt v negOne = false := by
    by_contra hn; have := (flt_iff.1 (by simpa using hn)).2.2; omega
  have hhigh : flt one v = false := by
    by_contra hn; have := (flt_iff.1 (by simpa using hn)).2.2; omega
  simp [boundedByOne, clamp, hv, hlow, hhigh]

/-- A number below 1 is at most the largest one, whose encoding comes next below that of 1. -/
theorem units_le_of_lt_one {p : F64} (hp : isFinite p = true) (h : flt p one = true) :
    units p ≤ units 0x3FEFFFFFFFFFFFFF#64 := by
  have hlt := (flt_iff.1 h).2.2
  have hone : orderKey one = orderKey 0x3FEFFFFFFFFFFFFF#64 + 1 := by decide
  rw [units_le_iff hp (by decide)]
  omega

theorem isFinite_of_isPhase {p : F64} (h0 : fle zero p = true) (h1 : flt p one = true) :
    isFinite p = true := by
  obtain ⟨hp, _, hlt⟩ := flt_iff.1 h1
  exact isFinite_of_range (lo := zero) (hi := one) (by decide) (by decide)
    ⟨h0, fle_iff.2 ⟨hp, by decide, hlt.le⟩⟩

/-- The angle of a phase: `TWO_PI * p` rounds into `[0, TWO_PI)`, because the largest phase still rounds
below `TWO_PI`. -/
theorem angle_range {p : F64} (h0 : fle zero p = true) (h1 : flt p one = true) :
    fle zero (fmul litTwoPi p) = true ∧ flt (fmul litTwoPi p) litTwoPi = true := by
  have hp := isFinite_of_isPhase h0 h1
  have hpi : isFinite litTwoPi = true := by decide
  have hnan := isNaN_fmul hpi hp
  have hkey := orderKey_fmul hpi hp
  have hpi0 : 0 ≤ units litTwoPi := by decide +kernel
  constructor
  · have hp0 : units zero ≤ units p := (units_le_iff (by decide) hp).2 (fle_iff.1 h0).2.2
    have hkey0 : 0 ≤ orderKey (fmul litTwoPi p) :=
      hkey ▸ rnd_nonneg (mul_nonneg hpi0 (units_zero ▸ hp0))
    exact fle_iff.2 ⟨by decide, hnan, hkey0⟩
  · have hle := rnd_mono oneUnits_pos oneUnits_pos (mul_le_mul_of_nonneg_right
      (mul_le_mul_of_nonneg_left (units_le_of_lt_one hp h1) hpi0) (Int.natCast_nonneg oneUnits))
    have hmax : rnd (units litTwoPi * units 0x3FEFFFFFFFFFFFFF#64) oneUnits < orderKey litTwoPi := by
      decide +kernel
    exact flt_iff.2 ⟨hnan, by decide, hkey ▸ lt_of_le_of_lt hle hmax⟩

theorem numericsOfRaw_lawful (raw : Numerics) : LawfulNumerics (numericsOfRaw raw) where
  exp2_zero := by simp [numericsOfRaw, exp2InRange]
  exp2_one := by
    have h : one ≠ zero := by decide
    simp [numericsOfRaw, exp2InRange, h]
  exp2_pos x hx := by
    change fle zero (exp2InRange raw.fexp2 x) = true
    unfold exp2InRange
    split_ifs with h0 h1 hpos
    · decide
    · decide
    · simpa [hx] using hpos
    · decide
  sin_range p h0 h1 := by
    obtain ⟨hlo, hhi⟩ := angle_range h0 h1
    have h : (numericsOfRaw raw).fsin (fmul litTwoPi p)
        = boundedByOne (raw.fsin (fmul litTwoPi p)) := by simp [numericsOfRaw, sinInRange, hlo, hhi]
    rw [h]; exact boundedByOne_range _
  tanh_range x hx := by
    change fle negOne (tanhInRange raw.ftanh x) = true ∧ fle (tanhInRange raw.ftanh x) one = true
    unfold tanhInRange
    split_ifs with h0 hnan
    · decide
    · simp [hx] at hnan
    · exact boundedByOne_range _
  tanh_zero := by simp [numericsOfRaw, tanhInRange]

/-- Settles O12: any three functions have the properties once brought under them. -/
theorem numericsHaveTheNamedProperties : Obligations.NumericsHaveTheNamedProperties :=
  numericsOfRaw_lawful Config.rawNumerics

theorem exp2InRange_of_lawful {nm : Numerics} (h : LawfulNumerics nm) (x : F64) :
    exp2InRange nm.fexp2 x = nm.fexp2 x := by
  unfold exp2InRange
  split_ifs with h0 h1 hpos
  · rw [h0, h.exp2_zero]
  · rw [h1, h.exp2_one]
  · rfl
  · obtain ⟨hnan, hneg⟩ : isNaN x = false ∧ fle zero (nm.fexp2 x) = false := by simpa using hpos
    exact absurd (h.exp2_pos x hnan) (by simp [hneg])

theorem tanhInRange_of_lawful {nm : Numerics} (h : LawfulNumerics nm) (x : F64) :
    tanhInRange nm.ftanh x = nm.ftanh x := by
  unfold tanhInRange
  split_ifs with h0 hnan
  · rw [h0, h.tanh_zero]
  · rfl
  · exact boundedByOne_of_range (h.tanh_range x (by simpa using hnan))

theorem sinInRange_of_lawful {nm : Numerics} (h : LawfulNumerics nm) {p : F64}
    (h0 : fle zero p = true) (h1 : flt p one = true) :
    sinInRange nm.fsin (fmul litTwoPi p) = nm.fsin (fmul litTwoPi p) := by
  unfold sinInRange
  split
  · exact boundedByOne_of_range (h.sin_range p h0 h1)
  · rfl

/-- Settles O13: at every angle of a phase, and for every argument of the other two, a lawful function's
value is already where it would be brought. -/
theorem lawfulNumericsAreKeptAsTheyAre : Obligations.LawfulNumericsAreKeptAsTheyAre := by
  intro nm h
  refine ⟨funext (exp2InRange_of_lawful h), funext (tanhInRange_of_lawful h), fun p hp => ?_⟩
  obtain ⟨h0, h1⟩ : fle zero p = true ∧ flt p one = true := by simpa [isPhase] using hp
  exact sinInRange_of_lawful h h0 h1

end Sys2Proof.Machine
end

section
/-! SUPPORT. What an instruction that completes does to the state, said once for all instructions, and
what every step keeps. -/

namespace Sys2Proof.Machine

/-! ### The state a tick leaves -/

section
variable (nm : Numerics) (sr : F64) (s : State) (r : Ring)

@[simp] theorem tickState_cfg : (tickState nm sr s r).cfg = s.cfg := rfl
@[simp] theorem tickState_voices : (tickState nm sr s r).voices = tickVoices sr s := rfl
@[simp] theorem tickState_mixer : (tickState nm sr s r).mixer = s.mixer := rfl
@[simp] theorem tickState_noise : (tickState nm sr s r).noise = noiseNext s.noise := rfl
@[simp] theorem tickState_mods : (tickState nm sr s r).mods = tickMods nm sr s := rfl
@[simp] theorem tickState_pipe : (tickState nm sr s r).pipe = s.pipe := rfl
@[simp] theorem tickState_ring : (tickState nm sr s r).ring = r := rfl

end

/-! ### The effect of an instruction -/

/-- The effects by which an instruction can take a state to the next (R83): the register it writes, with
what its operand conditions give; the tick; `quiet` where nothing is written (`NOP`, an index or a colour
code out of range, a gate without an edge). -/
inductive Effect : Instr → State → State → Prop
  | quiet {i : Instr} {s : State} : Effect i s s
  | tick {s : State} {sr : F64} {r : Ring} (hset : s.pipe.rateSet = true)
      (hrate : s.pipe.sampleRate = some sr) (hinc : incsFinite sr s = true)
      (hpush : ringPush s.cfg.ringN s.ring
        (outputClamp s.cfg.outLim (modOutput (tickMods numerics sr s))) = .ok r) :
      Effect .tick s (tickState numerics sr s r)
  | snap {s : State} (ds : List Word64) : Effect .snap s (respond s ds)
  | setgate {s : State} (on : Bool) : Effect (.setgate on) s (setMods s
      { s.mods with gate := on, fenv := gateEdge on s.mods.fenv, lenv := gateEdge on s.mods.lenv })
  | setvolt {s : State} {vi : Nat} {x : F64} (hvi : vi < s.cfg.nv) (hx : isFinite x = true)
      (hf : isFinite (retuned numerics { voiceAt s vi with voltage := x }).frequency = true) :
      Effect (.setvolt vi x) s (setVoice s vi (retuned numerics { voiceAt s vi with voltage := x }))
  | setdetune {s : State} {vi : Nat} {x : F64} (hvi : vi < s.cfg.nv) (hx : isFinite x = true)
      (hf : isFinite (retuned numerics { voiceAt s vi with detune := x }).frequency = true) :
      Effect (.setdetune vi x) s (setVoice s vi (retuned numerics { voiceAt s vi with detune := x }))
  | setwave {s : State} {vi : Nat} (w : Waveform) (hvi : vi < s.cfg.nv) :
      Effect (.setwave vi w) s (setVoice s vi { voiceAt s vi with waveform := w })
  | setmixlvl {s : State} {x : F64} (vi : Nat) (hx : isNaN x = false) : Effect (.setmixlvl vi x) s
      (setMixer s { s.mixer with level := s.mixer.level.set vi (clampUnit x) })
  | setoscen {s : State} (vi : Nat) (on : Bool) : Effect (.setoscen vi on) s
      (setMixer s { s.mixer with oscEn := s.mixer.oscEn.set vi on })
  | setnoiselvl {s : State} {x : F64} (hx : isNaN x = false) :
      Effect (.setnoiselvl x) s (setMixer s { s.mixer with noiseLevel := clampUnit x })
  | setnoiseen {s : State} (on : Bool) :
      Effect (.setnoiseen on) s (setMixer s { s.mixer with noiseEn := on })
  | setnoisecol {s : State} (code : Nat) (c : NoiseColour) :
      Effect (.setnoisecol code) s { s with noise := { s.noise with noiseColor := c } }
  | setmaster {s : State} {x : F64} (hx : isNaN x = false) :
      Effect (.setmaster x) s (setMixer s { s.mixer with master := clampUnit x })
  | setcutoff {s : State} {x : F64} (hx : isNaN x = false) :
      Effect (.setcutoff x) s (setMods s { s.mods with cutoff := x })
  | setemph {s : State} {x : F64} (hx : isNaN x = false) :
      Effect (.setemph x) s (setMods s { s.mods with emphasis := clampUnit x })
  | setcontour {s : State} {x : F64} (hx : isNaN x = false) :
      Effect (.setcontour x) s (setMods s { s.mods with contour := clampUnit x })
  | setfenv {s : State} {a d su : F64} (hsu : isNaN su = false) :
      Effect (.setfenv a d su) s (setMods s { s.mods with fenv := withADS s.mods.fenv a d su })
  | setlenv {s : State} {a d su : F64} (hsu : isNaN su = false) :
      Effect (.setlenv a d su) s (setMods s { s.mods with lenv := withADS s.mods.lenv a d su })
  | setrate {s : State} {x : F64} (hx : legalRate x = true) :
      Effect (.setrate x) s { s with pipe := { rateSet := true, sampleRate := some x } }
  | setfrel {s : State} (x : F64) :
      Effect (.setfrel x) s (setMods s { s.mods with fenv := withRelease s.mods.fenv x })
  | setlrel {s : State} (x : F64) :
      Effect (.setlrel x) s (setMods s { s.mods with lenv := withRelease s.mods.lenv x })

/-- An instruction that completes has one of the effects listed for it. -/
theorem effect_of_exec {i : Instr} {s t : State} (h : exec i s = .next t) : Effect i s t := by
  cases i with
  | nop => cases h; exact .quiet
  | tick =>
    obtain ⟨sr, r, hset, hrate, hinc, hpush, rfl⟩ := tickWith_next.1 h
    exact .tick hset hrate hinc hpush
  | snap =>
    obtain ⟨out, -, rfl⟩ := execSnap_next.1 h
    exact .snap _
  | setgate on =>
    simp only [exec, execSetgate] at h
    split at h <;> cases h
    · exact .quiet
    · exact .setgate on
  | setvolt vi x =>
    obtain ⟨-, rfl⟩ | ⟨hvi, -, hx, hf, rfl⟩ := setPitch_next.1 h
    · exact .quiet
    · exact .setvolt hvi hx hf
  | setdetune vi x =>
    obtain ⟨-, rfl⟩ | ⟨hvi, -, hx, hf, rfl⟩ := setPitch_next.1 h
    · exact .quiet
    · exact .setdetune hvi hx hf
  | setwave vi w =>
    obtain ⟨-, rfl⟩ | ⟨hvi, he⟩ := perVoice_next.1 h
    · exact .quiet
    · cases he; exact .setwave w hvi
  | setmixlvl vi x =>
    obtain ⟨-, rfl⟩ | ⟨-, he⟩ := perVoice_next.1 h
    · exact .quiet
    · obtain ⟨hx, he⟩ := withNum_next.1 he
      cases he; exact .setmixlvl vi hx
  | setoscen vi on =>
    obtain ⟨-, rfl⟩ | ⟨-, he⟩ := perVoice_next.1 h
    · exact .quiet
    · cases he; exact .setoscen vi on
  | setnoiselvl x => obtain ⟨hx, he⟩ := withNum_next.1 h; cases he; exact .setnoiselvl hx
  | setnoiseen on => cases h; exact .setnoiseen on
  | setnoisecol code =>
    simp only [exec, execSetnoisecol] at h
    split at h <;> cases h
    · exact .setnoisecol code _
    · exact .quiet
  | setmaster x => obtain ⟨hx, he⟩ := withNum_next.1 h; cases he; exact .setmaster hx
  | setcutoff x => obtain ⟨hx, he⟩ := withNum_next.1 h; cases he; exact .setcutoff hx
  | setemph x => obtain ⟨hx, he⟩ := withNum_next.1 h; cases he; exact .setemph hx
  | setcontour x => obtain ⟨hx, he⟩ := withNum_next.1 h; cases he; exact .setcontour hx
  | setfenv a d su => obtain ⟨-, -, hsu, he⟩ := withNum3_next.1 h; cases he; exact .setfenv hsu
  | setlenv a d su => obtain ⟨-, -, hsu, he⟩ := withNum3_next.1 h; cases he; exact .setlenv hsu
  | setrate x => obtain ⟨-, hx, he⟩ := withRate_next.1 h; cases he; exact .setrate hx
  | setfrel x => obtain ⟨-, he⟩ := withNum_next.1 h; cases he; exact .setfrel x
  | setlrel x => obtain ⟨-, he⟩ := withNum_next.1 h; cases he; exact .setlrel x

/-! ### What every step keeps -/

/-- A property of the state that does not look at the pending input is kept by every step, once every
effect keeps it and reset establishes it. -/
theorem step_keeps {P : State → Prop} {s t : State} (h : step s = .next t) (hs : P s)
    (hinput : ∀ rest, P (withInput s rest))
    (heffect : ∀ {i : Instr} {s t : State}, Effect i s t → P s → P t)
    (hreset : ∀ p, P (State.resetWith s.cfg p)) : P t := by
  obtain ⟨-, rfl⟩ | ⟨w, rest, -, he⟩ | ⟨rest, p, -, -, rfl⟩ := step_cases h
  · exact hs
  · exact heffect (effect_of_exec he) (hinput rest)
  · exact hreset p

end Sys2Proof.Machine
end

section
/-! CERTIFICATE. The configuration and the values after reset (R20, R54), and which operations can change
which register (R22 to R51): O8, O51, O53 to O56. -/

namespace Sys2Proof.Machine

/-! ### The configuration and reset -/

theorem Effect.cfg_eq {i : Instr} {s t : State} (h : Effect i s t) : t.cfg = s.cfg := by
  cases h <;> rfl

/-- Settles O51: no effect of an instruction writes it, and reset takes it over. -/
theorem configurationNeverChanges : Obligations.ConfigurationNeverChanges := fun s _ h =>
  step_keeps (P := fun t => t.cfg = s.cfg) h rfl (fun _ => rfl) (fun he hs => he.cfg_eq.trans hs)
    fun _ => rfl

/-- Settles O8: the parts of the reset state, as their definitions give them. -/
theorem resetLeavesTheListedValues : Obligations.ResetLeavesTheListedValues := by
  rintro c p s rfl
  refine ⟨List.length_replicate, fun v hv => ?_, rfl, rfl, rfl, rfl, rfl, rfl, rfl, rfl, rfl, rfl,
    fun _ => rfl, rfl, rfl⟩
  obtain rfl : v = Voice.atReset := List.eq_of_mem_replicate hv
  exact ⟨rfl, rfl, rfl, rfl, rfl⟩

/-! ### The voice file -/

theorem voiceAt_of_voices_eq {s t : State} (h : t.voices = s.voices) (j : Nat) :
    voiceAt t j = voiceAt s j := by simp [voiceAt, h]

theorem voiceAt_setVoice_other (s : State) {vi j : Nat} (v : Voice) (h : vi ≠ j) :
    voiceAt (setVoice s vi v) j = voiceAt s j := by
  simp [voiceAt, List.getD_eq_getElem?_getD, List.getElem?_set_ne h]

/-- A write to a voice is read back, or the voice does not exist and reads as before. -/
theorem voiceAt_setVoice_same (s : State) (vi : Nat) (v : Voice) :
    voiceAt (setVoice s vi v) vi = v ∨ voiceAt (setVoice s vi v) vi = voiceAt s vi := by
  by_cases h : vi < s.voices.length
  · exact .inl (by simp [voiceAt, h])
  · exact .inr (by simp [voiceAt, h])

/-- A tick writes a voice's phase and nothing else of it. -/
theorem voiceAt_tickState (nm : Numerics) (sr : F64) (s : State) (r : Ring) (j : Nat) :
    ∃ p, voiceAt (tickState nm sr s r) j = { voiceAt s j with phase := p } := by
  by_cases h : j < s.voices.length
  · exact ⟨frac (fadd s.voices[j].phase (phaseInc sr s.voices[j])),
      by simp [voiceAt, tickVoices, voiceAdvance, h]⟩
  · exact ⟨(voiceAt s j).phase, by simp [voiceAt, tickVoices, h]⟩

/-- Only a tick and the three pitch and waveform commands write the voice file. -/
theorem Effect.voices_eq_or {i : Instr} {s t : State} (h : Effect i s t) :
    t.voices = s.voices ∨ (∃ sr r, i = .tick ∧ t = tickState numerics sr s r) ∨
    (∃ vi x, i = .setvolt vi x ∧
      t = setVoice s vi (retuned numerics { voiceAt s vi with voltage := x })) ∨
    (∃ vi x, i = .setdetune vi x ∧
      t = setVoice s vi (retuned numerics { voiceAt s vi with detune := x })) ∨
    ∃ vi w, i = .setwave vi w ∧ t = setVoice s vi { voiceAt s vi with waveform := w } := by
  cases h
  case tick sr r _ _ _ _ => exact .inr (.inl ⟨sr, r, rfl, rfl⟩)
  case setvolt vi x _ _ _ => exact .inr (.inr (.inl ⟨vi, x, rfl, rfl⟩))
  case setdetune vi x _ _ _ => exact .inr (.inr (.inr (.inl ⟨vi, x, rfl, rfl⟩)))
  case setwave vi w _ => exact .inr (.inr (.inr (.inr ⟨vi, w, rfl, rfl⟩)))
  all_goals exact .inl rfl

/-- The writers of each register of a voice (R22 to R26). -/
theorem Effect.voice_writers {i : Instr} {s t : State} (h : Effect i s t) (j : Nat) :
    ((voiceAt t j).waveform ≠ (voiceAt s j).waveform → ∃ w, i = .setwave j w) ∧
    ((voiceAt t j).voltage ≠ (voiceAt s j).voltage → ∃ x, i = .setvolt j x) ∧
    ((voiceAt t j).detune ≠ (voiceAt s j).detune → ∃ x, i = .setdetune j x) ∧
    ((voiceAt t j).frequency ≠ (voiceAt s j).frequency →
      ∃ x, i = .setvolt j x ∨ i = .setdetune j x) ∧
    ((voiceAt t j).phase ≠ (voiceAt s j).phase → i = .tick) := by
  have hset : ∀ {vi : Nat} {v : Voice}, t = setVoice s vi v →
      voiceAt t j = voiceAt s j ∨ (vi = j ∧ voiceAt t j = v) := by
    rintro vi v rfl
    by_cases hj : vi = j
    · subst hj
      exact (voiceAt_setVoice_same s vi v).symm.imp_right fun h => ⟨rfl, h⟩
    · exact .inl (voiceAt_setVoice_other s v hj)
  rcases h.voices_eq_or with hv | ⟨sr, r, rfl, rfl⟩ | ⟨vi, x, rfl, ht⟩ | ⟨vi, x, rfl, ht⟩ |
    ⟨vi, w, rfl, ht⟩
  · simp [voiceAt_of_voices_eq hv]
  · obtain ⟨p, hp⟩ := voiceAt_tickState numerics sr s r j
    simp [hp]
  · obtain hv | ⟨rfl, hv⟩ := hset ht <;> simp [hv, retuned]
  · obtain hv | ⟨rfl, hv⟩ := hset ht <;> simp [hv, retuned]
  · obtain hv | ⟨rfl, hv⟩ := hset ht <;> simp [hv]

/-! ### The mixer -/

/-- An entry of a list differs after a write only at the index written. -/
theorem eq_of_getElem?_set_ne {α : Type} {l : List α} {vi j : Nat} {a : α}
    (h : (l.set vi a)[j]? ≠ l[j]?) : vi = j := by
  by_contra hj
  exact h (List.getElem?_set_ne hj)

/-- The writers of each mixer register (R27 to R31). -/
theorem Effect.mixer_writers {i : Instr} {s t : State} (h : Effect i s t) (j : Nat) :
    (t.mixer.oscEn[j]? ≠ s.mixer.oscEn[j]? → ∃ on, i = .setoscen j on) ∧
    (t.mixer.level[j]? ≠ s.mixer.level[j]? → ∃ x, i = .setmixlvl j x) ∧
    (t.mixer.noiseEn ≠ s.mixer.noiseEn → ∃ on, i = .setnoiseen on) ∧
    (t.mixer.noiseLevel ≠ s.mixer.noiseLevel → ∃ x, i = .setnoiselvl x) ∧
    (t.mixer.master ≠ s.mixer.master → ∃ x, i = .setmaster x) := by
  cases h
  case setoscen vi on =>
    refine ⟨fun h => ?_, by simp⟩
    obtain rfl := eq_of_getElem?_set_ne h
    exact ⟨on, rfl⟩
  case setmixlvl x vi hx =>
    refine ⟨by simp, fun h => ?_, by simp⟩
    obtain rfl := eq_of_getElem?_set_ne h
    exact ⟨x, rfl⟩
  all_goals simp

/-- Settles O53: the effects, register by register. -/
theorem writersOfVoiceAndMixerRegisters : Obligations.WritersOfVoiceAndMixerRegisters := by
  intro i s t vi h
  have he := effect_of_exec h
  obtain ⟨hwaveform, hvoltage, hdetune, hfrequency, hphase⟩ := he.voice_writers vi
  exact ⟨hwaveform, hvoltage, hdetune, hfrequency, hphase, he.mixer_writers vi⟩

/-! ### The modifiers -/

/-- An envelope step writes the stage and the value, never a parameter (R180 to R184). -/
theorem envStep_params (dt : F64) (e : Envelope) :
    (envStep dt e).attack = e.attack ∧ (envStep dt e).decay = e.decay ∧
    (envStep dt e).sustain = e.sustain ∧ (envStep dt e).release = e.release := by
  cases hst : e.stage <;> simp only [envStep, hst]
  case attack => split <;> simp
  case decay => split <;> simp
  case release => split <;> simp
  all_goals simp

/-- A gate edge writes the stage of an envelope and nothing else of it (R170). -/
theorem gateEdge_eq (on : Bool) (e : Envelope) : ∃ st, gateEdge on e = { e with stage := st } := by
  cases on
  · by_cases h : e.stage = .idle
    · exact ⟨e.stage, if_pos h⟩
    · exact ⟨.release, if_neg h⟩
  · exact ⟨.attack, rfl⟩

theorem gateEdge_params (on : Bool) (e : Envelope) :
    (gateEdge on e).attack = e.attack ∧ (gateEdge on e).decay = e.decay ∧
    (gateEdge on e).sustain = e.sustain ∧ (gateEdge on e).release = e.release ∧
    (gateEdge on e).value = e.value := by
  obtain ⟨st, h⟩ := gateEdge_eq on e
  simp [h]

/-- Settles O54: the effects, register by register; a tick steps the envelopes and the ladder, and an
envelope step writes no parameter. -/
theorem writersOfModifierRegisters : Obligations.WritersOfModifierRegisters := by
  intro i s t h
  cases effect_of_exec h
  case tick sr r _ _ _ _ =>
    simp [tickMods, modStep, envStep_params]
  case setgate on => simp [gateEdge_params]
  case setfenv => simp [withADS]
  case setlenv => simp [withADS]
  case setfrel => simp [withRelease]
  case setlrel => simp [withRelease]
  all_goals simp

/-! ### The pipeline and the ring -/

theorem Effect.ring_eq_or {i : Instr} {s t : State} (h : Effect i s t) :
    t.ring = s.ring ∨ (i = .tick ∧ ∃ v, ringPush s.cfg.ringN s.ring v = .ok t.ring) := by
  cases h
  case tick sr r _ _ _ hpush => exact .inr ⟨rfl, _, hpush⟩
  all_goals exact .inl rfl

/-- A push that succeeds writes the word at the cursor and never clears `filled` (R240). -/
theorem ringPush_ok {ringN : Nat} {r r' : Ring} {v : F64} (h : ringPush ringN r v = .ok r') :
    r'.mem = memWrite r.mem r.cursor v ∧ (r.filled = true → r'.filled = true) := by
  rcases ringPush_cases ringN r v with ⟨-, e⟩ | ⟨-, e⟩ | ⟨-, e⟩ <;> rw [e] at h <;> cases h
  · exact ⟨rfl, fun _ => rfl⟩
  · exact ⟨rfl, id⟩

/-- Settles O55: the ring is written by the push of a tick alone, the pipeline by `SETRATE` alone. -/
theorem writersOfPipelineAndRing : Obligations.WritersOfPipelineAndRing := by
  intro i s t h
  have he := effect_of_exec h
  refine ⟨fun hne => ?_, ?_⟩
  · cases he
    case setrate x _ => exact ⟨x, rfl⟩
    all_goals exact absurd rfl hne
  · rcases he.ring_eq_or with hr | ⟨rfl, v, hpush⟩
    · simp [hr, ringWord]
    · obtain ⟨hmem, hfilled⟩ := ringPush_ok hpush
      refine ⟨fun _ => rfl, fun k hk => ⟨rfl, ?_⟩, hfilled⟩
      by_contra hne
      exact hk (by rw [ringWord, hmem, memRead_memWrite_other _ _ hne, ringWord])

/-- Settles O56: apart from the four commands that set one, the effects write no one-bit element but
`filled`, which is the last of the list and which only a tick writes. -/
theorem oneBitElementsChangeOnlyByTheirCommands :
    Obligations.OneBitElementsChangeOnlyByTheirCommands := by
  intro i s t h hi
  have hsame : t.mixer.oscEn = s.mixer.oscEn ∧ t.mixer.noiseEn = s.mixer.noiseEn ∧
      t.mods.gate = s.mods.gate ∧ t.pipe.rateSet = s.pipe.rateSet := by
    cases effect_of_exec h
    case setoscen vi on => exact absurd (hi on vi 0#64) (by simp)
    case setnoiseen on => exact absurd (hi on 0 0#64) (by simp)
    case setgate on => exact absurd (hi on 0 0#64) (by simp)
    case setrate x _ => exact absurd (hi false 0 x) (by simp)
    all_goals exact ⟨rfl, rfl, rfl, rfl⟩
  obtain ⟨hosc, hnoise, hgate, hrate⟩ := hsame
  refine ⟨fun htick => ?_, ?_⟩
  · rcases (effect_of_exec h).ring_eq_or with hr | ⟨rfl, -⟩
    · rw [oneBitElements, hosc, hnoise, hgate, hrate, hr, oneBitElements]
    · exact absurd rfl htick
  · simp [oneBitElements, hosc, hnoise, hgate, hrate, List.dropLast_append_of_ne_nil]

end Sys2Proof.Machine
end

section
/-! CERTIFICATE. Every step keeps the ring as R53 item 7 says (R240): O50. -/

namespace Sys2Proof.Machine

theorem ringLegal_iff {ringN : Nat} {r : Ring} :
    ringLegal ringN r = true ↔ r.cursor < ringN ∧ Memory.wf r.mem = true ∧
      r.mem.map Prod.fst = List.range (if r.filled then ringN else r.cursor) := by
  simp [ringLegal, and_assoc]

/-- A write beyond every listed slot lists its slot last. -/
theorem map_fst_memWrite_of_lt {m : Memory} {k : Nat} (v : F64) (h : ∀ j ∈ m.map Prod.fst, j < k) :
    (memWrite m k v).map Prod.fst = m.map Prod.fst ++ [k] := by
  induction m with
  | nil => rfl
  | cons p rest ih =>
    obtain ⟨j, u⟩ := p
    obtain ⟨hj, hrest⟩ : j < k ∧ ∀ i ∈ rest.map Prod.fst, i < k := by simpa using h
    rw [memWrite, if_neg (by omega), if_neg (by omega)]
    simpa using ih hrest

/-- A write to a listed slot of a canonical memory lists the same slots. -/
theorem map_fst_memWrite_of_mem {m : Memory} {k : Nat} (v : F64) (hwf : Memory.wf m = true)
    (h : k ∈ m.map Prod.fst) : (memWrite m k v).map Prod.fst = m.map Prod.fst := by
  induction m with
  | nil => cases h
  | cons p rest ih =>
    obtain ⟨j, u⟩ := p
    obtain rfl | hrest : k = j ∨ k ∈ rest.map Prod.fst := by simpa using h
    · simp [memWrite]
    · obtain ⟨q, hq, rfl⟩ := List.mem_map.1 hrest
      have hlt : j < q.1 := wf_head_lt hwf q hq
      rw [memWrite, if_neg (by omega), if_neg (by omega)]
      simpa using ih (wf_tail hwf) hrest

/-- A write at the cursor of a legal ring lists the slots below the cursor and the cursor's own, or all
of them once `filled`. -/
theorem map_fst_memWrite_cursor {ringN : Nat} {r : Ring} (v : F64) (h : ringLegal ringN r = true) :
    (memWrite r.mem r.cursor v).map Prod.fst
      = List.range (if r.filled then ringN else r.cursor + 1) := by
  obtain ⟨hcur, hwf, hslots⟩ := ringLegal_iff.1 h
  cases hf : r.filled
  · have hlast : ∀ j ∈ r.mem.map Prod.fst, j < r.cursor := by simp [hslots, hf]
    rw [map_fst_memWrite_of_lt v hlast, hslots, hf]
    exact List.range_succ.symm
  · have hmem : r.cursor ∈ r.mem.map Prod.fst := by simpa [hslots, hf] using hcur
    rw [map_fst_memWrite_of_mem v hwf hmem, hslots, hf]
    rfl

/-- A push keeps the ring legal: at the wrap the slots below the cursor and the cursor's own are all. -/
theorem ringPush_legal {ringN : Nat} {r r' : Ring} {v : F64} (h : ringLegal ringN r = true)
    (hpush : ringPush ringN r v = .ok r') : ringLegal ringN r' = true := by
  have hslots := map_fst_memWrite_cursor v h
  obtain ⟨hcur, hwf, -⟩ := ringLegal_iff.1 h
  have hwf' := memWrite_wf r.cursor v hwf
  rcases ringPush_cases ringN r v with ⟨-, e⟩ | ⟨hc, e⟩ | ⟨hc, e⟩ <;> rw [e] at hpush <;> cases hpush
  · rw [hc, ite_self] at hslots
    exact ringLegal_iff.2 ⟨Nat.zero_lt_of_lt hcur, hwf', hslots⟩
  · exact ringLegal_iff.2 ⟨hc, hwf', hslots⟩

theorem Effect.keeps_ringLegal {i : Instr} {s t : State} (h : Effect i s t)
    (hs : ringLegal s.cfg.ringN s.ring = true) : ringLegal t.cfg.ringN t.ring = true := by
  rw [h.cfg_eq]
  rcases h.ring_eq_or with hr | ⟨-, v, hpush⟩
  · rwa [hr]
  · exact ringPush_legal hs hpush

theorem ringLegal_empty {ringN : Nat} (h : 1 ≤ ringN) :
    ringLegal ringN { mem := [], cursor := 0, filled := false } = true :=
  ringLegal_iff.2 ⟨h, rfl, rfl⟩

/-- Settles O50: only the push of a tick and reset write the ring, and both leave it legal. -/
theorem stepKeepsTheRingLegal : Obligations.StepKeepsTheRingLegal := fun _ _ hn hs h =>
  step_keeps (P := fun t => ringLegal t.cfg.ringN t.ring = true) h hs (fun _ => hs)
    Effect.keeps_ringLegal fun _ => ringLegal_empty hn

end Sys2Proof.Machine
end

section
/-! CERTIFICATE. The invariant part by part; the reset state meets it (R53, R54), and no register of a
state that meets it holds a NaN (R53 item 8): O59 and O60. -/

namespace Sys2Proof.Machine

/-! ### The invariant, its parts named -/

/-- The parts of `invariant` that speak of the modifiers. -/
structure ModsOk (m : Modifiers) : Prop where
  regs : modsLegal m = true
  fenv : envRun m.fenv = true
  lenv : envRun m.lenv = true
  ladder : ladderBounded m.ladder = true
  gate : gateLegal m = true

/-- The parts of `invariant`, as `invariant_iff` says. -/
structure Legal (s : State) : Prop where
  cfg : cfgLegal s.cfg = true
  shape : shaped s = true
  voices : ∀ v ∈ s.voices, voiceLegal numerics v = true
  mixer : mixerLegal s.mixer = true
  noise : noiseLegal s.noise = true
  pink : pinkBounded s.noise.b = true
  mods : ModsOk s.mods
  rate : rateLegal s.pipe = true
  ring : ringLegal s.cfg.ringN s.ring = true
  words : ringBounded s.cfg.outLim s.ring.mem = true

theorem invariant_iff {s : State} : invariant s = true ↔ Legal s := by
  simp only [invariant, Bool.and_eq_true, List.all_eq_true, and_assoc]
  constructor
  · rintro ⟨hcfg, hshape, hvoices, hmixer, hnoise, hpink, hregs, hfenv, hlenv, hladder, hgate, hrate,
      hring, hwords⟩
    exact ⟨hcfg, hshape, hvoices, hmixer, hnoise, hpink, ⟨hregs, hfenv, hlenv, hladder, hgate⟩, hrate,
      hring, hwords⟩
  · rintro ⟨hcfg, hshape, hvoices, hmixer, hnoise, hpink, ⟨hregs, hfenv, hlenv, hladder, hgate⟩, hrate,
      hring, hwords⟩
    exact ⟨hcfg, hshape, hvoices, hmixer, hnoise, hpink, hregs, hfenv, hlenv, hladder, hgate, hrate,
      hring, hwords⟩

theorem cfgLegal_iff {c : Params} : cfgLegal c = true ↔
    1 ≤ c.nv ∧ c.nv ≤ 256 ∧ 1 ≤ c.ringN ∧ isFinite c.outLim = true ∧ flt zero c.outLim = true := by
  simp [cfgLegal, and_assoc]

theorem shaped_iff {s : State} : shaped s = true ↔ s.voices.length = s.cfg.nv ∧
    s.mixer.oscEn.length = s.cfg.nv ∧ s.mixer.level.length = s.cfg.nv := by
  simp [shaped, and_assoc]

theorem voiceLegal_iff {nm : Numerics} {v : Voice} : voiceLegal nm v = true ↔
    (isFinite v.voltage = true ∧ isFinite v.detune = true ∧
      v.frequency = pitchFrequency nm v.voltage v.detune ∧ isFinite v.frequency = true ∧
      fle zero v.frequency = true) ∧ isPhase v.phase = true := by
  simp [voiceLegal, voiceTuned, and_assoc]

theorem mixerLegal_iff {m : Mixer} : mixerLegal m = true ↔
    (∀ l ∈ m.level, inUnit l = true) ∧ inUnit m.noiseLevel = true ∧ inUnit m.master = true := by
  simp [mixerLegal, and_assoc]

theorem noiseLegal_iff {n : Noise} : noiseLegal n = true ↔
    between litBrownMin litBrownMax n.brown = true ∧ isWhite n.w1 = true ∧ isWhite n.w2 = true := by
  simp [noiseLegal, and_assoc]

/-- The bounds of a pink tap (log 17). -/
def isTap (x : F64) : Bool := between 0xC050000000000000#64 0x4050000000000000#64 x

theorem pinkBounded_iff {b : PinkTaps} : pinkBounded b = true ↔
    isTap b.b0 = true ∧ isTap b.b1 = true ∧ isTap b.b2 = true ∧ isTap b.b3 = true ∧
      isTap b.b4 = true ∧ isTap b.b5 = true ∧ isTap b.b6 = true := by
  simp [pinkBounded, isTap]

theorem envLegal_iff {e : Envelope} : envLegal e = true ↔
    isTime e.attack = true ∧ isTime e.decay = true ∧ isTime e.release = true ∧
      inUnit e.sustain = true := by
  simp [envLegal, and_assoc]

theorem envRun_iff {e : Envelope} : envRun e = true ↔
    inUnit e.value = true ∧ (e.stage = .idle → e.value = zero) := by
  simp [envRun, or_iff_not_imp_left]

theorem modsLegal_iff {m : Modifiers} : modsLegal m = true ↔
    inUnit m.emphasis = true ∧ inUnit m.contour = true ∧ isNaN m.cutoff = false ∧
      envLegal m.fenv = true ∧ envLegal m.lenv = true := by
  simp [modsLegal, and_assoc]

theorem ladderBounded_iff {l : Ladder} : ladderBounded l = true ↔
    inOne l.s0 = true ∧ inOne l.s1 = true ∧ inOne l.s2 = true ∧ inOne l.s3 = true := by
  simp [ladderBounded, and_assoc]

theorem gateLegal_iff {m : Modifiers} : gateLegal m = true ↔
    gateAllows m.gate m.fenv.stage = true ∧ gateAllows m.gate m.lenv.stage = true := by
  simp [gateLegal]

theorem legalRate_iff {sr : F64} : legalRate sr = true ↔
    isFinite sr = true ∧ flt zero sr = true ∧ isFinite (fdiv one sr) = true ∧
      flt zero (fdiv one sr) = true := by
  simp [legalRate, and_assoc]

/-- Where a rate is held it is legal (R53 item 9). -/
theorem rateLegal_some {p : Pipeline} {sr : F64} (h : rateLegal p = true)
    (hsr : p.sampleRate = some sr) : legalRate sr = true := by
  obtain ⟨set, rate⟩ := p
  subst hsr
  cases set
  · cases h
  · exact h

theorem ringBounded_iff {lim : F64} {m : Memory} : ringBounded lim m = true ↔
    ∀ p ∈ m, between (fneg lim) lim p.2 = true := by
  simp [ringBounded]

/-! ### Reset -/

/-- The reset frequency is the one that the reset pitch gives: `2^0` is 1, and 55 times 1 is 55. -/
theorem pitchFrequency_atReset : pitchFrequency numerics zero zero = litRefFreq := by
  have hsum : fadd zero zero = zero := by decide +kernel
  rw [pitchFrequency, hsum, numericsHaveTheNamedProperties.exp2_zero]
  decide +kernel

theorem voiceLegal_atReset : voiceLegal numerics Voice.atReset = true :=
  voiceLegal_iff.2 ⟨⟨by decide, by decide, pitchFrequency_atReset.symm, by decide, by decide⟩, by decide⟩

theorem mixer_atReset_legal (nv : Nat) : mixerLegal (Mixer.atReset nv) = true := by
  have hzero : inUnit zero = true := by decide
  exact mixerLegal_iff.2 ⟨fun _ hl => List.eq_of_mem_replicate hl ▸ hzero, hzero, hzero⟩

theorem noise_atReset_legal (seed0 : Word64) :
    noiseLegal (Noise.atReset seed0) = true ∧ pinkBounded (Noise.atReset seed0).b = true := by
  have hbrown : between litBrownMin litBrownMax zero = true := by decide
  have hwhite : isWhite zero = true := by decide
  have htap : isTap zero = true := by decide
  exact ⟨noiseLegal_iff.2 ⟨hbrown, hwhite, hwhite⟩,
    pinkBounded_iff.2 ⟨htap, htap, htap, htap, htap, htap, htap⟩⟩

theorem modsOk_atReset : ModsOk Modifiers.atReset where
  regs := by decide
  fenv := by decide
  lenv := by decide
  ladder := by decide
  gate := by decide

theorem legal_resetWith {c : Params} (p : Ports) (h : cfgLegal c = true) :
    Legal (State.resetWith c p) := by
  obtain ⟨-, -, hring, -, -⟩ := cfgLegal_iff.1 h
  obtain ⟨hnoise, hpink⟩ := noise_atReset_legal c.seed0
  exact {
    cfg := h
    shape := shaped_iff.2 (by simp [Mixer.atReset])
    voices := fun v hv => by
      obtain rfl := List.eq_of_mem_replicate hv
      exact voiceLegal_atReset
    mixer := mixer_atReset_legal c.nv
    noise := hnoise
    pink := hpink
    mods := modsOk_atReset
    rate := rfl
    ring := ringLegal_empty hring
    words := rfl }

/-- Settles O59: every part of the invariant holds of the reset values. -/
theorem resetMeetsTheInvariant : Obligations.ResetMeetsTheInvariant :=
  ⟨fun _ p h => invariant_iff.2 (legal_resetWith p h),
    invariant_iff.2 (legal_resetWith _ (by decide))⟩

/-! ### No NaN -/

theorem between_iff_fle {lo hi x : F64} :
    between lo hi x = true ↔ fle lo x = true ∧ fle x hi = true := Bool.and_eq_true_iff

theorem isNaN_of_between {lo hi x : F64} (h : between lo hi x = true) : isNaN x = false := by
  obtain ⟨hlo, -⟩ := between_iff_fle.1 h
  exact (fle_iff.1 hlo).2.1

theorem isNaN_of_inUnit {x : F64} : inUnit x = true → isNaN x = false := isNaN_of_between
theorem isNaN_of_inOne {x : F64} : inOne x = true → isNaN x = false := isNaN_of_between
theorem isNaN_of_isTap {x : F64} : isTap x = true → isNaN x = false := isNaN_of_between

theorem isNaN_of_isPhase {x : F64} (h : isPhase x = true) : isNaN x = false := by
  obtain ⟨hlo, -⟩ := Bool.and_eq_true_iff.1 h
  exact (fle_iff.1 hlo).2.1

theorem isNaN_of_isWhite {x : F64} (h : isWhite x = true) : isNaN x = false := by
  obtain ⟨hlo, -⟩ := Bool.and_eq_true_iff.1 h
  exact (fle_iff.1 hlo).2.1

theorem isNaN_of_isTime {x : F64} (h : isTime x = true) : isNaN x = false := by
  simpa using (Bool.and_eq_true_iff.1 h).1

theorem isNaN_of_legalRate {sr : F64} (h : legalRate sr = true) : isNaN sr = false := by
  obtain ⟨hsr, -⟩ := legalRate_iff.1 h
  exact isNaN_of_isFinite hsr

theorem voice_not_nan {nm : Numerics} {v : Voice} (h : voiceLegal nm v = true) :
    ∀ x ∈ [v.voltage, v.detune, v.frequency, v.phase], isNaN x = false := by
  obtain ⟨⟨hvolt, hdet, -, hfreq, -⟩, hphase⟩ := voiceLegal_iff.1 h
  simp [isNaN_of_isFinite hvolt, isNaN_of_isFinite hdet, isNaN_of_isFinite hfreq,
    isNaN_of_isPhase hphase]

theorem envelope_not_nan {e : Envelope} (h : envLegal e = true) (hr : envRun e = true) :
    ∀ x ∈ [e.attack, e.decay, e.sustain, e.release, e.value], isNaN x = false := by
  obtain ⟨ha, hd, hre, hs⟩ := envLegal_iff.1 h
  obtain ⟨hv, -⟩ := envRun_iff.1 hr
  simp [isNaN_of_isTime ha, isNaN_of_isTime hd, isNaN_of_isTime hre, isNaN_of_inUnit hs,
    isNaN_of_inUnit hv]

theorem noise_not_nan {n : Noise} (h : noiseLegal n = true) (hp : pinkBounded n.b = true) :
    ∀ x ∈ [n.b.b0, n.b.b1, n.b.b2, n.b.b3, n.b.b4, n.b.b5, n.b.b6, n.brown, n.w1, n.w2],
      isNaN x = false := by
  obtain ⟨hbrown, hw1, hw2⟩ := noiseLegal_iff.1 h
  obtain ⟨h0, h1, h2, h3, h4, h5, h6⟩ := pinkBounded_iff.1 hp
  simp [isNaN_of_isTap h0, isNaN_of_isTap h1, isNaN_of_isTap h2, isNaN_of_isTap h3,
    isNaN_of_isTap h4, isNaN_of_isTap h5, isNaN_of_isTap h6, isNaN_of_between hbrown,
    isNaN_of_isWhite hw1, isNaN_of_isWhite hw2]

theorem ladder_not_nan {l : Ladder} (h : ladderBounded l = true) :
    ∀ x ∈ [l.s0, l.s1, l.s2, l.s3], isNaN x = false := by
  obtain ⟨h0, h1, h2, h3⟩ := ladderBounded_iff.1 h
  simp [isNaN_of_inOne h0, isNaN_of_inOne h1, isNaN_of_inOne h2, isNaN_of_inOne h3]

/-- Settles O60: each register lies in a range that the invariant names, and a range has no NaN in it. -/
theorem noRegisterHoldsANaN : Obligations.NoRegisterHoldsANaN := by
  intro s hs
  have h := invariant_iff.1 hs
  obtain ⟨hlevels, hnoiseLevel, hmaster⟩ := mixerLegal_iff.1 h.mixer
  obtain ⟨hemph, hcontour, hcutoff, hfenv, hlenv⟩ := modsLegal_iff.1 h.mods.regs
  have hnoise := noise_not_nan h.noise h.pink
  have hfenv' := envelope_not_nan hfenv h.mods.fenv
  have hlenv' := envelope_not_nan hlenv h.mods.lenv
  have hladder := ladder_not_nan h.mods.ladder
  simp only [List.forall_mem_cons, List.not_mem_nil, false_imp_iff, implies_true, and_true]
    at hnoise hfenv' hlenv' hladder
  simp only [numericRegisters, List.forall_mem_append, List.forall_mem_cons]
  refine ⟨⟨⟨⟨?voices, ?levels⟩, ?registers⟩, ?rate⟩, ?words⟩
  case voices =>
    intro x hx
    obtain ⟨v, hv, hx⟩ := List.mem_flatMap.1 hx
    exact voice_not_nan (h.voices v hv) x hx
  case levels => exact fun l hl => isNaN_of_inUnit (hlevels l hl)
  case registers =>
    simp [isNaN_of_inUnit hnoiseLevel, isNaN_of_inUnit hmaster, isNaN_of_inUnit hemph,
      isNaN_of_inUnit hcontour, hcutoff, hnoise, hfenv', hlenv', hladder]
  case rate =>
    intro sr hsr
    exact isNaN_of_legalRate (rateLegal_some h.rate (by simpa using hsr))
  case words =>
    intro x hx
    obtain ⟨p, hp, rfl⟩ := List.mem_map.1 hx
    exact isNaN_of_between (ringBounded_iff.1 h.words p hp)

end Sys2Proof.Machine
end

section
/-! SUPPORT. Bounds of results: in which range an operation's rounded result lies, and how far a rounded
difference can be from the exact one (R9). -/

namespace Sys2Proof.Machine

/-! ### Ranges of finite numbers -/

theorem between_iff {lo hi x : F64} (hlo : isFinite lo = true) (hhi : isFinite hi = true) :
    between lo hi x = true ↔ isFinite x = true ∧ units lo ≤ units x ∧ units x ≤ units hi := by
  have hval : ∀ hx : isFinite x = true,
      (fle lo x = true ↔ units lo ≤ units x) ∧ (fle x hi = true ↔ units x ≤ units hi) := fun hx => by
    obtain ⟨-, h1, -⟩ := compare_finite hlo hx
    obtain ⟨-, h2, -⟩ := compare_finite hx hhi
    simp [h1, h2]
  rw [between_iff_fle]
  constructor
  · intro h
    have hx := isFinite_of_range hlo hhi h
    exact ⟨hx, (hval hx).1.1 h.1, (hval hx).2.1 h.2⟩
  · rintro ⟨hx, h1, h2⟩
    exact ⟨(hval hx).1.2 h1, (hval hx).2.2 h2⟩

/-- A rounded result lies in the range of finite numbers in which the exact one lies. -/
theorem between_of_rnd {x lo hi : F64} {z : Int} {d : Nat} (hlo : isFinite lo = true)
    (hhi : isFinite hi = true) (hd : 0 < d) (hnan : isNaN x = false) (hkey : orderKey x = rnd z d)
    (h1 : units lo * d ≤ z) (h2 : z ≤ units hi * d) : between lo hi x = true := by
  exact between_iff_fle.2 ⟨fle_iff.2 ⟨isNaN_of_isFinite hlo, hnan, hkey ▸ le_rnd_of_le hd hlo h1⟩,
    fle_iff.2 ⟨hnan, isNaN_of_isFinite hhi, hkey ▸ rnd_le_of_le hd hhi h2⟩⟩

/-! ### The grid on which bounds are counted -/

/-- `2^-20`, in units. -/
@[irreducible] def grid : Nat := 2 ^ 1054

theorem grid_eq : grid = 2 ^ 1054 := by unfold grid; rfl

theorem oneUnits_eq : oneUnits = 2 ^ 20 * grid := by rw [grid_eq, ← pow_add, oneUnits]

theorem hasFinite_grid {k : Nat} (hk : k < 2 ^ 53) : HasFinite (k * grid) :=
  ⟨k, 1054, hk, by norm_num, by rw [grid_eq]⟩

/-- A finite number of magnitude at most `k` times `2^-20`. -/
def Within (k : Nat) (x : F64) : Prop := isFinite x = true ∧ magUnits x ≤ k * grid

theorem abs_units (x : F64) : |units x| = (magUnits x : Int) := by
  unfold units; split <;> simp

theorem within_iff {k : Nat} {x : F64} :
    Within k x ↔ isFinite x = true ∧ |units x| ≤ (k * grid : Nat) := by
  rw [Within, abs_units, Nat.cast_le]

theorem Within.isFinite {k : Nat} {x : F64} (h : Within k x) : isFinite x = true := h.1

theorem Within.isNaN {k : Nat} {x : F64} (h : Within k x) : isNaN x = false := isNaN_of_isFinite h.1

theorem Within.abs_le {k : Nat} {x : F64} (h : Within k x) : |units x| ≤ (k * grid : Nat) :=
  (within_iff.1 h).2

theorem Within.mono {j k : Nat} {x : F64} (h : Within j x) (hjk : j ≤ k) : Within k x :=
  ⟨h.1, h.2.trans (Nat.mul_le_mul_right _ hjk)⟩

/-- A rounded result stays within a bound on the grid that the exact one keeps. -/
theorem within_of_rnd {k : Nat} (hk : k < 2 ^ 53) {x : F64} {z : Int} {d : Nat} (hd : 0 < d)
    (hnan : Machine.isNaN x = false) (hkey : orderKey x = rnd z d) (h : |z| ≤ (k * grid * d : Nat)) :
    Within k x := by
  have hgrid := hasFinite_grid hk
  have hval := units_pack_of_hasFinite false hgrid
  have hc := isFinite_pack_of_hasFinite false hgrid
  generalize pack false (k * grid) 1 = c at *
  replace hval : units c = (k * grid : Nat) := hval
  push_cast at h hval
  obtain ⟨h1, h2⟩ := abs_le.1 h
  have hb := between_of_rnd (lo := fneg c) (hi := c) (by simpa using hc) hc hd hnan hkey
    (by rw [units_fneg, hval, neg_mul]; exact h1) (by rw [hval]; exact h2)
  obtain ⟨hx, hlo, hhi⟩ := (between_iff (by simpa using hc) hc).1 hb
  rw [units_fneg, hval] at hlo
  rw [hval] at hhi
  exact within_iff.2 ⟨hx, by push_cast; exact abs_le.2 ⟨hlo, hhi⟩⟩

/-! ### The operations -/

theorem within_fadd {k : Nat} (hk : k < 2 ^ 53) {a b : F64} (ha : isFinite a = true)
    (hb : isFinite b = true) (h : |units a + units b| ≤ (k * grid : Nat)) : Within k (fadd a b) :=
  within_of_rnd hk one_pos (isNaN_fadd ha hb) (orderKey_fadd ha hb) (by rwa [Nat.mul_one])

theorem within_fsub {k : Nat} (hk : k < 2 ^ 53) {a b : F64} (ha : isFinite a = true)
    (hb : isFinite b = true) (h : |units a - units b| ≤ (k * grid : Nat)) : Within k (fsub a b) :=
  within_of_rnd hk one_pos (isNaN_fsub ha hb) (orderKey_fsub ha hb) (by rwa [Nat.mul_one])

theorem Within.fadd {j k m : Nat} {a b : F64} (ha : Within j a) (hb : Within k b)
    (hm : j + k ≤ m) (hlt : m < 2 ^ 53) : Within m (fadd a b) := by
  refine within_fadd hlt ha.isFinite hb.isFinite ((abs_add_le _ _).trans ?_)
  have hsum : j * grid + k * grid ≤ m * grid := by
    rw [← Nat.add_mul]; exact Nat.mul_le_mul_right _ hm
  have h1 := ha.abs_le
  have h2 := hb.abs_le
  omega

theorem Within.fneg {k : Nat} {x : F64} (h : Within k x) : Within k (fneg x) :=
  within_iff.2 ⟨by simpa using h.isFinite, by simpa using h.abs_le⟩

theorem Within.fsub {j k m : Nat} {a b : F64} (ha : Within j a) (hb : Within k b)
    (hm : j + k ≤ m) (hlt : m < 2 ^ 53) : Within m (fsub a b) := ha.fadd hb.fneg hm hlt

theorem Within.fmul {j k m : Nat} {a b : F64} (ha : Within j a) (hb : Within k b)
    (hm : j * k ≤ m * 2 ^ 20) (hlt : m < 2 ^ 53) : Within m (fmul a b) := by
  refine within_of_rnd hlt oneUnits_pos (isNaN_fmul ha.isFinite hb.isFinite)
    (orderKey_fmul ha.isFinite hb.isFinite) ?_
  rw [abs_mul, abs_units, abs_units, oneUnits_eq]
  norm_cast
  calc magUnits a * magUnits b ≤ (j * grid) * (k * grid) := Nat.mul_le_mul ha.2 hb.2
    _ = (j * k) * (grid * grid) := by ring
    _ ≤ (m * 2 ^ 20) * (grid * grid) := Nat.mul_le_mul_right _ hm
    _ = m * grid * (2 ^ 20 * grid) := by ring

theorem Within.fabs {k : Nat} {x : F64} (h : Within k x) : Within k (fabs x) :=
  ⟨by simpa using h.isFinite, by simpa [magUnits_eq] using h.2⟩

/-! ### The ranges of the invariant -/

theorem orderKey_zero : orderKey zero = 0 := by decide

theorem fle_zero_iff {x : F64} (hx : isFinite x = true) : fle zero x = true ↔ 0 ≤ units x := by
  obtain ⟨-, hle, -⟩ := compare_finite (a := zero) (by decide) hx
  rw [hle, units_zero, decide_eq_true_eq]

/-- 1 on the grid. -/
def gridOne : Nat := 2 ^ 20

theorem gridOne_mul_grid : gridOne * grid = oneUnits := by rw [oneUnits_eq, gridOne]

theorem units_negOne : units negOne = -(oneUnits : Int) := by decide +kernel

theorem isFinite_zero : isFinite zero = true := by decide
theorem isFinite_one : isFinite one = true := by decide
theorem isFinite_negOne : isFinite negOne = true := by decide

theorem inOne_iff {x : F64} : inOne x = true ↔ Within gridOne x := by
  rw [inOne, between_iff isFinite_negOne isFinite_one, within_iff, units_negOne, units_one, abs_le,
    gridOne_mul_grid]

theorem inUnit_iff {x : F64} :
    inUnit x = true ↔ isFinite x = true ∧ 0 ≤ units x ∧ units x ≤ oneUnits := by
  rw [inUnit, between_iff isFinite_zero isFinite_one, units_zero, units_one]

theorem isTap_iff {x : F64} : isTap x = true ↔ Within (64 * gridOne) x := by
  have hlo : units 0xC050000000000000#64 = -((64 * gridOne * grid : Nat) : Int) := by decide +kernel
  have hhi : units 0x4050000000000000#64 = ((64 * gridOne * grid : Nat) : Int) := by decide +kernel
  rw [isTap, between_iff (by decide) (by decide), within_iff, hlo, hhi, abs_le]

theorem within_of_inUnit {x : F64} (h : inUnit x = true) : Within gridOne x := by
  obtain ⟨hx, h0, h1⟩ := inUnit_iff.1 h
  rw [within_iff, gridOne_mul_grid, abs_of_nonneg h0]
  exact ⟨hx, h1⟩

theorem isPhase_iff {x : F64} :
    isPhase x = true ↔ isFinite x = true ∧ 0 ≤ units x ∧ units x < oneUnits := by
  rw [isPhase, Bool.and_eq_true]
  have hlt : ∀ hx : isFinite x = true, flt x one = true ↔ units x < oneUnits := fun hx => by
    obtain ⟨hlt, -, -⟩ := compare_finite hx isFinite_one
    rw [hlt, units_one, decide_eq_true_eq]
  constructor
  · rintro ⟨h0, h1⟩
    have hx := isFinite_of_isPhase h0 h1
    exact ⟨hx, (fle_zero_iff hx).1 h0, (hlt hx).1 h1⟩
  · rintro ⟨hx, h0, h1⟩
    exact ⟨(fle_zero_iff hx).2 h0, (hlt hx).2 h1⟩

theorem inOne_of_isWhite {x : F64} (h : isWhite x = true) : inOne x = true := by
  rw [isWhite, Bool.and_eq_true] at h
  obtain ⟨hx, hone, hlt⟩ := flt_iff.1 h.2
  exact between_iff_fle.2 ⟨h.1, fle_iff.2 ⟨hx, hone, hlt.le⟩⟩

theorem inUnit_clampUnit {x : F64} (h : isNaN x = false) : inUnit (clampUnit x) = true :=
  between_iff_fle.2 (clamp_range h (by decide))

theorem inOne_clamp {x : F64} (h : isNaN x = false) : inOne (clamp x negOne one) = true :=
  between_iff_fle.2 (clamp_range h (by decide))

theorem signBit_of_pos {x : F64} (h : 0 < orderKey x) : signBit x = false := by
  cases hs : signBit x
  · rfl
  · rw [orderKey, hs, if_pos rfl] at h
    omega

theorem isTime_clampT (t : F64) : isTime (clampT t) = true := by
  unfold clampT
  split
  · next h =>
    obtain ⟨-, hnan, hpos⟩ := flt_iff.1 h
    simp [isTime, hnan, signBit_of_pos hpos]
  · decide

/-! ### The error of a rounded difference -/

/-- The multiples of `2q` lie `q` or less from every integer. -/
theorem exists_multiple_near {z q : Int} (hq : 0 < q) (h : |z| ≤ 2 ^ 54 * q) :
    ∃ j : Int, |j| ≤ 2 ^ 53 ∧ |2 * j * q - z| ≤ q := by
  have h2q : 0 < 2 * q := by omega
  have hdiv := Int.mul_ediv_add_emod (z + q) (2 * q)
  have hmod := Int.emod_nonneg (z + q) h2q.ne'
  have hmod' := Int.emod_lt_of_pos (z + q) h2q
  obtain ⟨hlo, hhi⟩ := abs_le.1 h
  refine ⟨(z + q) / (2 * q), abs_le.2 ⟨?_, ?_⟩, ?_⟩
  · rw [Int.le_ediv_iff_mul_le h2q]; linarith
  · rw [← Int.lt_add_one_iff, Int.ediv_lt_iff_lt_mul h2q]; linarith
  · have hmul : 2 * ((z + q) / (2 * q)) * q = 2 * q * ((z + q) / (2 * q)) := by ring
    rw [hmul, abs_le]
    constructor <;> linarith

/-- From -2 to 2 every multiple of `2^-52` is a number. -/
theorem hasFinite_multiple {j : Nat} (hj : j ≤ 2 ^ 53) : HasFinite (2 * j * 2 ^ 1021) := by
  have hplace : 2 * j * 2 ^ 1021 = j * 2 ^ 1022 := by
    rw [pow_succ' 2 1021, ← Nat.mul_assoc, Nat.mul_comm j 2]
  rw [hplace]
  rcases hj.lt_or_eq with hlt | rfl
  · exact ⟨j, 1022, hlt, by norm_num, rfl⟩
  · exact ⟨1, 1075, by norm_num, by norm_num, by rw [← pow_add, Nat.one_mul]⟩

/-- From -2 to 2 there is a number within `2^-53` of every value. -/
theorem exists_number_near {z : Int} (h : |z| ≤ (2 * oneUnits : Nat)) :
    ∃ y : F64, isFinite y = true ∧ |units y - z| ≤ (2 ^ 1021 : Nat) := by
  have hone : 2 * oneUnits = 2 ^ 54 * 2 ^ 1021 := by rw [oneUnits, ← pow_succ', ← pow_add]
  have hpos : 0 < 2 ^ 1021 := by positivity
  have hmultiple := fun j => hasFinite_multiple (j := j)
  rw [hone] at h
  generalize 2 ^ 1021 = q at *
  obtain ⟨j, hj, hnear⟩ := exists_multiple_near (z := z) (q := q) (by omega) (by exact_mod_cast h)
  have hnum : HasFinite (2 * j * q).natAbs := by
    rw [Int.natAbs_mul, Int.natAbs_mul, Int.natAbs_natCast]
    rw [Int.abs_eq_natAbs] at hj
    exact hmultiple _ (by exact_mod_cast hj)
  obtain ⟨hy, hval⟩ := packSum_of_hasFinite false hnum
  exact ⟨_, hy, by rwa [hval]⟩

theorem fsub_error {a b : F64} (ha : isFinite a = true) (hb : isFinite b = true)
    (h : |units a - units b| ≤ (2 * oneUnits : Nat)) (hfin : isFinite (fsub a b) = true) :
    |units (fsub a b) - (units a - units b)| ≤ (2 ^ 1021 : Nat) := by
  obtain ⟨y, hy, hnear⟩ := exists_number_near h
  obtain ⟨-, -, -, hbest⟩ := fsub_roundsToNearestEven ha hb
  have hle := (hbest hfin y hy).1
  rw [mul_one, mul_one] at hle
  exact hle.trans hnear

/-! ### A step by a fraction of the distance -/

/-- The product with a number in `[0, 1]` lies between zero and the other factor. -/
theorem fmul_unit_between {d k : F64} (hd : isFinite d = true) (hk : inUnit k = true) :
    isFinite (fmul d k) = true ∧ min 0 (units d) ≤ units (fmul d k) ∧
      units (fmul d k) ≤ max 0 (units d) := by
  obtain ⟨hkf, hk0, hk1⟩ := inUnit_iff.1 hk
  have hnan := isNaN_fmul hd hkf
  have hkey := orderKey_fmul hd hkf
  rcases le_total 0 (units d) with h | h
  · have hb := between_of_rnd isFinite_zero hd oneUnits_pos hnan hkey
      (by rw [units_zero, zero_mul]; exact mul_nonneg h hk0) (mul_le_mul_of_nonneg_left hk1 h)
    rw [between_iff isFinite_zero hd, units_zero] at hb
    rwa [min_eq_left h, max_eq_right h]
  · have hb := between_of_rnd hd isFinite_zero oneUnits_pos hnan hkey
      (mul_le_mul_of_nonpos_left hk1 h) (by
        rw [units_zero, zero_mul]; exact mul_nonpos_of_nonpos_of_nonneg h hk0)
    rw [between_iff hd isFinite_zero, units_zero] at hb
    rwa [min_eq_right h, max_eq_left h]

/-- A half step of `2^-52` beyond 1 rounds to 1: ties go to even (R9). -/
theorem rnd_one_add_half : rnd ((oneUnits : Int) + (2 ^ 1021 : Nat)) 1 = orderKey one := by
  decide +kernel

/-- From `v` toward `target` by the fraction `k`, all in `[-1, 1]`: the rounded difference is at most
`2^-53` too large, and a sum at most `2^-53` beyond 1 rounds back to 1. -/
theorem inOne_step {v target k : F64} (hv : inOne v = true) (ht : inOne target = true)
    (hk : inUnit k = true) : inOne (fadd v (fmul (fsub target v) k)) = true := by
  rw [inOne_iff] at hv ht
  have hd : Within (2 * gridOne) (fsub target v) := ht.fsub hv (by decide) (by decide)
  have hva := hv.abs_le
  have hta := ht.abs_le
  rw [gridOne_mul_grid, abs_le] at hva hta
  have herr := fsub_error ht.isFinite hv.isFinite (by rw [abs_le]; push_cast; omega) hd.isFinite
  rw [abs_le] at herr
  obtain ⟨hp, hlo, hhi⟩ := fmul_unit_between hd.isFinite hk
  have hsum : -((oneUnits : Int) + (2 ^ 1021 : Nat)) ≤ units v + units (fmul (fsub target v) k) ∧
      units v + units (fmul (fsub target v) k) ≤ (oneUnits : Int) + (2 ^ 1021 : Nat) := by
    generalize 2 ^ 1021 = q at *
    omega
  have hnan := isNaN_fadd hv.isFinite hp
  have hkey := orderKey_fadd hv.isFinite hp
  have hneg : orderKey negOne = -orderKey one := by decide
  refine between_iff_fle.2 ⟨?_, ?_⟩
  · refine fle_iff.2 ⟨by decide, hnan, ?_⟩
    rw [hkey, hneg, ← rnd_one_add_half, ← rnd_neg]
    exact rnd_mono one_pos one_pos (by rw [Nat.cast_one, mul_one, mul_one]; exact hsum.1)
  · refine fle_iff.2 ⟨hnan, by decide, ?_⟩
    rw [hkey, ← rnd_one_add_half]
    exact rnd_mono one_pos one_pos (by rw [Nat.cast_one, mul_one, mul_one]; exact hsum.2)

/-- A rounded result is not below zero where the exact one is not. -/
theorem units_nonneg_of_rnd {x : F64} {z : Int} {d : Nat} (hx : isFinite x = true)
    (hkey : orderKey x = rnd z d) (hz : 0 ≤ z) : 0 ≤ units x := by
  rw [← units_zero, units_le_iff isFinite_zero hx, hkey]
  exact rnd_nonneg hz

/-- The same with the ends in `[0, 1]`: the difference is not below `-v`, which is a number. -/
theorem inUnit_step {v target k : F64} (hv : inUnit v = true) (ht : inUnit target = true)
    (hk : inUnit k = true) : inUnit (fadd v (fmul (fsub target v) k)) = true := by
  have hone := inOne_step (inOne_iff.2 (within_of_inUnit hv)) (inOne_iff.2 (within_of_inUnit ht)) hk
  have hr := inOne_iff.1 hone
  have hd : Within (2 * gridOne) (fsub target v) :=
    (within_of_inUnit ht).fsub (within_of_inUnit hv) (by decide) (by decide)
  obtain ⟨hvf, hv0, hv1⟩ := inUnit_iff.1 hv
  obtain ⟨htf, ht0, ht1⟩ := inUnit_iff.1 ht
  obtain ⟨hp, hlo, -⟩ := fmul_unit_between hd.isFinite hk
  have hdiff : -units v ≤ units (fsub target v) := by
    rw [← units_fneg, units_le_iff (by simpa using hvf) hd.isFinite, orderKey_fsub htf hvf]
    exact le_rnd_of_le one_pos (by simpa using hvf) (by simp; omega)
  have habs := hr.abs_le
  rw [gridOne_mul_grid, abs_le] at habs
  refine inUnit_iff.2 ⟨hr.isFinite, ?_, habs.2⟩
  exact units_nonneg_of_rnd hr.isFinite (orderKey_fadd hvf hp) (by omega)

end Sys2Proof.Machine
end

section
/-! SUPPORT. What a tick keeps, part by part: the voices (R112, R117, R118), the noise generator (R153 to
R161), the mix (R140), the envelopes (R180 to R186), the filter (R205 to R211), the output clamp (R226). -/

namespace Sys2Proof.Machine

/-! ### Voices -/

/-- A phase below 1 and a finite increment have a finite sum: the largest number is further than 1 from
the midpoint at which rounding overflows. -/
theorem isFinite_fadd_phase {p inc : F64} (hp : isPhase p = true) (hinc : isFinite inc = true)
    (h0 : 0 ≤ units inc) : isFinite (fadd p inc) = true := by
  obtain ⟨hpf, hp0, hp1⟩ := isPhase_iff.1 hp
  obtain ⟨-, -, hfin, -⟩ := fadd_roundsToNearestEven hpf hinc
  have hmax : isFinite 0x7FEFFFFFFFFFFFFF#64 = true := by decide
  have hlargest : units inc ≤ units 0x7FEFFFFFFFFFFFFF#64 := by
    rw [units_le_iff hinc hmax]
    have hkey : orderKey 0x7FEFFFFFFFFFFFFF#64 = infBits - 1 := by decide
    have := ((isFinite_iff inc).1 hinc).2
    omega
  have hroom : units 0x7FEFFFFFFFFFFFFF#64 + oneUnits < (2 ^ 54 - 1) * 2 ^ 2044 := by decide +kernel
  rw [hfin, abs_of_nonneg (by omega), abs_one, mul_one]
  omega

/-- R118: a tick keeps a phase in `[0, 1)`, for a finite increment that is not below zero. -/
theorem isPhase_voiceAdvance {sr : F64} {v : Voice} (hp : isPhase v.phase = true)
    (hinc : isFinite (phaseInc sr v) = true) (h0 : 0 ≤ units (phaseInc sr v)) :
    isPhase (voiceAdvance sr v).phase = true := by
  obtain ⟨hpf, hp0, -⟩ := isPhase_iff.1 hp
  have hsum := isFinite_fadd_phase hp hinc h0
  exact isPhase_frac hsum
    (units_nonneg_of_rnd hsum (orderKey_fadd hpf hinc) (Int.add_nonneg hp0 h0))

/-- The increment of a frequency that is not below zero is not below zero. -/
theorem phaseInc_nonneg {sr : F64} {v : Voice} (hsr : legalRate sr = true)
    (hf : isFinite v.frequency = true) (h0 : fle zero v.frequency = true)
    (hinc : isFinite (phaseInc sr v) = true) : 0 ≤ units (phaseInc sr v) := by
  obtain ⟨hsrf, hpos, -, -⟩ := legalRate_iff.1 hsr
  obtain ⟨-, -, hkey⟩ := flt_iff.1 hpos
  exact units_nonneg_of_rnd hinc (orderKey_fdiv hf hsrf (orderKey_zero ▸ hkey))
    (mul_nonneg ((fle_zero_iff hf).1 h0) (Int.natCast_nonneg oneUnits))

theorem voiceLegal_voiceAdvance {nm : Numerics} {sr : F64} {v : Voice} (hsr : legalRate sr = true)
    (hv : voiceLegal nm v = true) (hinc : isFinite (phaseInc sr v) = true) :
    voiceLegal nm (voiceAdvance sr v) = true := by
  obtain ⟨htuned, hphase⟩ := voiceLegal_iff.1 hv
  obtain ⟨-, -, -, hf, h0⟩ := id htuned
  exact voiceLegal_iff.2
    ⟨htuned, isPhase_voiceAdvance hphase hinc (phaseInc_nonneg hsr hf h0 hinc)⟩

/-- A phase is within a half of 0.5. -/
theorem within_centred {p : F64} (hp : isPhase p = true) : Within (2 ^ 19) (fsub p litHalf) := by
  obtain ⟨hpf, hp0, hp1⟩ := isPhase_iff.1 hp
  have hhalf : isFinite litHalf = true ∧ 2 * units litHalf = oneUnits := by decide +kernel
  obtain ⟨hhf, hhalf⟩ := hhalf
  have hgrid := oneUnits_eq
  exact within_fsub (by decide) hpf hhf (by rw [abs_le]; omega)

/-- 2 and 4 as numbers. -/
theorem within_two : Within (2 * gridOne) litTwo := by unfold Within; decide +kernel
theorem within_four : Within (4 * gridOne) litFour := by unfold Within; decide +kernel
theorem units_four_nonneg : 0 ≤ units litFour := by decide +kernel

/-- R112: every waveform stays in `[-1, 1]`. -/
theorem inOne_wave {nm : Numerics} (hnm : LawfulNumerics nm) (w : Waveform) {p : F64}
    (hp : isPhase p = true) : inOne (wave nm w p) = true := by
  have hcentred := within_centred hp
  cases w with
  | saw => exact inOne_iff.2 (within_two.fmul hcentred (by decide) (by decide))
  | pulse =>
    simp only [wave]
    split <;> decide
  | triangle =>
    have hscaled : Within (2 * gridOne) (fmul litFour (fabs (fsub p litHalf))) :=
      within_four.fmul hcentred.fabs (by decide) (by decide)
    have habs : 0 ≤ units (fabs (fsub p litHalf)) := by simp [units]
    have h0 := units_nonneg_of_rnd hscaled.isFinite
      (orderKey_fmul within_four.isFinite hcentred.fabs.isFinite) (mul_nonneg units_four_nonneg habs)
    refine inOne_iff.2 (within_fsub (by decide) hscaled.isFinite isFinite_one ?_)
    have h2 := hscaled.abs_le
    rw [Nat.mul_assoc, gridOne_mul_grid] at h2
    rw [gridOne_mul_grid, units_one]
    rw [abs_le] at h2 ⊢
    omega
  | sine =>
    obtain ⟨h0, h1⟩ : fle zero p = true ∧ flt p one = true := by simpa [isPhase] using hp
    exact between_iff_fle.2 (hnm.sin_range p h0 h1)

/-! ### The noise generator -/

/-- A 53-bit integer times `2^-52` lies from 0 to `2 - 2^-52`. -/
theorem whiteScaled_range {u : Nat} (hu : u < 2 ^ 53) :
    between zero 0x3FFFFFFFFFFFFFFF#64 (fmul (u2f u) litWhiteScale) = true := by
  have hnum : HasFinite (u * oneUnits) := ⟨u, 1074, hu, by norm_num, rfl⟩
  have huf := isFinite_pack_of_hasFinite false hnum
  have hval : units (u2f u) = (u * oneUnits : Nat) := units_pack_of_hasFinite false hnum
  have hscale : isFinite litWhiteScale = true ∧ 0 ≤ units litWhiteScale ∧
      ((2 ^ 53 - 1 : Nat) * oneUnits : Int) * units litWhiteScale
        ≤ units 0x3FFFFFFFFFFFFFFF#64 * oneUnits := by decide +kernel
  obtain ⟨hsf, hs0, hsmax⟩ := hscale
  refine between_of_rnd isFinite_zero (by decide) oneUnits_pos (isNaN_fmul huf hsf)
    (orderKey_fmul huf hsf) ?_ ?_
  · rw [units_zero, zero_mul, hval]
    exact mul_nonneg (Int.natCast_nonneg _) hs0
  · refine le_trans (mul_le_mul_of_nonneg_right ?_ hs0) hsmax
    rw [hval]
    exact_mod_cast Nat.mul_le_mul_right oneUnits (by omega)

/-- R154: the white sample is in `[-1, 1)`; the largest is `1 - 2^-52`. -/
theorem isWhite_whiteOf (seed : Word64) : isWhite (whiteOf seed) = true := by
  have htop : (seed >>> 11).toNat < 2 ^ 53 := by
    have := seed.isLt
    rw [BitVec.toNat_ushiftRight, Nat.shiftRight_eq_div_pow]
    omega
  obtain ⟨hf, h0, h1⟩ := (between_iff isFinite_zero (by decide)).1 (whiteScaled_range htop)
  have hmax : units 0x3FFFFFFFFFFFFFFF#64 - units one = units 0x3FEFFFFFFFFFFFFE#64 := by
    decide +kernel
  rw [units_zero] at h0
  have hrange : between negOne 0x3FEFFFFFFFFFFFFE#64 (whiteOf seed) = true := by
    refine between_of_rnd isFinite_negOne (by decide) one_pos (isNaN_fsub hf isFinite_one)
      (orderKey_fsub hf isFinite_one) ?_ ?_
    · rw [units_negOne, units_one, Nat.cast_one, mul_one]; omega
    · rw [Nat.cast_one, mul_one]; omega
  obtain ⟨hlo, hhi⟩ := between_iff_fle.1 hrange
  obtain ⟨hnan, -, hle⟩ := fle_iff.1 hhi
  have hlast : orderKey 0x3FEFFFFFFFFFFFFE#64 < orderKey one := by decide
  rw [isWhite, Bool.and_eq_true]
  exact ⟨hlo, flt_iff.2 ⟨hnan, by decide, hle.trans_lt hlast⟩⟩

theorem within_white (n : Noise) : Within gridOne (tickWhite n) :=
  inOne_iff.1 (inOne_of_isWhite (isWhite_whiteOf _))

/-- One section of the pink filter keeps its tap in `[-64, 64]` where 64 times a bound of the pole and a
bound of the gain are together at most 64. -/
theorem isTap_pinkPole {pole b gain white : F64} {j k : Nat} (hpole : Within j pole)
    (hgain : Within k gain) (hb : isTap b = true) (hw : Within gridOne white)
    (hjk : j * 64 + k ≤ 64 * gridOne) : isTap (pinkPole pole b gain white) = true := by
  have hj : j ≤ gridOne := by omega
  have hk : k ≤ 64 * gridOne := by omega
  have hone : gridOne = 2 ^ 20 := rfl
  have hleft : Within (j * 64) (fmul pole b) :=
    hpole.fmul (isTap_iff.1 hb) (by rw [hone]; omega) (by omega)
  have hright : Within k (fmul white gain) := hw.fmul hgain (by rw [hone]; omega) (by omega)
  exact isTap_iff.2 (hleft.fadd hright hjk (by decide))

/-- R155, R156 with the model's bound (log 17): a tick keeps every tap in `[-64, 64]`. -/
theorem pinkSections_bounded {b : PinkTaps} {white : F64} (hb : pinkBounded b = true)
    (hw : Within gridOne white) : pinkBounded (pinkSections b white) = true := by
  obtain ⟨h0, h1, h2, h3, h4, h5, h6⟩ := pinkBounded_iff.1 hb
  have hpole : ∀ {j k : Nat} {pole b gain : F64}, Within j pole ∧ Within k gain → isTap b = true →
      j * 64 + k ≤ 64 * gridOne → isTap (pinkPole pole b gain white) = true :=
    fun ⟨hpole, hgain⟩ hb hjk => isTap_pinkPole hpole hgain hb hw hjk
  have hlit : (Within 1047381 litPole0 ∧ Within 58215 litGain0) ∧
      (Within 1041572 litPole1 ∧ Within 78723 litGain1) ∧
      (Within 1016071 litPole2 ∧ Within 161326 litGain2) ∧
      (Within 908592 litPole3 ∧ Within 325568 litGain3) ∧
      (Within 576717 litPole4 ∧ Within 558841 litGain4) ∧
      (Within 798596 litPole5 ∧ Within 17719 litGain5) := by
    unfold Within; decide +kernel
  obtain ⟨l0, l1, l2, l3, l4, l5⟩ := hlit
  exact pinkBounded_iff.2 ⟨hpole l0 h0 (by decide), hpole l1 h1 (by decide), hpole l2 h2 (by decide),
    hpole l3 h3 (by decide), hpole l4 h4 (by decide), hpole l5 h5 (by decide), h6⟩

theorem isTap_pinkTap6 {white : F64} (hw : Within gridOne white) : isTap (pinkTap6 white) = true := by
  have hlit : Within gridOne litTap6 := by unfold Within; decide +kernel
  exact isTap_iff.2 (hw.fmul hlit (by decide) (by decide))

theorem noiseNext_b (n : Noise) :
    (noiseNext n).b = { pinkSections n.b (tickWhite n) with b6 := pinkTap6 (tickWhite n) } := by
  simp only [noiseNext]
theorem noiseNext_brown (n : Noise) : (noiseNext n).brown = brownStep n.brown (tickWhite n) := by
  simp only [noiseNext]
theorem noiseNext_w1 (n : Noise) : (noiseNext n).w1 = tickWhite n := by
  simp only [noiseNext]
theorem noiseNext_w2 (n : Noise) : (noiseNext n).w2 = n.w1 := by
  simp only [noiseNext]

theorem pinkBounded_noiseNext {n : Noise} (h : pinkBounded n.b = true) :
    pinkBounded (noiseNext n).b = true := by
  have hw := within_white n
  obtain ⟨h0, h1, h2, h3, h4, h5, -⟩ := pinkBounded_iff.1 (pinkSections_bounded h hw)
  simp only [pinkBounded_iff, noiseNext_b]
  exact ⟨h0, h1, h2, h3, h4, h5, isTap_pinkTap6 hw⟩

/-- R158: the clamp of the brown integrator. -/
theorem brownStep_range {brown white : F64} (hb : between litBrownMin litBrownMax brown = true)
    (hw : Within gridOne white) : between litBrownMin litBrownMax (brownStep brown white) = true := by
  obtain ⟨hbf, -, -⟩ := (between_iff (by decide) (by decide)).1 hb
  have hlit : Within gridOne litBrownStep := by unfold Within; decide +kernel
  have hprod : Within gridOne (fmul white litBrownStep) := hw.fmul hlit (by decide) (by decide)
  exact between_iff_fle.2 (clamp_range (isNaN_fadd hbf hprod.isFinite) (by decide))

theorem noiseLegal_noiseNext {n : Noise} (h : noiseLegal n = true) :
    noiseLegal (noiseNext n) = true := by
  obtain ⟨hbrown, hw1, -⟩ := noiseLegal_iff.1 h
  rw [noiseLegal_iff, noiseNext_brown, noiseNext_w1, noiseNext_w2]
  exact ⟨brownStep_range hbrown (within_white n), isWhite_whiteOf _, hw1⟩

/-- The pink sample (R156) is at most 64, a wide bound: eight terms of at most 64, times 0.11. -/
theorem within_pinkSample {b : PinkTaps} {white : F64} (delayed : Bool) (hb : pinkBounded b = true)
    (hw : Within gridOne white) : Within (64 * gridOne) (pinkSample delayed b white) := by
  obtain ⟨h0, h1, h2, h3, h4, h5, h6⟩ := pinkBounded_iff.1 hb
  rw [isTap_iff] at h0 h1 h2 h3 h4 h5 h6
  have htap : Within (64 * gridOne) (if delayed then b.b6 else pinkTap6 white) := by
    cases delayed
    · exact isTap_iff.1 (isTap_pinkTap6 hw)
    · exact h6
  have hbias : Within gridOne litBias := by unfold Within; decide +kernel
  have hscale : Within 115344 litPinkScale := by unfold Within; decide +kernel
  have hdirect : Within (64 * gridOne) (fmul white litBias) := hw.fmul hbias (by decide) (by decide)
  have s1 : Within (128 * gridOne) _ := h0.fadd h1 (by decide) (by decide)
  have s2 : Within (192 * gridOne) _ := s1.fadd h2 (by decide) (by decide)
  have s3 : Within (256 * gridOne) _ := s2.fadd h3 (by decide) (by decide)
  have s4 : Within (320 * gridOne) _ := s3.fadd h4 (by decide) (by decide)
  have s5 : Within (384 * gridOne) _ := s4.fadd h5 (by decide) (by decide)
  have s6 : Within (448 * gridOne) _ := s5.fadd htap (by decide) (by decide)
  have s7 : Within (512 * gridOne) _ := s6.fadd hdirect (by decide) (by decide)
  exact s7.fmul hscale (by decide) (by decide)

theorem within_of_brown {x : F64} (h : between litBrownMin litBrownMax x = true) :
    Within (64 * gridOne) x := by
  have hends : units litBrownMin = -units litBrownMax ∧
      units litBrownMax ≤ (64 * gridOne * grid : Nat) := by decide +kernel
  obtain ⟨hx, h1, h2⟩ := (between_iff (by decide) (by decide)).1 h
  exact within_iff.2 ⟨hx, abs_le.2 (by omega)⟩

theorem within_selectColour {k : Nat} {t : NoiseTuple} (c : NoiseColour) (hwhite : Within k t.white)
    (hpink : Within k t.pink) (hbrown : Within k t.brown) (hblue : Within k t.blue)
    (hviolet : Within k t.violet) (hgrey : Within k t.grey) : Within k (selectColour c t) := by
  cases c
  case white => exact hwhite
  case pink => exact hpink
  case brown => exact hbrown
  case blue => exact hblue
  case violet => exact hviolet
  case grey => exact hgrey

/-- Whatever the colour, the noise sample is at most 64. -/
theorem within_noiseSample {n : Noise} (delayed : Bool) (h : noiseLegal n = true)
    (hp : pinkBounded n.b = true) : Within (64 * gridOne) (noiseSample delayed n) := by
  obtain ⟨hbrown, hw1, hw2⟩ := noiseLegal_iff.1 h
  have hw := within_white n
  have hw1' := inOne_iff.1 (inOne_of_isWhite hw1)
  have hw2' := inOne_iff.1 (inOne_of_isWhite hw2)
  have hpink := within_pinkSample delayed (pinkSections_bounded hp hw) hw
  have hwide : ∀ {x : F64}, isNaN x = false → Within (64 * gridOne) (clamp x negOne one) :=
    fun hx => (inOne_iff.1 (inOne_clamp hx)).mono (by decide)
  have hgw : Within gridOne litGreyWhite := by unfold Within; decide +kernel
  have hgp : Within gridOne litGreyPink := by unfold Within; decide +kernel
  rw [noiseSample, noiseTuple]
  apply within_selectColour <;> dsimp only
  case hwhite => exact hw.mono (by decide)
  case hpink => exact hpink
  case hbrown => exact within_of_brown (brownStep_range hbrown hw)
  case hblue =>
    have hdiff : Within (2 * gridOne) (fsub (tickWhite n) n.w1) := hw.fsub hw1' (by decide) (by decide)
    exact hwide hdiff.isNaN
  case hviolet =>
    have hdouble : Within (2 * gridOne) (fmul litTwo n.w1) := within_two.fmul hw1' (by decide) (by decide)
    have hdiff : Within (3 * gridOne) (fsub (tickWhite n) (fmul litTwo n.w1)) :=
      hw.fsub hdouble (by decide) (by decide)
    exact hwide (isNaN_fadd hdiff.isFinite hw2'.isFinite)
  case hgrey =>
    have hleft : Within gridOne (fmul litGreyWhite (tickWhite n)) := hgw.fmul hw (by decide) (by decide)
    have hright := hgp.fmul hpink (m := 64 * gridOne) (by decide) (by decide)
    exact hwide (isNaN_fadd hleft.isFinite hright.isFinite)

/-! ### The mix -/

/-- Each voice adds at most 1 to the sum. -/
theorem within_mixVoices {m : Nat} (ens : List Bool) {ls vs : List F64} {acc : F64}
    (hacc : Within (m * gridOne) acc) (hls : ∀ l ∈ ls, inUnit l = true)
    (hvs : ∀ v ∈ vs, inOne v = true) (hm : m + ens.length ≤ 256) :
    Within (256 * gridOne) (mixVoices acc ens ls vs) := by
  induction ens generalizing m acc ls vs with
  | nil => exact hacc.mono (Nat.mul_le_mul_right _ hm)
  | cons en ens ih =>
    have hm' : m + 1 + ens.length ≤ 256 := by simpa [Nat.add_assoc, Nat.add_comm 1] using hm
    have hend : Within (256 * gridOne) acc := hacc.mono (Nat.mul_le_mul_right _ (by omega))
    cases ls with
    | nil => exact hend
    | cons l ls =>
      cases vs with
      | nil => exact hend
      | cons v vs =>
        obtain ⟨hl, hls⟩ := List.forall_mem_cons.1 hls
        obtain ⟨hv, hvs⟩ := List.forall_mem_cons.1 hvs
        refine ih (m := m + 1) ?_ hls hvs hm'
        have hterm : Within gridOne (fmul l v) :=
          (within_of_inUnit hl).fmul (inOne_iff.1 hv) (by decide) (by decide)
        cases en
        · exact hacc.mono (Nat.mul_le_mul_right _ (by omega))
        · have hone : gridOne = 2 ^ 20 := rfl
          exact hacc.fadd hterm (by rw [hone]; omega) (by rw [hone]; omega)

/-- R140: the mix of at most 256 voices and the noise is a finite number. -/
theorem within_mixStep {m : Mixer} {vs : List F64} {ns : F64} (hm : mixerLegal m = true)
    (hlen : m.oscEn.length ≤ 256) (hvs : ∀ v ∈ vs, inOne v = true)
    (hns : Within (64 * gridOne) ns) : Within (320 * gridOne) (mixStep m vs ns) := by
  obtain ⟨hlevels, hlevel, hmaster⟩ := mixerLegal_iff.1 hm
  have hzero : Within (0 * gridOne) zero := by unfold Within; decide
  have hacc := within_mixVoices m.oscEn hzero hlevels hvs (by omega)
  have hterm : Within (64 * gridOne) (fmul m.noiseLevel ns) :=
    (within_of_inUnit hlevel).fmul hns (by decide) (by decide)
  have hsum : Within (320 * gridOne) (if m.noiseEn
      then fadd (mixVoices zero m.oscEn m.level vs) (fmul m.noiseLevel ns)
      else mixVoices zero m.oscEn m.level vs) := by
    cases m.noiseEn
    · exact hacc.mono (by decide)
    · exact hacc.fadd hterm (by decide) (by decide)
  exact (within_of_inUnit hmaster).fmul hsum (by decide) (by decide)

end Sys2Proof.Machine
end

section
/-! SUPPORT. What a tick keeps of the modifiers and the ring: the envelopes (R180 to R186, R189), the
filter (R205 to R211), the output clamp (R226). -/

namespace Sys2Proof.Machine

/-! ### Envelopes -/

/-- A NaN is not below anything, so `fmin` gives 1 for it. -/
theorem fmin_one_cases (x : F64) :
    (isNaN x = false ∧ orderKey x < orderKey one ∧ fmin x one = x) ∨ fmin x one = one := by
  unfold fmin
  cases h : flt x one
  · exact .inr rfl
  · obtain ⟨hx, -, hlt⟩ := flt_iff.1 h
    exact .inl ⟨hx, hlt, rfl⟩

/-- The quotient of two numbers that are not below zero is not below zero, or no number (`0 / 0`,
`inf / inf`). -/
theorem orderKey_fdiv_nonneg {a b : F64} (ha : fle zero a = true) (hb : isTime b = true)
    (hnan : isNaN (fdiv a b) = false) : 0 ≤ orderKey (fdiv a b) := by
  obtain ⟨-, han, ha0⟩ := fle_iff.1 ha
  obtain ⟨hbn, hbs⟩ : isNaN b = false ∧ signBit b = false := by simpa [isTime] using hb
  rw [orderKey_zero] at ha0
  have hinf : isZero a = false → 0 ≤ orderKey (infinity (signBit a != signBit b)) := fun h0 => by
    have hmag : magBits a ≠ 0 := by simpa [isZero] using h0
    have := natAbs_orderKey a
    rw [signBit_of_pos (x := a) (by omega), hbs]
    decide
  rcases isFinite_or_isInf han with haf | hai
  · rcases isFinite_or_isInf hbn with hbf | hbi
    · cases hbz : isZero b
      · have hpos : 0 < orderKey b := by
          have hmag : magBits b ≠ 0 := by simpa [isZero] using hbz
          rw [orderKey, hbs]
          simpa [Nat.pos_iff_ne_zero] using hmag
        rw [orderKey_fdiv haf hbf hpos]
        exact rnd_nonneg (mul_nonneg ((fle_zero_iff haf).1 ha) (Int.natCast_nonneg oneUnits))
      · rw [fdiv_zero haf hbf hbz] at hnan ⊢
        cases haz : isZero a
        · exact hinf haz
        · rw [haz, if_pos rfl, isNaN_quietNaN] at hnan
          cases hnan
    · rw [fdiv_inf_right haf hbi]
      cases signBit a != signBit b <;> decide
  · rw [fdiv_inf_left hai hbn] at hnan ⊢
    cases hbi : isInf b
    · exact hinf (isZero_of_isInf hai)
    · rw [hbi, if_pos rfl, isNaN_quietNaN] at hnan
      cases hnan

/-- R180: the fraction of a segment lies in `[0, 1]`. -/
theorem inUnit_segCoeff {dt t : F64} (hdt : fle zero dt = true) (ht : isTime t = true) :
    inUnit (segCoeff dt t) = true := by
  unfold segCoeff
  rcases fmin_one_cases (fdiv dt t) with ⟨hnan, hlt, e⟩ | e <;> rw [e]
  · exact between_iff_fle.2
      ⟨fle_iff.2 ⟨by decide, hnan, orderKey_zero ▸ orderKey_fdiv_nonneg hdt ht hnan⟩,
        fle_iff.2 ⟨hnan, by decide, hlt.le⟩⟩
  · decide

theorem inUnit_approach {v target dt t : F64} (hv : inUnit v = true) (htarget : inUnit target = true)
    (hdt : fle zero dt = true) (ht : isTime t = true) : inUnit (approach v target dt t) = true :=
  inUnit_step hv htarget (inUnit_segCoeff hdt ht)

/-- R184, R186 (log 18): a step keeps the value in `[0, 1]`, and enters `Idle` with `+0.0` only. -/
theorem envStep_run {dt : F64} {e : Envelope} (hdt : fle zero dt = true) (he : envLegal e = true)
    (hr : envRun e = true) : envRun (envStep dt e) = true := by
  obtain ⟨ha, hd, hre, hs⟩ := envLegal_iff.1 he
  obtain ⟨hv, hidle⟩ := envRun_iff.1 hr
  have hone : inUnit one = true := by decide
  have hzero : inUnit zero = true := by decide
  rw [envRun_iff]
  cases hst : e.stage <;> simp only [envStep, hst]
  case idle => exact ⟨hv, fun _ => hidle hst⟩
  case attack =>
    split
    · exact ⟨hone, nofun⟩
    · exact ⟨inUnit_approach hv hone hdt ha, by simp⟩
  case decay =>
    split
    · exact ⟨hs, nofun⟩
    · exact ⟨inUnit_approach hv hs hdt hd, by simp⟩
  case sustain => exact ⟨hs, by simp⟩
  case release =>
    split
    · exact ⟨hzero, fun _ => rfl⟩
    · exact ⟨inUnit_approach hv hzero hdt hre, by simp⟩

theorem envLegal_envStep (dt : F64) (e : Envelope) : envLegal (envStep dt e) = envLegal e := by
  obtain ⟨ha, hd, hs, hr⟩ := envStep_params dt e
  rw [envLegal, ha, hd, hs, hr, envLegal]

/-- R189, the tick columns: a step of an envelope stays on its side of the gate. -/
theorem gateAllows_envStep (g : Bool) (dt : F64) (e : Envelope) (h : gateAllows g e.stage = true) :
    gateAllows g (envStep dt e).stage = true := by
  cases hst : e.stage <;> rw [hst] at h <;> simp only [envStep, hst]
  case attack => split <;> simpa [gateAllows, hst] using h
  case decay => split <;> simpa [gateAllows, hst] using h
  case release => split <;> simpa [gateAllows, hst] using h
  all_goals simpa [gateAllows, hst] using h

/-! ### The filter -/

theorem isNaN_infinity (neg : Bool) : isNaN (infinity neg) = false := by cases neg <;> decide

/-- The factor by which the contour raises the cutoff (R205) is a number of at least 1. -/
theorem contourFactor_ge_one {contour v : F64} (hcontour : inUnit contour = true)
    (hv : inUnit v = true) :
    isFinite (fadd one (fmul (fmul contour v) litFour)) = true ∧
      orderKey one ≤ orderKey (fadd one (fmul (fmul contour v) litFour)) := by
  obtain ⟨hcf, hc0, -⟩ := inUnit_iff.1 hcontour
  obtain ⟨hvf, hv0, -⟩ := inUnit_iff.1 hv
  have hprod : Within gridOne (fmul contour v) :=
    (within_of_inUnit hcontour).fmul (within_of_inUnit hv) (by decide) (by decide)
  have hprod0 := units_nonneg_of_rnd hprod.isFinite (orderKey_fmul hcf hvf) (mul_nonneg hc0 hv0)
  have hquad : Within (4 * gridOne) (fmul (fmul contour v) litFour) :=
    hprod.fmul within_four (by decide) (by decide)
  have hquad0 := units_nonneg_of_rnd hquad.isFinite
    (orderKey_fmul hprod.isFinite within_four.isFinite) (mul_nonneg hprod0 units_four_nonneg)
  have hfactor : Within (5 * gridOne) (fadd one (fmul (fmul contour v) litFour)) :=
    (inOne_iff.1 (by decide : inOne one = true)).fadd hquad (by decide) (by decide)
  refine ⟨hfactor.isFinite, ?_⟩
  rw [orderKey_fadd isFinite_one hquad.isFinite]
  exact le_rnd_of_le one_pos isFinite_one (by rw [Nat.cast_one, mul_one]; omega)

/-- R205: the clamp of the dynamic cutoff, for every cutoff that is no NaN; an infinite one stays
infinite under a factor that is not zero. -/
theorem dynCutoff_range {cutoff contour v : F64} (hc : isNaN cutoff = false)
    (hcontour : inUnit contour = true) (hv : inUnit v = true) :
    between litCutoffMin litCutoffMax (dynCutoff cutoff contour v) = true := by
  obtain ⟨hf, hge⟩ := contourFactor_ge_one hcontour hv
  refine between_iff_fle.2 (clamp_range ?_ (by decide))
  generalize fadd one (fmul (fmul contour v) litFour) = factor at *
  have hnz : isZero factor = false := by
    have hone : 0 < orderKey one := by decide
    have habs := natAbs_orderKey factor
    rw [isZero, decide_eq_false_iff_not]
    omega
  rcases isFinite_or_isInf hc with hcf | hinf
  · exact isNaN_fmul hcf hf
  · rw [fmul_inf_left hinf (isNaN_of_isFinite hf), hnz, if_neg Bool.false_ne_true]
    exact isNaN_infinity _

theorem within_of_cutoff {dyn : F64} (h : between litCutoffMin litCutoffMax dyn = true) :
    Within (18000 * gridOne) dyn := by
  have hends : 0 ≤ units litCutoffMin ∧ units litCutoffMax = (18000 * gridOne * grid : Nat) := by
    decide +kernel
  obtain ⟨hx, h1, h2⟩ := (between_iff (by decide) (by decide)).1 h
  exact within_iff.2 ⟨hx, abs_le.2 (by omega)⟩

/-- R206: the coefficient lies in `[0, 0.99]`. -/
theorem filterCoeff_range {dyn dt : F64} (hdyn : between litCutoffMin litCutoffMax dyn = true)
    (hdt : isFinite dt = true) : between zero litMaxCoeff (filterCoeff dyn dt) = true := by
  have hpi : Within (7 * gridOne) litTwoPi := by unfold Within; decide +kernel
  have hprod : Within (126000 * gridOne) (fmul litTwoPi dyn) :=
    hpi.fmul (within_of_cutoff hdyn) (by decide) (by decide)
  exact between_iff_fle.2 (clamp_range (isNaN_fmul hprod.isFinite hdt) (by decide))

theorem inUnit_of_coeff {g : F64} (h : between zero litMaxCoeff g = true) : inUnit g = true := by
  have hmax : units litMaxCoeff ≤ oneUnits := by decide +kernel
  obtain ⟨hg, h0, h1⟩ := (between_iff isFinite_zero (by decide)).1 h
  rw [units_zero] at h0
  exact inUnit_iff.2 ⟨hg, h0, h1.trans hmax⟩

theorem fmul_comm {a b : F64} (ha : isFinite a = true) (hb : isFinite b = true) :
    fmul a b = fmul b a := by
  rw [fmul_finite ha hb, fmul_finite hb ha, Nat.mul_comm, bne_comm]

/-- One stage keeps `[-1, 1]` (R207, R211). -/
theorem inOne_poleStep {g s t : F64} (hg : inUnit g = true) (hs : inOne s = true)
    (ht : inOne t = true) : inOne (poleStep g s t) = true := by
  have hd : Within (2 * gridOne) (fsub t s) :=
    (inOne_iff.1 ht).fsub (inOne_iff.1 hs) (by decide) (by decide)
  obtain ⟨hgf, -, -⟩ := inUnit_iff.1 hg
  rw [poleStep, fmul_comm hgf hd.isFinite]
  exact inOne_step hs ht hg

theorem ladderStep_bounded {nm : Numerics} {g drive : F64} {l : Ladder} (hnm : LawfulNumerics nm)
    (hg : inUnit g = true) (hdrive : inOne drive = true) (hl : ladderBounded l = true) :
    ladderBounded (ladderStep nm g drive l) = true := by
  obtain ⟨h0, h1, h2, h3⟩ := ladderBounded_iff.1 hl
  have htanh : ∀ {x : F64}, inOne x = true → inOne (nm.ftanh x) = true := fun hx =>
    between_iff_fle.2 (hnm.tanh_range _ (isNaN_of_inOne hx))
  have h0' := inOne_poleStep hg h0 hdrive
  have h1' := inOne_poleStep hg h1 (htanh h0')
  have h2' := inOne_poleStep hg h2 (htanh h1')
  exact ladderBounded_iff.2 ⟨h0', h1', h2', inOne_poleStep hg h3 (htanh h2')⟩

/-- R207: the drive lies in `[-1, 1]`, for a finite mix. -/
theorem inOne_ladderDrive {nm : Numerics} {emphasis mixed : F64} {l : Ladder} {k : Nat}
    (hnm : LawfulNumerics nm) (hemph : inUnit emphasis = true) (hmixed : Within k mixed)
    (hl : inOne l.s3 = true) : inOne (ladderDrive nm emphasis mixed l) = true := by
  have hgain : Within (4 * gridOne) (fmul emphasis litFour) :=
    (within_of_inUnit hemph).fmul within_four (by decide) (by decide)
  have hback : Within (4 * gridOne) (fmul l.s3 (fmul emphasis litFour)) :=
    (inOne_iff.1 hl).fmul hgain (by decide) (by decide)
  exact between_iff_fle.2 (hnm.tanh_range _ (isNaN_fsub hmixed.isFinite hback.isFinite))

/-! ### The output clamp and the ring's words -/

/-- R226: the clamp's lower bound `0 - OUT_LIM` stands where `-OUT_LIM` does. -/
theorem outputClamp_range {lim y : F64} (hlim : isFinite lim = true) (hpos : flt zero lim = true)
    (hy : isNaN y = false) : between (fneg lim) lim (outputClamp lim y) = true := by
  have hlow : orderKey (fsub zero lim) = orderKey (fneg lim) := by
    rw [orderKey_fsub isFinite_zero hlim, units_zero, zero_sub, ← units_fneg,
      rnd_units_one (by simpa using hlim)]
  have hlownan := isNaN_fsub isFinite_zero hlim
  have hlimnan := isNaN_of_isFinite hlim
  obtain ⟨-, -, hkey⟩ := flt_iff.1 hpos
  rw [orderKey_zero] at hkey
  have hle : fle (fsub zero lim) lim = true :=
    fle_iff.2 ⟨hlownan, hlimnan, by rw [hlow, orderKey_fneg]; omega⟩
  obtain ⟨h1, h2⟩ := clamp_range hy hle
  obtain ⟨-, hnan, hlo⟩ := fle_iff.1 h1
  exact between_iff_fle.2 ⟨fle_iff.2 ⟨by simpa using hlimnan, hnan, hlow ▸ hlo⟩, h2⟩

/-- The words a write leaves: the written one and those held before. -/
theorem word_mem_memWrite {m : Memory} {k : Nat} {v : F64} {p : Nat × F64} (h : p ∈ memWrite m k v) :
    p.2 = v ∨ p ∈ m := by
  induction m with
  | nil => exact .inl (by rw [List.mem_singleton.1 h])
  | cons q rest ih =>
    rw [memWrite] at h
    split_ifs at h with hlt heq
    · exact (List.mem_cons.1 h).imp_left fun e => by rw [e]
    · exact (List.mem_cons.1 h).imp (fun e => by rw [e]) (List.mem_cons_of_mem _)
    · rcases List.mem_cons.1 h with rfl | h
      · exact .inr List.mem_cons_self
      · exact (ih h).imp_right (List.mem_cons_of_mem _)

theorem ringBounded_memWrite {lim v : F64} {m : Memory} (k : Nat) (hm : ringBounded lim m = true)
    (hv : between (fneg lim) lim v = true) : ringBounded lim (memWrite m k v) = true := by
  rw [ringBounded_iff] at hm ⊢
  intro p hp
  rcases word_mem_memWrite hp with e | hp
  · rwa [e]
  · exact hm p hp

end Sys2Proof.Machine
end

section
/-! CERTIFICATE. Every step keeps the invariant (R53, R189): O58. -/

namespace Sys2Proof.Machine

/-! ### The commands -/

/-- The mixer's own part of the invariant is all that a mixer command has to keep. -/
theorem Legal.setMixer {s : State} {m : Mixer} (h : Legal s) (hm : mixerLegal m = true)
    (hosc : m.oscEn.length = s.mixer.oscEn.length) (hlevel : m.level.length = s.mixer.level.length) :
    Legal (setMixer s m) := by
  obtain ⟨hvoices, hosc', hlevel'⟩ := shaped_iff.1 h.shape
  exact { h with
    shape := shaped_iff.2 ⟨hvoices, hosc.trans hosc', hlevel.trans hlevel'⟩
    mixer := hm }

/-- The modifiers' own part of the invariant is all that a command of theirs has to keep. -/
theorem Legal.setMods {s : State} {m : Modifiers} (h : Legal s) (hm : ModsOk m) :
    Legal (setMods s m) :=
  { h with mods := hm }

theorem Legal.setVoice {s : State} {vi : Nat} {v : Voice} (h : Legal s)
    (hv : voiceLegal numerics v = true) : Legal (setVoice s vi v) := by
  obtain ⟨hvoices, hosc, hlevel⟩ := shaped_iff.1 h.shape
  exact { h with
    shape := shaped_iff.2 ⟨List.length_set.trans hvoices, hosc, hlevel⟩
    voices := fun u hu => (List.mem_or_eq_of_mem_set hu).elim (h.voices u) fun e => e ▸ hv }

/-- A voice that exists is legal. -/
theorem Legal.voiceAt {s : State} {vi : Nat} (h : Legal s) (hvi : vi < s.cfg.nv) :
    voiceLegal numerics (voiceAt s vi) = true := by
  obtain ⟨hvoices, -, -⟩ := shaped_iff.1 h.shape
  have hlen : vi < s.voices.length := hvoices ▸ hvi
  refine h.voices _ ?_
  rw [Machine.voiceAt, List.getD_eq_getElem _ _ hlen]
  exact List.getElem_mem hlen

/-- The product of the reference frequency and a number that is not below zero, where it is finite. -/
theorem pitch_nonneg {y : F64} (hy : fle zero y = true) (hf : isFinite (fmul litRefFreq y) = true) :
    fle zero (fmul litRefFreq y) = true := by
  obtain ⟨-, hnan, -⟩ := fle_iff.1 hy
  have href : isFinite litRefFreq = true ∧ 0 ≤ units litRefFreq ∧ isZero litRefFreq = false := by
    decide +kernel
  obtain ⟨hrf, hr0, hrz⟩ := href
  rcases isFinite_or_isInf hnan with hyf | hyi
  · exact (fle_zero_iff hf).2 (units_nonneg_of_rnd hf (orderKey_fmul hrf hyf)
      (mul_nonneg hr0 ((fle_zero_iff hyf).1 hy)))
  · rw [fmul_inf_right hrf hyi, hrz, if_neg Bool.false_ne_true] at hf
    cases hneg : signBit litRefFreq != signBit y <;> rw [hneg] at hf <;> exact absurd hf (by decide)

/-- R113, R114: a voice retuned to a finite pitch with a finite frequency is legal; a power of two is not
below zero (`exp2_pos`). -/
theorem voiceLegal_retuned {v : Voice} (hvolt : isFinite v.voltage = true)
    (hdet : isFinite v.detune = true) (hphase : isPhase v.phase = true)
    (hf : isFinite (retuned numerics v).frequency = true) :
    voiceLegal numerics (retuned numerics v) = true := by
  refine voiceLegal_iff.2 ⟨⟨hvolt, hdet, rfl, hf, ?_⟩, hphase⟩
  exact pitch_nonneg (numericsHaveTheNamedProperties.exp2_pos _ (isNaN_fadd hvolt hdet)) hf

theorem envLegal_withADS {e : Envelope} {a d su : F64} (hsu : isNaN su = false)
    (he : envLegal e = true) : envLegal (withADS e a d su) = true := by
  obtain ⟨-, -, hre, -⟩ := envLegal_iff.1 he
  exact envLegal_iff.2 ⟨isTime_clampT a, isTime_clampT d, hre, inUnit_clampUnit hsu⟩

theorem envLegal_withRelease {e : Envelope} (r : F64) (he : envLegal e = true) :
    envLegal (withRelease e r) = true := by
  obtain ⟨ha, hd, -, hs⟩ := envLegal_iff.1 he
  exact envLegal_iff.2 ⟨ha, hd, isTime_clampT r, hs⟩

theorem envLegal_gateEdge (on : Bool) (e : Envelope) : envLegal (gateEdge on e) = envLegal e := by
  obtain ⟨ha, hd, hs, hr, -⟩ := gateEdge_params on e
  rw [envLegal, ha, hd, hs, hr, envLegal]

/-- After an edge an envelope is in a stage that the new gate allows (R189). -/
theorem gateAllows_gateEdge (on : Bool) (e : Envelope) :
    gateAllows on (gateEdge on e).stage = true := by
  cases on
  · by_cases h : e.stage = .idle <;> simp [gateEdge, gateFall, gateAllows, h]
  · rfl

/-- An edge keeps the value, and leaves an envelope in `Idle` only where it was there (R170). -/
theorem envRun_gateEdge (on : Bool) {e : Envelope} (h : envRun e = true) :
    envRun (gateEdge on e) = true := by
  obtain ⟨hv, hidle⟩ := envRun_iff.1 h
  obtain ⟨-, -, -, -, hvalue⟩ := gateEdge_params on e
  rw [envRun_iff, hvalue]
  refine ⟨hv, fun hst => hidle ?_⟩
  cases on
  · by_contra hne
    simp [gateEdge, gateFall, hne] at hst
  · cases hst

/-- R170, R189: a gate edge keeps the modifiers' part of the invariant. -/
theorem ModsOk.gateEdge {m : Modifiers} (on : Bool) (h : ModsOk m) : ModsOk
    { m with gate := on, fenv := gateEdge on m.fenv, lenv := gateEdge on m.lenv } := by
  obtain ⟨hemph, hcontour, hcutoff, hfenv, hlenv⟩ := modsLegal_iff.1 h.regs
  exact {
    regs := modsLegal_iff.2 ⟨hemph, hcontour, hcutoff, (envLegal_gateEdge on _).trans hfenv,
      (envLegal_gateEdge on _).trans hlenv⟩
    fenv := envRun_gateEdge on h.fenv
    lenv := envRun_gateEdge on h.lenv
    ladder := h.ladder
    gate := gateLegal_iff.2 ⟨gateAllows_gateEdge on _, gateAllows_gateEdge on _⟩ }

/-! ### The tick -/

/-- The time step of a legal rate is a number above zero. -/
theorem dt_of_legalRate {sr : F64} (h : legalRate sr = true) :
    isFinite (fdiv one sr) = true ∧ fle zero (fdiv one sr) = true := by
  obtain ⟨-, -, hf, hpos⟩ := legalRate_iff.1 h
  obtain ⟨hz, hnan, hlt⟩ := flt_iff.1 hpos
  exact ⟨hf, fle_iff.2 ⟨hz, hnan, hlt.le⟩⟩

theorem Legal.tickVoices {s : State} {sr : F64} (h : Legal s) (hsr : legalRate sr = true)
    (hinc : incsFinite sr s = true) : ∀ v ∈ tickVoices sr s, voiceLegal numerics v = true := by
  intro v hv
  obtain ⟨u, hu, rfl⟩ := List.mem_map.1 hv
  exact voiceLegal_voiceAdvance hsr (h.voices u hu) (List.all_eq_true.1 hinc u hu)

/-- The mix of a tick is a finite number. -/
theorem Legal.within_tickMixed {s : State} {sr : F64} (h : Legal s) (hsr : legalRate sr = true)
    (hinc : incsFinite sr s = true) : Within (320 * gridOne) (tickMixed numerics sr s) := by
  obtain ⟨-, hnv, -⟩ := cfgLegal_iff.1 h.cfg
  obtain ⟨-, hosc, -⟩ := shaped_iff.1 h.shape
  refine within_mixStep h.mixer (hosc ▸ hnv) (fun x hx => ?_)
    (within_noiseSample s.cfg.pinkB6Delayed h.noise h.pink)
  obtain ⟨v, hv, rfl⟩ := List.mem_map.1 hx
  obtain ⟨-, hphase⟩ := voiceLegal_iff.1 (h.tickVoices hsr hinc v hv)
  exact inOne_wave numericsHaveTheNamedProperties v.waveform hphase

/-- A tick's step of the modifiers, for a finite mix and a time step that is not below zero. -/
theorem ModsOk.modStep {m : Modifiers} {mixed dt : F64} {k : Nat} (h : ModsOk m)
    (hmixed : Within k mixed) (hdtf : isFinite dt = true) (hdt : fle zero dt = true) :
    ModsOk (modStep numerics m mixed dt) := by
  obtain ⟨hemph, hcontour, hcutoff, hfenv, hlenv⟩ := modsLegal_iff.1 h.regs
  obtain ⟨hgf, hgl⟩ := gateLegal_iff.1 h.gate
  obtain ⟨-, -, -, hs3⟩ := ladderBounded_iff.1 h.ladder
  have hfenv' := envStep_run hdt hfenv h.fenv
  obtain ⟨hvalue, -⟩ := envRun_iff.1 hfenv'
  have hg := inUnit_of_coeff (filterCoeff_range (dynCutoff_range hcutoff hcontour hvalue) hdtf)
  have hdrive := inOne_ladderDrive numericsHaveTheNamedProperties hemph hmixed hs3
  exact {
    regs := modsLegal_iff.2 ⟨hemph, hcontour, hcutoff, (envLegal_envStep dt m.fenv).trans hfenv,
      (envLegal_envStep dt m.lenv).trans hlenv⟩
    fenv := hfenv'
    lenv := envStep_run hdt hlenv h.lenv
    ladder := ladderStep_bounded numericsHaveTheNamedProperties hg hdrive h.ladder
    gate := gateLegal_iff.2 ⟨gateAllows_envStep _ dt _ hgf, gateAllows_envStep _ dt _ hgl⟩ }

theorem ModsOk.isNaN_modOutput {m : Modifiers} (h : ModsOk m) : isNaN (modOutput m) = false := by
  obtain ⟨-, -, -, hs3⟩ := ladderBounded_iff.1 h.ladder
  obtain ⟨hvalue, -⟩ := envRun_iff.1 h.lenv
  exact isNaN_fmul (inOne_iff.1 hs3).isFinite (within_of_inUnit hvalue).isFinite

/-- A tick at a legal rate keeps the invariant. -/
theorem Legal.tickState {s : State} {sr : F64} {r : Ring} (h : Legal s)
    (hrate : s.pipe.sampleRate = some sr) (hinc : incsFinite sr s = true)
    (hpush : ringPush s.cfg.ringN s.ring
      (outputClamp s.cfg.outLim (modOutput (tickMods numerics sr s))) = .ok r) :
    Legal (tickState numerics sr s r) := by
  have hsr := rateLegal_some h.rate hrate
  obtain ⟨hdtf, hdt⟩ := dt_of_legalRate hsr
  have hmods : ModsOk (tickMods numerics sr s) :=
    h.mods.modStep (h.within_tickMixed hsr hinc) hdtf hdt
  obtain ⟨-, -, -, hlim, hpos⟩ := cfgLegal_iff.1 h.cfg
  obtain ⟨hvoices, hosc, hlevel⟩ := shaped_iff.1 h.shape
  obtain ⟨hmem, -⟩ := ringPush_ok hpush
  exact {
    cfg := h.cfg
    shape := shaped_iff.2 ⟨(List.length_map _).trans hvoices, hosc, hlevel⟩
    voices := h.tickVoices hsr hinc
    mixer := h.mixer
    noise := noiseLegal_noiseNext h.noise
    pink := pinkBounded_noiseNext h.pink
    mods := hmods
    rate := h.rate
    ring := ringPush_legal h.ring hpush
    words := by
      rw [tickState_ring, hmem]
      exact ringBounded_memWrite _ h.words (outputClamp_range hlim hpos hmods.isNaN_modOutput) }

/-! ### Every effect, every step -/

theorem Effect.keeps_legal {i : Instr} {s t : State} (he : Effect i s t) (h : Legal s) : Legal t := by
  obtain ⟨hlevels, hnoise, hmaster⟩ := mixerLegal_iff.1 h.mixer
  obtain ⟨hemph, hcontour, hcutoff, hfenv, hlenv⟩ := modsLegal_iff.1 h.mods.regs
  cases he
  case quiet => exact h
  case tick sr r _ hrate hinc hpush => exact h.tickState hrate hinc hpush
  case snap ds => exact { h with }
  case setgate on => exact h.setMods (h.mods.gateEdge on)
  case setvolt vi x hx hvi hf =>
    obtain ⟨⟨-, hdet, -⟩, hphase⟩ := voiceLegal_iff.1 (h.voiceAt hvi)
    exact h.setVoice (voiceLegal_retuned hx hdet hphase hf)
  case setdetune vi x hx hvi hf =>
    obtain ⟨⟨hvolt, -, -⟩, hphase⟩ := voiceLegal_iff.1 (h.voiceAt hvi)
    exact h.setVoice (voiceLegal_retuned hvolt hx hphase hf)
  case setwave vi w hvi => exact h.setVoice (h.voiceAt hvi)
  case setmixlvl x vi hx =>
    refine h.setMixer (mixerLegal_iff.2 ⟨fun l hl => ?_, hnoise, hmaster⟩) rfl List.length_set
    exact (List.mem_or_eq_of_mem_set hl).elim (hlevels l) fun e => e ▸ inUnit_clampUnit hx
  case setoscen vi on => exact h.setMixer h.mixer List.length_set rfl
  case setnoiselvl x hx =>
    exact h.setMixer (mixerLegal_iff.2 ⟨hlevels, inUnit_clampUnit hx, hmaster⟩) rfl rfl
  case setnoiseen on => exact h.setMixer h.mixer rfl rfl
  case setnoisecol code c => exact { h with }
  case setmaster x hx =>
    exact h.setMixer (mixerLegal_iff.2 ⟨hlevels, hnoise, inUnit_clampUnit hx⟩) rfl rfl
  case setcutoff x hx =>
    exact h.setMods { h.mods with regs := modsLegal_iff.2 ⟨hemph, hcontour, hx, hfenv, hlenv⟩ }
  case setemph x hx =>
    exact h.setMods { h.mods with
      regs := modsLegal_iff.2 ⟨inUnit_clampUnit hx, hcontour, hcutoff, hfenv, hlenv⟩ }
  case setcontour x hx =>
    exact h.setMods { h.mods with
      regs := modsLegal_iff.2 ⟨hemph, inUnit_clampUnit hx, hcutoff, hfenv, hlenv⟩ }
  case setfenv a d su hsu =>
    exact h.setMods { h.mods with
      regs := modsLegal_iff.2 ⟨hemph, hcontour, hcutoff, envLegal_withADS hsu hfenv, hlenv⟩ }
  case setlenv a d su hsu =>
    exact h.setMods { h.mods with
      regs := modsLegal_iff.2 ⟨hemph, hcontour, hcutoff, hfenv, envLegal_withADS hsu hlenv⟩ }
  case setrate x hx => exact { h with rate := hx }
  case setfrel x =>
    exact h.setMods { h.mods with
      regs := modsLegal_iff.2 ⟨hemph, hcontour, hcutoff, envLegal_withRelease x hfenv, hlenv⟩ }
  case setlrel x =>
    exact h.setMods { h.mods with
      regs := modsLegal_iff.2 ⟨hemph, hcontour, hcutoff, hfenv, envLegal_withRelease x hlenv⟩ }

/-- Settles O58: every effect of an instruction keeps the invariant's parts, and reset establishes them. -/
theorem stepKeepsTheInvariant : Obligations.StepKeepsTheInvariant := by
  intro s t hs h
  have hlegal := invariant_iff.1 hs
  exact invariant_iff.2 (step_keeps h hlegal (fun _ => { hlegal with }) Effect.keeps_legal
    fun p => legal_resetWith p hlegal.cfg)

end Sys2Proof.Machine
end

section
/-! CERTIFICATE. The transport form of an operation word (R61), and the step on the next event at the
ports (R64, R70, R85, R91): O5, O6 and O7. -/

namespace Sys2Proof.Machine

/-! ### The transport form (20_memory.md section 2) -/

@[simp] theorem length_bytesOfWord (w : OpWord) : (bytesOfWord w).length = 26 := by
  simp [bytesOfWord]

theorem getElem?_bytesOfWord (w : OpWord) {k : Nat} (hk : k < 26) :
    (bytesOfWord w)[k]? = some (w.extractLsb' (200 - 8 * k) 8) := by
  simp [bytesOfWord, hk]

/-- The byte that starts at bit `m` continues the number the bits above it hold. -/
theorem div_two_pow_append_byte (n m : Nat) :
    n / 2 ^ (m + 8) * 256 + n / 2 ^ m % 256 = n / 2 ^ m := by
  rw [Nat.pow_add, ← Nat.div_div_eq_div_mul]
  exact Nat.div_add_mod' _ _

/-- Reading the first `k` bytes most significant first gives the word's top `8 * k` bits. -/
theorem foldl_take_bytesOfWord (w : OpWord) {k : Nat} (hk : k ≤ 26) :
    ((bytesOfWord w).take k).foldl (fun n b => n * 256 + b.toNat) 0
      = w.toNat / 2 ^ (208 - 8 * k) := by
  induction k with
  | zero => exact (Nat.div_eq_of_lt w.isLt).symm
  | succ k ih =>
    have hbits : 208 - 8 * k = 200 - 8 * k + 8 := by omega
    have hlast : 208 - 8 * (k + 1) = 200 - 8 * k := by omega
    rw [List.take_add_one, getElem?_bytesOfWord w hk, List.foldl_append, ih (Nat.le_of_succ_le hk),
      hbits, hlast, ← div_two_pow_append_byte w.toNat (200 - 8 * k)]
    simp [Nat.shiftRight_eq_div_pow]

@[simp] theorem wordOfBytes_bytesOfWord (w : OpWord) : wordOfBytes (bytesOfWord w) = w := by
  have h := foldl_take_bytesOfWord w (le_refl 26)
  rw [List.take_of_length_le (length_bytesOfWord w).le] at h
  rw [wordOfBytes, h]
  simp

theorem decodeBytes_of_length {bytes : List Byte} (h : bytes.length = 26) :
    decodeBytes bytes = decode (wordOfBytes bytes) := if_pos h

theorem decodeBytes_of_length_ne {bytes : List Byte} (h : bytes.length ≠ 26) :
    decodeBytes bytes = .error (.notOneWord bytes.length) := if_neg h

/-- Settles O5: the bytes read back, one more at a time, give the top bits of the word. -/
theorem transportBytesCarryTheWord : Obligations.TransportBytesCarryTheWord := by
  refine ⟨fun w => ⟨length_bytesOfWord w, fun k hk => getElem?_bytesOfWord w hk,
    wordOfBytes_bytesOfWord w, ?_⟩, fun bytes h => decodeBytes_of_length_ne h⟩
  rw [decodeBytes_of_length (length_bytesOfWord w), wordOfBytes_bytesOfWord]

/-! ### The next event (20_memory.md sections 3 and 4) -/

theorem decodeOrNop_of_decode {w : OpWord} {i : Instr} (h : decode w = .ok i) :
    decodeOrNop w = i := by
  simp [decodeOrNop, h]

/-- R64, R85: a step on an accepted word executes what the word decodes to, `NOP` where it is reserved. -/
theorem step_accept {s : State} {w : OpWord} {rest : List PortEvent}
    (h : s.ports.input = .accept w :: rest) :
    step s = exec (decodeOrNop w) (withInput s rest) := step_event h

/-- Settles O6: an accepted word runs what it decodes to. -/
theorem stepRunsTheDecodedInstruction : Obligations.StepRunsTheDecodedInstruction := by
  intro s w rest i hinput hdec _
  refine ⟨?_, rfl⟩
  rw [step_accept hinput, decodeOrNop_of_decode hdec]

/-- Settles O7: a step with no event is idle. -/
theorem nothingPresentedNothingHappens : Obligations.NothingPresentedNothingHappens :=
  fun _ h => step_idle h

end Sys2Proof.Machine
end

section
/-! SUPPORT. The operation word as its five fields (R81): two words with the same fields are equal, and a
mask acts on each field; which bits of an operand field its reading takes (R82). -/

namespace Sys2Proof

/-! ### The fields of a word -/

theorem opWord_ext {w w' : OpWord} (hop : opField w = opField w') (hvi : viField w = viField w')
    (ha : fieldA w = fieldA w') (hb : fieldB w = fieldB w') (hc : fieldC w = fieldC w') : w = w' := by
  have hbit : ∀ {k n j : Nat}, w.extractLsb' k n = w'.extractLsb' k n → k ≤ j → j < k + n →
      w.getLsbD j = w'.getLsbD j := fun {k n j} h hk hj => by
    have := congrArg (BitVec.getLsbD · (j - k)) h
    simpa [BitVec.getLsbD_extractLsb', show j - k < n by omega, Nat.add_sub_cancel' hk] using this
  refine BitVec.eq_of_getLsbD_eq fun j hj => ?_
  rcases (by omega : j < 64 ∨ (64 ≤ j ∧ j < 128) ∨ (128 ≤ j ∧ j < 192) ∨ (192 ≤ j ∧ j < 200) ∨ 200 ≤ j)
    with h | ⟨hl, hu⟩ | ⟨hl, hu⟩ | ⟨hl, hu⟩ | h
  · exact hbit hc (Nat.zero_le j) (by omega)
  · exact hbit hb hl hu
  · exact hbit ha hl hu
  · exact hbit hvi hl hu
  · exact hbit hop h hj

@[simp] theorem opField_and (w m : OpWord) : opField (w &&& m) = opField w &&& opField m :=
  BitVec.extractLsb'_and
@[simp] theorem viField_and (w m : OpWord) : viField (w &&& m) = viField w &&& viField m :=
  BitVec.extractLsb'_and
@[simp] theorem fieldA_and (w m : OpWord) : fieldA (w &&& m) = fieldA w &&& fieldA m :=
  BitVec.extractLsb'_and
@[simp] theorem fieldB_and (w m : OpWord) : fieldB (w &&& m) = fieldB w &&& fieldB m :=
  BitVec.extractLsb'_and
@[simp] theorem fieldC_and (w m : OpWord) : fieldC (w &&& m) = fieldC w &&& fieldC m :=
  BitVec.extractLsb'_and

/-- The masks of a whole field, as `simp` writes their numbers. -/
@[simp] theorem and_byteMask (x : BitVec 8) : x &&& 255#8 = x := BitVec.and_allOnes
@[simp] theorem and_wordMask (x : Word64) : x &&& 18446744073709551615#64 = x := BitVec.and_allOnes

/-! ### The bits that an operand's reading takes (R82), and those its encoding sets -/

@[simp] theorem boolOf_and_one (a : Word64) : boolOf (a &&& 1#64) = boolOf a := by
  simp [boolOf]

theorem toNat_and_three (a : Word64) : (a &&& 3#64).toNat = a.toNat % 4 := by
  rw [BitVec.toNat_and]
  exact Nat.and_two_pow_sub_one_eq_mod a.toNat 2

theorem toNat_and_seven (a : Word64) : (a &&& 7#64).toNat = a.toNat % 8 := by
  rw [BitVec.toNat_and]
  exact Nat.and_two_pow_sub_one_eq_mod a.toNat 3

@[simp] theorem waveOf_and_three (a : Word64) : waveOf (a &&& 3#64) = waveOf a := by
  rw [waveOf, toNat_and_three, Nat.mod_mod, waveOf]

@[simp] theorem colourOf_and_seven (a : Word64) : colourOf (a &&& 7#64) = colourOf a := by
  rw [colourOf, toNat_and_seven, Nat.mod_mod, colourOf]

@[simp] theorem boolField_and_one (b : Bool) : boolField b &&& 1#64 = boolField b := by
  cases b <;> rfl

@[simp] theorem waveCode_and_three (w : Waveform) :
    BitVec.ofNat 64 (waveCode w) &&& 3#64 = BitVec.ofNat 64 (waveCode w) := by
  cases w <;> rfl

theorem toNat_colourField (code : Nat) : (BitVec.ofNat 64 (code % 8)).toNat = code % 8 := by
  rw [BitVec.toNat_ofNat]
  omega

@[simp] theorem colourField_and_seven (code : Nat) :
    BitVec.ofNat 64 (code % 8) &&& 7#64 = BitVec.ofNat 64 (code % 8) :=
  BitVec.eq_of_toNat_eq (by rw [toNat_and_seven, toNat_colourField, Nat.mod_mod])

@[simp] theorem colourOf_colourField (code : Nat) : colourOf (BitVec.ofNat 64 (code % 8)) = code % 8 := by
  rw [colourOf, toNat_colourField, Nat.mod_mod]

end Sys2Proof
end

section
/-! CERTIFICATE. Encoding and decoding agree (R81, R83, R93), unused bits (R84) and reserved opcodes
(R89): O1, O3, O4. -/

namespace Sys2Proof.Machine

/-! ### Decoding what the encoder writes -/

/-- R93: each field is read back as it was written; the voice index and the colour code, for they fit. -/
theorem decode_encode {i : Instr} (h : i.wf = true) : decode (encode i) = .ok i := by
  cases i with
  | setvolt vi _ | setdetune vi _ | setwave vi _ | setmixlvl vi _ | setoscen vi _ =>
    have hvi : vi % 256 = vi := Nat.mod_eq_of_lt (of_decide_eq_true h)
    simp [encode, decode, hvi]
  | setnoisecol code =>
    have hcode : code % 8 = code := Nat.mod_eq_of_lt (of_decide_eq_true h)
    simpa [encode, decode] using hcode
  | nop | tick | snap | setgate _ | setnoiseen _ | setnoiselvl _ | setmaster _ | setcutoff _ | setemph _
  | setcontour _ | setfenv _ _ _ | setlenv _ _ _ | setrate _ | setfrel _ | setlrel _ =>
    simp [encode, decode]

/-- Settles O1: field by field, for each constructor. -/
theorem decodeOfEncodeGivesTheInstruction : Obligations.DecodeOfEncodeGivesTheInstruction :=
  fun _ h => decode_encode h

/-! ### Reserved opcodes -/

/-- R89: the decoder's last row. -/
theorem decode_of_reserved {w : OpWord} (h : (opField w).toNat ∉ definedOpcodes) :
    decode w = .error (.reservedOpcode (opField w)) := by
  unfold decode
  generalize (opField w).toNat = op at h ⊢
  split
  case h_22 => rfl -- the last row: a reserved opcode
  all_goals exact absurd (by decide) h

theorem decodeOrNop_of_decode_error {w : OpWord} {r : DecodeReject} (h : decode w = .error r) :
    decodeOrNop w = .nop := by
  simp [decodeOrNop, h]

/-- Settles O3: the decoder rejects the word, and the step executes `NOP`, which leaves the state. -/
theorem reservedOpcodeExecutesAsNop : Obligations.ReservedOpcodeExecutesAsNop := by
  intro s w rest hinput hop
  have hdec := decode_of_reserved hop
  refine ⟨hdec, ?_⟩
  rw [step_accept hinput, decodeOrNop_of_decode_error hdec]
  rfl

/-! ### Unused bits -/

/-- The opcode is among the bits every operation reads, a reserved one too. -/
@[simp] theorem opField_usedBits (op : Nat) : opField (usedBits op) = 255#8 := by
  unfold usedBits
  split <;> exact opField_packWord ..

theorem opField_and_usedBits (w : OpWord) (op : Nat) : opField (w &&& usedBits op) = opField w := by
  simp

/-- R84: the bits an operation reads decide what the word decodes to. -/
theorem decode_and_usedBits (w : OpWord) : decode (w &&& usedBits (opField w).toNat) = decode w := by
  simp only [decode, opField_and_usedBits]
  generalize (opField w).toNat = op
  split
  case h_22 => rfl -- the last row: a reserved opcode
  all_goals simp [usedBits]

/-- The words whose used bits agree have the same opcode, and so the same used bits. -/
theorem decode_eq_of_usedBits {w w' : OpWord}
    (h : w &&& usedBits (opField w).toNat = w' &&& usedBits (opField w).toNat) :
    decode w = decode w' := by
  have hop : opField w = opField w' := by
    rw [← opField_and_usedBits w, h, opField_and_usedBits]
  calc decode w = decode (w &&& usedBits (opField w).toNat) := (decode_and_usedBits w).symm
    _ = decode (w' &&& usedBits (opField w').toNat) := by rw [h, hop]
    _ = decode w' := decode_and_usedBits w'

/-- R84, R93: the encoder sets no bit but those its operation reads. -/
theorem encode_and_usedBits (i : Instr) :
    encode i &&& usedBits (opField (encode i)).toNat = encode i := by
  refine opWord_ext (opField_and_usedBits _ _) ?_ ?_ ?_ ?_
  all_goals cases i <;> simp [encode, usedBits]

/-- Settles O4: decoding looks at the used bits alone, and the encoder sets no other. -/
theorem unusedBitsAreIgnored : Obligations.UnusedBitsAreIgnored := by
  refine ⟨fun _ _ => decode_eq_of_usedBits, fun i => ?_⟩
  calc encode i &&& ~~~usedBits (opField (encode i)).toNat
      = encode i &&& usedBits (opField (encode i)).toNat &&& ~~~usedBits (opField (encode i)).toNat := by
        rw [encode_and_usedBits]
    _ = 0#208 := by rw [BitVec.and_assoc, BitVec.and_not_self]; exact BitVec.and_zero

end Sys2Proof.Machine
end

section
/-! CERTIFICATE. The response port (R92) and the voice index out of range (R88): O52, O19. -/

namespace Sys2Proof.Machine

/-! ### Responses -/

/-- R243: below `2^64` the length word is the length. -/
theorem toNat_lengthWord {n : Nat} (h : n < 2 ^ 64) : (lengthWord n).toNat = n := by
  rw [lengthWord, if_pos h, BitVec.toNat_ofNat]
  exact Nat.mod_eq_of_lt h

theorem rspWords_cons (d : Word64) {ds : List Word64} (h : ds ≠ []) :
    rspWords (d :: ds) = { data := d, last := false } :: rspWords ds := by
  cases ds with
  | nil => exact absurd rfl h
  | cons e rest => rfl

/-- R92: `rsp_last` with the final word and with no other. -/
theorem rspWords_concat (ds : List Word64) (d : Word64) :
    rspWords (ds ++ [d]) = ds.map (RspWord.mk · false) ++ [{ data := d, last := true }] := by
  induction ds with
  | nil => rfl
  | cons a ds ih =>
    rw [List.cons_append, rspWords_cons a (by simp), ih]
    rfl

/-- An operation that responds nothing leaves both ports as they are. -/
theorem Effect.ports_eq {i : Instr} {s t : State} (h : Effect i s t) (htick : i ≠ .tick)
    (hsnap : i ≠ .snap) : t.ports = s.ports := by
  cases h
  case tick => exact absurd rfl htick
  case snap => exact absurd rfl hsnap
  all_goals rfl

theorem tickState_ports (nm : Numerics) (sr : F64) (s : State) (r : Ring) :
    ∃ y yc, (tickState nm sr s r).ports
      = { s.ports with responses := s.ports.responses ++ rspWords [y, yc] } := ⟨_, _, rfl⟩

/-- Settles O52: a tick responds two words, `SNAP` the length and the samples it read, and no other
effect writes the ports. -/
theorem onlyTickAndSnapRespond : Obligations.OnlyTickAndSnapRespond := by
  refine ⟨fun _ => toNat_lengthWord, fun i s t h => ?_, fun ds d => ?_⟩
  · by_cases htick : i = .tick
    · subst htick
      obtain ⟨sr, r, -, -, -, -, rfl⟩ := tickWith_next.1 h
      obtain ⟨y, yc, hports⟩ := tickState_ports numerics sr s r
      exact ⟨[y, yc], hports, by simp⟩
    by_cases hsnap : i = .snap
    · subst hsnap
      obtain ⟨out, -, rfl⟩ := execSnap_next.1 h
      exact ⟨lengthWord out.length :: out, rfl, by simp⟩
    · exact ⟨[], by simp [(effect_of_exec h).ports_eq htick hsnap, rspWords], by simp [htick, hsnap]⟩
  · rw [rspWords_concat]
    simp [Function.comp_def]

/-! ### A voice index out of range -/

theorem perVoice_of_le {vi : Nat} {s : State} (e : Result) (h : s.cfg.nv ≤ vi) :
    perVoice vi s e = .next s := if_pos h

/-- Settles O19: each of the five commands is a `perVoice`, whose index test comes before its operand. -/
theorem voiceIndexOutOfRangeIsANoOp : Obligations.VoiceIndexOutOfRangeIsANoOp := by
  refine ⟨fun s vi x w on h => ?_, fun s w hnv => hnv ▸ (viField w).isLt⟩
  exact ⟨perVoice_of_le _ h, perVoice_of_le _ h, perVoice_of_le _ h, perVoice_of_le _ h,
    perVoice_of_le _ h⟩

end Sys2Proof.Machine
end

section
/-! CERTIFICATE. The waveforms, the voice commands and the phase (R112 to R119): O14 to O18, O20 and O21. -/

namespace Sys2Proof.Machine

/-! ### The waveform function (40_voice.md section 1) -/

/-- Settles O14: waveform by waveform; the sine by `sin_range`. -/
theorem waveStaysInRange : Obligations.WaveStaysInRange :=
  fun _ w _ hnm hp => inOne_wave hnm w hp

/-! ### A command on a voice that exists -/

theorem perVoice_of_lt {vi : Nat} {s : State} (e : Result) (h : vi < s.cfg.nv) :
    perVoice vi s e = e := if_neg (Nat.not_le.2 h)

/-- What a write to a voice that exists leaves: the other parts, the number of voices, the other voices. -/
theorem setVoice_frame {s : State} {vi : Nat} (v : Voice) (hs : shaped s = true)
    (hvi : vi < s.cfg.nv) :
    setVoice s vi v = { s with voices := (setVoice s vi v).voices } ∧
    (setVoice s vi v).voices.length = s.voices.length ∧
    (∀ j, j ≠ vi → (setVoice s vi v).voices[j]? = s.voices[j]?) ∧
    (setVoice s vi v).voices[vi]? = some v := by
  obtain ⟨hlen, -, -⟩ := shaped_iff.1 hs
  refine ⟨rfl, List.length_set, fun j hj => List.getElem?_set_ne hj.symm, ?_⟩
  exact List.getElem?_set_self (hlen ▸ hvi)

/-- Settles O18: a `perVoice` whose effect is one write to the voice file. -/
theorem setWaveWritesWaveformOnly : Obligations.SetWaveWritesWaveformOnly := fun _ _ _ hs =>
  ⟨perVoice_of_le _, fun hvi => ⟨_, perVoice_of_lt _ hvi, setVoice_frame _ hs hvi⟩⟩

/-! ### The pitch commands (40_voice.md section 2) -/

theorem withPitch_of_isNaN {x : F64} (e : Result) (h : isNaN x = true) :
    withPitch x e = .refused .nanOperand := by simp [withPitch, withNum, h]

theorem isFinite_of_isInf {x : F64} (h : isInf x = true) : isFinite x = false := by
  simp [isFinite, isInf_iff.1 h]

theorem withPitch_of_isInf {x : F64} (e : Result) (h : isInf x = true) :
    withPitch x e = .refused .infinitePitchOperand := by
  simp [withPitch, withNum, isNaN_of_isInf h, isFinite_of_isInf h]

theorem withPitch_of_isFinite {x : F64} (e : Result) (h : isFinite x = true) :
    withPitch x e = e := by simp [withPitch, withNum, isNaN_of_isFinite h, h]

section
variable {nm : Numerics} {vi : Nat} {x : F64} {v : Voice} {s : State}

/-- On a finite operand a pitch command turns on the frequency alone. -/
theorem setPitch_of_isFinite (hvi : vi < s.cfg.nv) (hx : isFinite x = true) :
    setPitch nm vi x v s = if isFinite (retuned nm v).frequency
      then .next (setVoice s vi (retuned nm v)) else .refused .frequencyNotFinite := by
  rw [setPitch, perVoice_of_lt _ hvi, withPitch_of_isFinite _ hx]

/-- R113, R114, said once for the register that the command writes: `v` is the voice with that register
new, and `f` its new frequency. -/
theorem setPitch_spec (hs : shaped s = true) :
    (s.cfg.nv ≤ vi → setPitch nm vi x v s = .next s) ∧
    (vi < s.cfg.nv → isNaN x = true → setPitch nm vi x v s = .refused .nanOperand) ∧
    (vi < s.cfg.nv → isInf x = true → setPitch nm vi x v s = .refused .infinitePitchOperand) ∧
    (vi < s.cfg.nv → isFinite x = true → ∀ f, f = (retuned nm v).frequency →
      (isFinite f = false → setPitch nm vi x v s = .refused .frequencyNotFinite) ∧
      (isFinite f = true → ∃ t, setPitch nm vi x v s = .next t ∧
        t = { s with voices := t.voices } ∧ t.voices.length = s.voices.length ∧
        (∀ j, j ≠ vi → t.voices[j]? = s.voices[j]?) ∧
        t.voices[vi]? = some { v with frequency := f })) := by
  refine ⟨perVoice_of_le _, fun hvi hx => ?nan, fun hvi hx => ?inf, fun hvi hx f hf => ?finite⟩
  case nan => exact (perVoice_of_lt _ hvi).trans (withPitch_of_isNaN _ hx)
  case inf => exact (perVoice_of_lt _ hvi).trans (withPitch_of_isInf _ hx)
  case finite =>
    subst hf
    rw [setPitch_of_isFinite hvi hx]
    exact ⟨fun h => if_neg (Bool.eq_false_iff.1 h), fun h => ⟨_, if_pos h, setVoice_frame _ hs hvi⟩⟩

end

/-- Settles O15: the pitch command on the voice with its voltage new. -/
theorem setVoltWritesVoltageAndFrequency : Obligations.SetVoltWritesVoltageAndFrequency :=
  fun _ _ _ hs => setPitch_spec hs

/-- Settles O16: the pitch command on the voice with its detune new. -/
theorem setDetuneWritesDetuneAndFrequency : Obligations.SetDetuneWritesDetuneAndFrequency :=
  fun _ _ _ hs => setPitch_spec hs

/-- 1 volt with no detune gives 110 Hz: `2^1` is 2 (`exp2_one`), and 55 times 2 is 110. -/
theorem pitchFrequency_oneVolt : pitchFrequency numerics one zero = 0x405B800000000000#64 := by
  have hsum : fadd one zero = one := by decide +kernel
  rw [pitchFrequency, hsum, numericsHaveTheNamedProperties.exp2_one]
  decide +kernel

/-- `SETVOLT` with a finite operand and a finite frequency leaves that frequency in the voice. -/
theorem setvolt_frequency {s : State} {vi : Nat} {x f : F64} (hs : shaped s = true)
    (hvi : vi < s.cfg.nv) (hx : isFinite x = true)
    (hf : pitchFrequency numerics x (voiceAt s vi).detune = f) (hfin : isFinite f = true) :
    ∃ t, exec (.setvolt vi x) s = .next t ∧ (voiceAt t vi).frequency = f := by
  obtain ⟨-, -, -, hspec⟩ := setVoltWritesVoltageAndFrequency s vi x hs
  obtain ⟨-, hnext⟩ := hspec hvi hx f hf.symm
  obtain ⟨t, hexec, -, -, -, hvoice⟩ := hnext hfin
  exact ⟨t, hexec, by simp [voiceAt, hvoice]⟩

/-- Settles O17: the two powers of two that R10 fixes. -/
theorem pitchContractAtZeroAndOneVolt : Obligations.PitchContractAtZeroAndOneVolt := by
  intro s vi hs hvi hdetune
  have hpitch : ∀ x, pitchFrequency numerics x (voiceAt s vi).detune = pitchFrequency numerics x zero :=
    fun x => congrArg (pitchFrequency numerics x) hdetune
  have hzero := (hpitch zero).trans pitchFrequency_atReset
  have hone := (hpitch one).trans pitchFrequency_oneVolt
  exact ⟨setvolt_frequency hs hvi (by decide) hzero (by decide),
    setvolt_frequency hs hvi (by decide) hone (by decide)⟩

/-! ### The oscillator step (40_voice.md section 3) -/

/-- The voice file after a tick: each voice advanced at the rate held, its increment finite (R117). -/
theorem voices_of_tick {s t : State} (h : exec .tick s = .next t) :
    ∃ sr, s.pipe.sampleRate = some sr ∧ incsFinite sr s = true ∧
      t.voices = s.voices.map (voiceAdvance sr) := by
  obtain ⟨sr, r, -, hrate, hinc, -, rfl⟩ := tickWith_next.1 h
  exact ⟨sr, hrate, hinc, rfl⟩

theorem isTime_of_pos {x : F64} (h : flt zero x = true) : isTime x = true := by
  obtain ⟨-, hnan, hpos⟩ := flt_iff.1 h
  simp [isTime, hnan, signBit_of_pos (orderKey_zero ▸ hpos)]

/-- The increment of a frequency that is not below zero, where it is finite, is not below zero, at every
rate above zero. -/
theorem phaseInc_nonneg_of_pos {sr : F64} {v : Voice} (hsr : flt zero sr = true)
    (h0 : fle zero v.frequency = true) (hinc : isFinite (phaseInc sr v) = true) :
    0 ≤ units (phaseInc sr v) := by
  have hkey := orderKey_fdiv_nonneg h0 (isTime_of_pos hsr) (isNaN_of_isFinite hinc)
  rw [← units_zero, units_le_iff isFinite_zero hinc, orderKey_zero]
  exact hkey

/-- Settles O20: a phase in `[0, 1)` and a finite increment not below zero have a finite sum not below
zero, and its fractional part is in `[0, 1)`. -/
theorem phaseStaysInUnitInterval : Obligations.PhaseStaysInUnitInterval := by
  intro s t sr hrate _ hpos hvoices h v hv
  obtain ⟨sr', hrate', hincs, hmap⟩ := voices_of_tick h
  obtain rfl : sr = sr' := Option.some.inj (hrate.symm.trans hrate')
  rw [hmap] at hv
  obtain ⟨u, hu, rfl⟩ := List.mem_map.1 hv
  obtain ⟨hphase, hfreq⟩ := hvoices u hu
  have hinc : isFinite (phaseInc sr u) = true := List.all_eq_true.1 hincs u hu
  exact isPhase_voiceAdvance hphase hinc (phaseInc_nonneg_of_pos hpos hfreq hinc)

/-- Settles O21: a tick maps one function of the rate over the voice file. -/
theorem voicesShareNoState : Obligations.VoicesShareNoState := by
  intro s s' t t' j hrate hvoice h h'
  obtain ⟨sr, hsr, -, hmap⟩ := voices_of_tick h
  obtain ⟨sr', hsr', -, hmap'⟩ := voices_of_tick h'
  obtain rfl : sr = sr' := Option.some.inj (hsr.symm.trans (hrate.trans hsr'))
  rw [hmap, hmap', List.getElem?_map, List.getElem?_map, hvoice]

end Sys2Proof.Machine
end

section
/-! CERTIFICATE. The mixer commands, the setters of one level, and the mix step (R130 to R134, R140, R141,
R201, R202): O22 to O27. -/

namespace Sys2Proof.Machine

/-! ### A level operand (R130) -/

theorem withNum_of_isNaN {x : F64} (e : Result) (h : isNaN x = true) :
    withNum x e = .refused .nanOperand := if_pos h

theorem withNum_of_not_isNaN {x : F64} (e : Result) (h : isNaN x = false) : withNum x e = e :=
  if_neg (Bool.eq_false_iff.1 h)

/-- R130, case by case of the clamp: what `clampUnit` gives for a number is the level to store. -/
theorem storedLevel_clampUnit {x : F64} (h : isNaN x = false) : StoredLevel x (clampUnit x) := by
  have hunit := inUnit_clampUnit h
  unfold clampUnit at *
  obtain ⟨hbelow, e⟩ | ⟨-, habove, e⟩ | ⟨-, -, e⟩ := clamp_cases x zero one
  · exact .inr (.inl ⟨hbelow, e⟩)
  · exact .inr (.inr ⟨habove, e⟩)
  · exact .inl ⟨e ▸ hunit, e⟩

/-- Settles O24: each setter is a `withNum` whose effect is one write of the clamped operand. -/
theorem unitSettersStoreTheClampedOperand : Obligations.UnitSettersStoreTheClampedOperand := by
  refine fun s x => ⟨fun hx => ?nan, fun hx => ?number⟩
  case nan =>
    exact ⟨withNum_of_isNaN _ hx, withNum_of_isNaN _ hx, withNum_of_isNaN _ hx, withNum_of_isNaN _ hx⟩
  case number =>
    exact ⟨clampUnit x, storedLevel_clampUnit hx, inUnit_clampUnit hx, withNum_of_not_isNaN _ hx,
      withNum_of_not_isNaN _ hx, withNum_of_not_isNaN _ hx, withNum_of_not_isNaN _ hx⟩

/-- Settles O25: the command's meaning is that one write. -/
theorem setNoiseEnableWritesNoiseEnableOnly : Obligations.SetNoiseEnableWritesNoiseEnableOnly :=
  fun _ _ => rfl

/-! ### The per-voice lists of the mixer (41_mixer.md section 1) -/

/-- What a write to an entry that a list has leaves: its length, the value written, the other entries. -/
theorem set_frame {α : Type} {l : List α} {i : Nat} (a : α) (hi : i < l.length) :
    (l.set i a).length = l.length ∧ (l.set i a)[i]? = some a ∧
      ∀ j, j ≠ i → (l.set i a)[j]? = l[j]? :=
  ⟨List.length_set, List.getElem?_set_self hi, fun _ hj => List.getElem?_set_ne hj.symm⟩

/-- Settles O22: a `perVoice` whose effect is one write to the levels. -/
theorem setMixLevelStoresTheClampedLevel : Obligations.SetMixLevelStoresTheClampedLevel := by
  intro s vi x hs
  obtain ⟨-, -, hlen⟩ := shaped_iff.1 hs
  refine ⟨perVoice_of_le _, fun hvi hx => ?nan, fun hvi hx => ?number⟩
  case nan => exact (perVoice_of_lt _ hvi).trans (withNum_of_isNaN _ hx)
  case number =>
    exact ⟨clampUnit x, _, storedLevel_clampUnit hx, inUnit_clampUnit hx,
      (perVoice_of_lt _ hvi).trans (withNum_of_not_isNaN _ hx), rfl, set_frame _ (hlen ▸ hvi)⟩

/-- Settles O23: a `perVoice` whose effect is one write to the enables. -/
theorem setOscEnableWritesTheEnableOnly : Obligations.SetOscEnableWritesTheEnableOnly := by
  intro s vi on hs
  obtain ⟨-, hlen, -⟩ := shaped_iff.1 hs
  exact ⟨perVoice_of_le _, fun hvi => ⟨_, perVoice_of_lt _ hvi, rfl, set_frame _ (hlen ▸ hvi)⟩⟩

/-! ### The mix step (41_mixer.md section 2) -/

/-- One step of R140's sum: the term of voice `i`, where it is enabled, added to the sum so far. -/
def addTerm (ens : List Bool) (ls vs : List F64) (acc : F64) (i : Nat) : F64 :=
  if ens.getD i false then fadd acc (fmul (ls.getD i 0#64) (vs.getD i 0#64)) else acc

/-- R140: walking the three lists together is walking the indices in ascending order. -/
theorem mixVoices_eq_foldl (ens : List Bool) {ls vs : List F64} {acc : F64}
    (hls : ls.length = ens.length) (hvs : vs.length = ens.length) :
    mixVoices acc ens ls vs = (List.range ens.length).foldl (addTerm ens ls vs) acc := by
  induction ens generalizing ls vs acc with
  | nil => rfl
  | cons en ens ih =>
    obtain ⟨l, ls, rfl⟩ := List.exists_cons_of_length_eq_add_one hls
    obtain ⟨v, vs, rfl⟩ := List.exists_cons_of_length_eq_add_one hvs
    rw [List.length_cons, List.range_succ_eq_map, List.foldl_cons, List.foldl_map]
    exact ih (Nat.succ.inj hls) (Nat.succ.inj hvs)

/-- Settles O26: the voices' part is the fold over the indices; the rest is `mixStep` as it stands. -/
theorem mixIsTheOrderedSum : Obligations.MixIsTheOrderedSum := by
  rintro m vs ns n rfl hls hvs acc rfl
  rw [mixStep, mixVoices_eq_foldl m.oscEn hls hvs]
  rfl

/-- R141: a disabled voice adds nothing, whatever its sample. -/
theorem mixVoices_of_disabled {ens : List Bool} (ls vs : List F64) (acc : F64)
    (h : ∀ en ∈ ens, en = false) : mixVoices acc ens ls vs = acc := by
  induction ens generalizing ls vs with
  | nil => rfl
  | cons en ens ih =>
    obtain ⟨rfl, hens⟩ := List.forall_mem_cons.1 h
    cases ls with
    | nil => rfl
    | cons l ls =>
      cases vs with
      | nil => rfl
      | cons v vs => exact ih ls vs hens

/-- A finite number times `+0.0` is the zero with that number's sign. -/
theorem fmul_zero_right {x : F64} (hx : isFinite x = true) :
    fmul x zero = withSign (signBit x) 0 := by
  have hsign : signBit zero = false := by decide
  have hmag : magUnits zero = 0 := by decide
  rw [fmul_finite hx isFinite_zero, hsign, hmag, Nat.mul_zero, pack, roundBits_zero, Bool.bne_false]

/-- The one level with its sign bit set is `-0.0`. -/
theorem eq_negZero_iff_of_inUnit {x : F64} (h : inUnit x = true) :
    x = negZero ↔ signBit x = true := by
  refine ⟨fun hx => hx ▸ rfl, fun hs => f64_ext hs ?_⟩
  obtain ⟨hle, -⟩ := between_iff_fle.1 h
  obtain ⟨-, -, hkey⟩ := fle_iff.1 hle
  rw [orderKey_zero, orderKey, if_pos hs] at hkey
  have hzero : magBits negZero = 0 := by decide
  omega

/-- Settles O27: the sum stays `+0.0`, and the product of a level with it is a zero with the level's sign. -/
theorem mixIsSilentWithEverythingDisabled : Obligations.MixIsSilentWithEverythingDisabled := by
  intro m vs ns hens hnoise hmaster
  obtain ⟨hfinite, -, -⟩ := inUnit_iff.1 hmaster
  have hmix : mixStep m vs ns = withSign (signBit m.master) 0 := by
    rw [mixStep, mixVoices_of_disabled _ _ _ hens, hnoise]
    exact fmul_zero_right hfinite
  have hneg := eq_negZero_iff_of_inUnit hmaster
  rw [hmix]
  cases hs : signBit m.master
  · rw [if_neg (by simp [hneg, hs])]
    exact ⟨rfl, by decide⟩
  · rw [if_pos (hneg.2 hs)]
    exact ⟨rfl, by decide⟩

end Sys2Proof.Machine
end

section
/-! CERTIFICATE. The noise generator (R150 to R163): O28 to O32. -/

namespace Sys2Proof.Machine

/-! ### The colour command (42_noise.md section 1) -/

theorem colourOfCode_of_le {code : Nat} (h : 6 ≤ code) : colourOfCode code = none := by
  obtain ⟨k, rfl⟩ := Nat.exists_eq_add_of_le' h
  rfl

theorem exec_setnoisecol_of_some {code : Nat} {c : NoiseColour} (s : State)
    (h : colourOfCode code = some c) :
    exec (.setnoisecol code) s = .next { s with noise := { s.noise with noiseColor := c } } := by
  simp only [exec, execSetnoisecol, h]

theorem exec_setnoisecol_of_none {code : Nat} (s : State) (h : colourOfCode code = none) :
    exec (.setnoisecol code) s = .next s := by
  simp only [exec, execSetnoisecol, h]

/-- Settles O28: the six codes are the ones `colourOfCode` answers, and from 6 on it answers none. -/
theorem setNoiseColourSelectsTheColour : Obligations.SetNoiseColourSelectsTheColour := by
  refine fun s c code => ⟨fun h => exec_setnoisecol_of_some s ?_,
    fun h => exec_setnoisecol_of_none s (colourOfCode_of_le h)⟩
  simp only [List.mem_cons, Prod.mk.injEq, List.not_mem_nil, or_false] at h
  rcases h with ⟨rfl, rfl⟩ | ⟨rfl, rfl⟩ | ⟨rfl, rfl⟩ | ⟨rfl, rfl⟩ | ⟨rfl, rfl⟩ | ⟨rfl, rfl⟩ <;> rfl

/-! ### Exact products (R9) -/

theorem roundBits_mul_right (n : Nat) {d : Nat} (hd : 0 < d) : roundBits (n * d) d = roundBits n 1 :=
  le_antisymm (roundBits_mono hd one_pos (Nat.mul_one _).le)
    (roundBits_mono one_pos hd (Nat.mul_one _).ge)

/-- A product whose exact value is a whole number of units is the rounding of that number. -/
theorem fmul_eq_pack {a b : F64} (ha : isFinite a = true) (hb : isFinite b = true) {n : Nat}
    (h : magUnits a * magUnits b = n * oneUnits) :
    fmul a b = pack (signBit a != signBit b) n 1 := by
  rw [fmul_finite ha hb, h, pack, roundBits_mul_right n oneUnits_pos, pack]

/-! ### The white sample (42_noise.md section 2) -/

/-- `2^-52` in units: the last place of a number in `[1, 2)`. -/
@[irreducible] def whitePlace : Nat := 2 ^ 1022

theorem whitePlace_eq : whitePlace = 2 ^ 1022 := by unfold whitePlace; rfl

theorem oneUnits_eq_whitePlace : oneUnits = 2 ^ 52 * whitePlace := by
  rw [whitePlace_eq, ← pow_add, oneUnits]

theorem hasFinite_whitePlace {m : Nat} (hm : m < 2 ^ 53) : HasFinite (m * whitePlace) :=
  ⟨m, 1022, hm, by norm_num, by rw [whitePlace_eq]⟩

/-- An integer of 53 bits is a number of binary64 (R11). -/
theorem u2f_exact {u : Nat} (hu : u < 2 ^ 53) :
    isFinite (u2f u) = true ∧ signBit (u2f u) = false ∧ magUnits (u2f u) = u * oneUnits := by
  have h : HasFinite (u * oneUnits) := ⟨u, 1074, hu, by norm_num, rfl⟩
  exact ⟨isFinite_pack_of_hasFinite false h, signBit_pack _ _ _, by
    rw [u2f, magUnits_eq, magBits_pack, h.bitsUnits_roundBits]⟩

/-- R153, the first operation: the scaling is exact. -/
theorem whiteScaled_exact {u : Nat} (hu : u < 2 ^ 53) :
    isFinite (fmul (u2f u) litWhiteScale) = true ∧
      units (fmul (u2f u) litWhiteScale) = (u * whitePlace : Nat) := by
  obtain ⟨hfin, hsign, hmag⟩ := u2f_exact hu
  have hlit : isFinite litWhiteScale = true ∧ signBit litWhiteScale = false ∧
      magUnits litWhiteScale = 2 ^ 1022 := by decide +kernel
  obtain ⟨hsf, hss, hsm⟩ := hlit
  have hprod : magUnits (u2f u) * magUnits litWhiteScale = u * whitePlace * oneUnits := by
    rw [hmag, hsm, whitePlace_eq, Nat.mul_right_comm]
  have hrep := hasFinite_whitePlace hu
  rw [fmul_eq_pack hfin hsf hprod, hsign, hss]
  exact ⟨isFinite_pack_of_hasFinite _ hrep, units_pack_of_hasFinite _ hrep⟩

/-- R153, the second operation: the difference is a multiple of `2^-52` in `[-1, 1)`, and so exact. -/
theorem units_whiteOf (seed : Word64) :
    units (whiteOf seed) = ((seed.toNat / 2 ^ 11 : Nat) - 2 ^ 52 : Int) * whitePlace := by
  have htop : (seed >>> 11).toNat = seed.toNat / 2 ^ 11 := by
    rw [BitVec.toNat_ushiftRight, Nat.shiftRight_eq_div_pow]
  have hu : seed.toNat / 2 ^ 11 < 2 ^ 53 := by have := seed.isLt; omega
  obtain ⟨hfin, hval⟩ := whiteScaled_exact hu
  have hdiff : units (fmul (u2f (seed.toNat / 2 ^ 11)) litWhiteScale) - units one
      = ((seed.toNat / 2 ^ 11 : Nat) - 2 ^ 52 : Int) * whitePlace := by
    rw [hval, units_one, oneUnits_eq_whitePlace]
    push_cast
    ring
  have hrep : HasFinite
      (units (fmul (u2f (seed.toNat / 2 ^ 11)) litWhiteScale) - units one).natAbs := by
    rw [hdiff, Int.natAbs_mul, Int.natAbs_natCast]
    exact hasFinite_whitePlace (by omega)
  obtain ⟨-, hsub⟩ := fsub_of_hasFinite hfin isFinite_one hrep
  rw [whiteOf, htop, hsub, hdiff]

/-- Settles O29: both operations are exact (`whiteScaled_exact`, `units_whiteOf`). -/
theorem whiteSampleIsExact : Obligations.WhiteSampleIsExact := by
  refine fun seed => ⟨isWhite_whiteOf seed, ?_⟩
  rw [units_whiteOf, oneUnits_eq_whitePlace]
  push_cast
  ring

/-! ### The colours of a tick (42_noise.md section 2) -/

/-- The colours of a tick, in terms of the registers it leaves and those before it (R156 to R161). -/
theorem noiseTuple_eq (delayed : Bool) (n : Noise) :
    noiseTuple delayed n =
      { white := (noiseNext n).w1
        pink := pinkSample delayed (pinkSections n.b (noiseNext n).w1) (noiseNext n).w1
        brown := (noiseNext n).brown
        blue := clamp (fsub (noiseNext n).w1 n.w1) negOne one
        violet := clamp (fadd (fsub (noiseNext n).w1 (fmul litTwo n.w1)) n.w2) negOne one
        grey := clamp (fadd (fmul litGreyWhite (noiseNext n).w1) (fmul litGreyPink
          (pinkSample delayed (pinkSections n.b (noiseNext n).w1) (noiseNext n).w1))) negOne one } := by
  rw [noiseNext_w1, noiseNext_brown, noiseTuple]

/-- The pink sample is the sum over the taps that the tick leaves, the seventh the new or the delayed one,
times the scale (R156). -/
theorem pinkSample_eq (delayed : Bool) (n : Noise) :
    pinkSample delayed (pinkSections n.b (noiseNext n).w1) (noiseNext n).w1 =
      let b := (noiseNext n).b
      fmul (fadd (fadd (fadd (fadd (fadd (fadd (fadd b.b0 b.b1) b.b2) b.b3) b.b4) b.b5)
        (if delayed then n.b.b6 else b.b6)) (fmul (noiseNext n).w1 litBias)) litPinkScale := by
  simp only [noiseNext_b, noiseNext_w1, pinkSample, pinkSections]

/-- Settles O30: each colour is its component of `noiseTuple_eq`. -/
theorem noiseSampleOfEachColour : Obligations.NoiseSampleOfEachColour := by
  rintro delayed n n' pink rfl hpink
  rw [← pinkSample_eq] at hpink
  rw [noiseSample, noiseTuple_eq, ← hpink]
  refine ⟨?_, ?_, ?_, ?_, ?_, ?_⟩ <;>
  · intro hcolour
    rw [hcolour, selectColour]

/-! ### The noise registers along a run (42_noise.md section 2) -/

theorem noise_of_tick {s t : State} (h : exec .tick s = .next t) : t.noise = noiseNext s.noise := by
  obtain ⟨sr, r, -, -, -, -, rfl⟩ := tickWith_next.1 h
  rfl

/-- A tick steps the noise registers; no other instruction writes one of them but the selection. -/
theorem Effect.noise_eq_or {i : Instr} {s t : State} (h : Effect i s t) :
    (i = .tick ∧ t.noise = noiseNext s.noise) ∨
      t.noise = { s.noise with noiseColor := t.noise.noiseColor } := by
  cases h
  case tick => exact .inl ⟨rfl, rfl⟩
  all_goals exact .inr rfl

/-- The selection takes no part in the step of the registers (R151). -/
theorem noiseNext_setColour (n : Noise) (c : NoiseColour) :
    noiseNext { n with noiseColor := c } = { noiseNext n with noiseColor := c } := by
  simp only [noiseNext, tickWhite]

/-- Settles O31: a tick is `noiseNext` of the registers before it, whatever the selection. -/
theorem noiseStreamDependsOnNoiseRegistersAlone :
    Obligations.NoiseStreamDependsOnNoiseRegistersAlone := by
  refine ⟨fun s s' t t' hnoise h h' => ?_, fun i s t htick h => ?_⟩
  · rw [noise_of_tick h, noise_of_tick h', ← noiseNext_setColour, hnoise, noiseNext_setColour]
  · exact (effect_of_exec h).noise_eq_or.resolve_left fun ⟨hi, _⟩ => htick hi

theorem Effect.keeps_pinkBounded {i : Instr} {s t : State} (h : Effect i s t)
    (hs : pinkBounded s.noise.b = true) : pinkBounded t.noise.b = true := by
  rcases h.noise_eq_or with ⟨-, hn⟩ | hn
  · exact hn ▸ pinkBounded_noiseNext hs
  · rw [hn]; exact hs

/-- Settles O32: the sample is at most 64 (`within_pinkSample`); a tick keeps the taps bounded, every other
instruction leaves them, and reset clears them. -/
theorem stepKeepsPinkTapsBounded : Obligations.StepKeepsPinkTapsBounded := by
  refine fun s hs => ⟨?sample, fun t h => ?step⟩
  case sample =>
    have hw := within_white s.noise
    exact (within_pinkSample _ (pinkSections_bounded hs hw) hw).isFinite
  case step =>
    exact step_keeps (P := fun t => pinkBounded t.noise.b = true) h hs (fun _ => hs)
      Effect.keeps_pinkBounded fun _ => (noise_atReset_legal s.cfg.seed0).2

end Sys2Proof.Machine
end

section
/-! CERTIFICATE. The gate and envelope commands and the envelope step (R170 to R175, R180 to R186, R189):
O33 to O38. -/

namespace Sys2Proof.Machine

/-! ### The gate (43_envelopes.md section 1) -/

theorem exec_setgate_of_edge {s : State} {on : Bool} (h : on ≠ s.mods.gate) :
    exec (.setgate on) s = .next (setMods s
      { s.mods with gate := on, fenv := gateEdge on s.mods.fenv, lenv := gateEdge on s.mods.lenv }) :=
  if_neg h

theorem gateEdge_false (e : Envelope) : gateEdge false e =
    { e with stage := if e.stage = .idle then .idle else .release } := by
  by_cases h : e.stage = .idle
  · obtain ⟨a, d, su, r, st, v⟩ := e
    cases h
    rfl
  · rw [if_neg h]
    exact if_neg h

/-- Settles O33: the command is `gateEdge` on both envelopes where the operand differs from the gate. -/
theorem setGateActsOnEdgesOnly : Obligations.SetGateActsOnEdgesOnly := by
  refine fun s => ⟨if_pos rfl, fun hgate => ?rise, fun hgate => ?fall⟩
  case rise => exact exec_setgate_of_edge (by simp [hgate])
  case fall =>
    rw [exec_setgate_of_edge (by simp [hgate]), gateEdge_false, gateEdge_false, setMods]

/-! ### The times and the sustain level (43_envelopes.md section 2) -/

/-- R172, case by case of the clamp: what `clampT` gives for a number is the time to store. -/
theorem storedTime_clampT {t : F64} (h : isNaN t = false) : StoredTime t (clampT t) := by
  by_cases hpos : flt zero t = true
  · exact .inl ⟨hpos, if_pos hpos⟩
  · have hle : fle t zero = true := by
      have hzero : isNaN zero = false := by decide
      exact fle_iff.2 ⟨h, hzero, not_lt.1 fun hlt => hpos (flt_iff.2 ⟨hzero, h, hlt⟩)⟩
    exact .inr ⟨hle, if_neg hpos⟩

theorem withNum3_of_isNaN {a b c : F64} (e : Result)
    (h : isNaN a = true ∨ isNaN b = true ∨ isNaN c = true) :
    withNum3 a b c e = .refused .nanOperand := if_pos (by simpa [or_assoc] using h)

theorem withNum3_of_not_isNaN {a b c : F64} (e : Result) (ha : isNaN a = false)
    (hb : isNaN b = false) (hc : isNaN c = false) : withNum3 a b c e = e :=
  if_neg (by simp [ha, hb, hc])

/-- Settles O34: each setter is a `withNum3` whose effect is one `withADS`. -/
theorem envelopeSettersStoreClampedParameters : Obligations.EnvelopeSettersStoreClampedParameters := by
  refine fun s a d su => ⟨fun hnan => ?nan, fun ha hd hsu => ?number⟩
  case nan => exact ⟨withNum3_of_isNaN _ hnan, withNum3_of_isNaN _ hnan⟩
  case number =>
    exact ⟨clampT a, clampT d, clampUnit su, storedTime_clampT ha, storedTime_clampT hd,
      storedLevel_clampUnit hsu, isTime_clampT a, isTime_clampT d, inUnit_clampUnit hsu,
      withNum3_of_not_isNaN _ ha hd hsu, withNum3_of_not_isNaN _ ha hd hsu⟩

/-- Settles O35: each setter is a `withNum` whose effect is one `withRelease`. -/
theorem releaseSettersStoreClampedTime : Obligations.ReleaseSettersStoreClampedTime := by
  refine fun s r => ⟨fun hnan => ?nan, fun hr => ?number⟩
  case nan => exact ⟨withNum_of_isNaN _ hnan, withNum_of_isNaN _ hnan⟩
  case number =>
    exact ⟨clampT r, storedTime_clampT hr, isTime_clampT r, withNum_of_not_isNaN _ hr,
      withNum_of_not_isNaN _ hr⟩

/-! ### The envelope step (43_envelopes.md sections 3 and 4) -/

section
variable (dt : F64) {e : Envelope}

theorem envStep_of_idle (h : e.stage = .idle) : envStep dt e = e := by
  simp only [envStep, h]

theorem envStep_of_attack (h : e.stage = .attack) : envStep dt e =
    if nearTarget one (approach e.value one dt e.attack)
    then { e with value := one, stage := .decay }
    else { e with value := approach e.value one dt e.attack } := by
  simp only [envStep, h]

theorem envStep_of_decay (h : e.stage = .decay) : envStep dt e =
    if nearTarget e.sustain (approach e.value e.sustain dt e.decay)
    then { e with value := e.sustain, stage := .sustain }
    else { e with value := approach e.value e.sustain dt e.decay } := by
  simp only [envStep, h]

theorem envStep_of_sustain (h : e.stage = .sustain) :
    envStep dt e = { e with value := e.sustain } := by
  simp only [envStep, h]

theorem envStep_of_release (h : e.stage = .release) : envStep dt e =
    if fle (approach e.value zero dt e.release) litSnap
    then { e with value := zero, stage := .idle }
    else { e with value := approach e.value zero dt e.release } := by
  simp only [envStep, h]

end

/-- Both ways a test of a Boolean can go. -/
theorem ite_bool_spec {α : Type} (b : Bool) (x y : α) :
    (b = true → (if b then x else y) = x) ∧ (b = false → (if b then x else y) = y) :=
  ⟨fun h => if_pos h, fun h => if_neg (Bool.eq_false_iff.1 h)⟩

/-- Settles O36: the equation of each stage, its threshold met or not. -/
theorem envelopeStepFollowsTheStageRules : Obligations.EnvelopeStepFollowsTheStageRules := by
  refine fun dt k v e => ⟨envStep_of_idle dt, ?attack, ?decay, envStep_of_sustain dt, ?release⟩
  case attack =>
    rintro hst rfl rfl
    exact envStep_of_attack dt hst ▸ ite_bool_spec _ _ _
  case decay =>
    rintro hst rfl rfl
    exact envStep_of_decay dt hst ▸ ite_bool_spec _ _ _
  case release =>
    rintro hst rfl rfl
    exact envStep_of_release dt hst ▸ ite_bool_spec _ _ _

/-- Settles O38: in `Idle` the value stays; in every other stage `envRun` asks for the range alone, which
`envStep_run` keeps. -/
theorem envelopeValueStaysInUnitInterval : Obligations.EnvelopeValueStaysInUnitInterval := by
  intro dt e hdt he hv
  by_cases hst : e.stage = .idle
  · rwa [envStep_of_idle dt hst]
  · have hrun : envRun e = true := envRun_iff.2 ⟨hv, fun h => absurd h hst⟩
    obtain ⟨hvalue, -⟩ := envRun_iff.1 (envStep_run hdt he hrun)
    exact hvalue

/-! ### The gate and the stages along a run (R189) -/

/-- A gate edge moves the stages with the gate, a tick keeps each on its side; no other instruction writes
the gate or a stage. -/
theorem Effect.keeps_gateLegal {i : Instr} {s t : State} (he : Effect i s t)
    (h : gateLegal s.mods = true) : gateLegal t.mods = true := by
  obtain ⟨hfenv, hlenv⟩ := gateLegal_iff.1 h
  cases he
  case tick sr r _ _ _ _ =>
    exact gateLegal_iff.2 ⟨gateAllows_envStep _ _ _ hfenv, gateAllows_envStep _ _ _ hlenv⟩
  case setgate on => exact gateLegal_iff.2 ⟨gateAllows_gateEdge on _, gateAllows_gateEdge on _⟩
  all_goals exact h

/-- Settles O37: every effect of an instruction keeps it, and after reset the gate is down and both
envelopes are in `Idle`. -/
theorem stepKeepsGateAndStagesTogether : Obligations.StepKeepsGateAndStagesTogether := fun _ _ hs h =>
  step_keeps (P := fun t => gateLegal t.mods = true) h hs (fun _ => hs) Effect.keeps_gateLegal
    fun _ => rfl

end Sys2Proof.Machine
end

section
/-! CERTIFICATE. The filter: the cutoff command, the ranges of the dynamic cutoff and of the coefficient,
and the ladder's bound (R200, R205, R206, R211): O39 to O41. -/

namespace Sys2Proof.Machine

/-! ### The cutoff command (44_filter.md section 1) -/

/-- Settles O39: the command is a `withNum` whose effect is the one write of the operand. -/
theorem setCutoffStoresUnclamped : Obligations.SetCutoffStoresUnclamped := fun _ _ =>
  ⟨withNum_of_isNaN _, withNum_of_not_isNaN _⟩

/-! ### The dynamic cutoff and the coefficient (44_filter.md section 2) -/

/-- Multiplying by a factor of at least 1 lowers no number that is not below zero: the exact product does
not, and rounding is monotone (R9). -/
theorem orderKey_le_fmul {a b : F64} (ha : isFinite a = true) (hb : isFinite b = true)
    (h1 : (oneUnits : Int) ≤ units a) (h0 : 0 ≤ units b) : orderKey b ≤ orderKey (fmul a b) := by
  rw [orderKey_fmul ha hb]
  exact le_rnd_of_le oneUnits_pos hb (by rw [mul_comm]; exact mul_le_mul_of_nonneg_right h1 h0)

/-- A clamp takes nothing above its lower bound down to it. -/
theorem flt_clamp {x lo hi : F64} (hx : flt lo x = true) (hhi : flt lo hi = true) :
    flt lo (clamp x lo hi) = true := by
  obtain ⟨hbelow, -⟩ | ⟨-, -, e⟩ | ⟨-, -, e⟩ := clamp_cases x lo hi
  · obtain ⟨-, -, hlt⟩ := flt_iff.1 hbelow
    obtain ⟨-, -, hgt⟩ := flt_iff.1 hx
    exact absurd hlt hgt.asymm
  · rwa [e]
  · rwa [e]

/-- The angular cutoff `TWO_PI * dyn` of R206 is a number of at least 1: both factors are. -/
theorem angularCutoff_ge_one {dyn : F64} (hdyn : between litCutoffMin litCutoffMax dyn = true) :
    isFinite (fmul litTwoPi dyn) = true ∧ (oneUnits : Int) ≤ units (fmul litTwoPi dyn) := by
  have hpi : Within (7 * gridOne) litTwoPi := by unfold Within; decide +kernel
  have hpi1 : (oneUnits : Int) ≤ units litTwoPi := by decide +kernel
  have hmin : (oneUnits : Int) ≤ units litCutoffMin := by decide +kernel
  obtain ⟨hf, hlo, -⟩ := (between_iff (by decide) (by decide)).1 hdyn
  have hprod : Within (126000 * gridOne) (fmul litTwoPi dyn) :=
    hpi.fmul (within_of_cutoff hdyn) (by decide) (by decide)
  have hle := orderKey_le_fmul hpi.isFinite hf hpi1 (by omega)
  rw [← units_le_iff hf hprod.isFinite] at hle
  exact ⟨hprod.isFinite, (hmin.trans hlo).trans hle⟩

/-- R206: the coefficient of a positive time step does not round to zero: it is at least the time step, or
the clamp's upper bound. -/
theorem filterCoeff_pos {dyn dt : F64} (hdyn : between litCutoffMin litCutoffMax dyn = true)
    (hdt : isFinite dt = true) (hpos : flt zero dt = true) : flt zero (filterCoeff dyn dt) = true := by
  obtain ⟨hangf, hang⟩ := angularCutoff_ge_one hdyn
  obtain ⟨hzero, hnan, hlt⟩ := flt_iff.1 hpos
  have hdt0 : 0 ≤ units dt := (fle_zero_iff hdt).1 (fle_iff.2 ⟨hzero, hnan, hlt.le⟩)
  have hraise := orderKey_le_fmul hangf hdt hang hdt0
  exact flt_clamp (flt_iff.2 ⟨hzero, isNaN_fmul hangf hdt, hlt.trans_le hraise⟩) (by decide)

/-- Settles O40: the clamps give the ranges, and the time step of a legal rate is above zero. -/
theorem dynamicCutoffAndCoefficientRanges : Obligations.DynamicCutoffAndCoefficientRanges := by
  refine ⟨fun _ _ _ => dynCutoff_range, fun dyn sr hdyn hsr => ?coefficient⟩
  case coefficient =>
    obtain ⟨-, -, hdt, hpos⟩ := legalRate_iff.1 hsr
    obtain ⟨-, hmax⟩ := between_iff_fle.1 (filterCoeff_range hdyn hdt)
    exact ⟨filterCoeff_pos hdyn hdt hpos, hmax⟩

/-! ### The ladder (44_filter.md section 3) -/

/-- Settles O41: a coefficient of at most 0.99 is one of at most 1, for which every stage moves from a
value in `[-1, 1]` toward another, each `ftanh` being in that range. -/
theorem ladderStaysBounded : Obligations.LadderStaysBounded := fun _ _ _ _ hnm hg =>
  ladderStep_bounded hnm (inUnit_of_coeff hg)

end Sys2Proof.Machine
end

section
/-! CERTIFICATE. The pipeline: `NOP`, `SETRATE`, `TICK`, the output clamp and the silence after reset (R220
to R228): O42 to O47. -/

namespace Sys2Proof.Machine

/-! ### `NOP` and `SETRATE` (45_pipeline.md sections 1 and 2) -/

/-- Settles O42: the operation's meaning is the state it is given. -/
theorem nopChangesNothing : Obligations.NopChangesNothing := fun _ => rfl

/-- R221: a finite number above zero is below `2^1024`, so its reciprocal does not round to zero. -/
theorem reciprocal_pos {x : F64} (hx : isFinite x = true) (hpos : flt zero x = true) :
    flt zero (fdiv one x) = true := by
  obtain ⟨hzero, hnan, hkey⟩ := flt_iff.1 hpos
  have hunits : 0 ≤ units x := (fle_zero_iff hx).1 (fle_iff.2 ⟨hzero, hnan, hkey.le⟩)
  rw [orderKey_zero] at hkey
  have hnonzero : isZero x = false := by
    have := natAbs_orderKey x
    simp only [isZero, decide_eq_false_iff_not]
    omega
  have hlargest : (magUnits x : Int) ≤ units 0x7FEFFFFFFFFFFFFF#64 := by
    rw [← units_eq_magUnits hunits, units_le_iff hx (by decide)]
    exact Int.le_sub_one_of_lt ((isFinite_iff x).1 hx).2
  have hexact : units 0x7FEFFFFFFFFFFFFF#64 ≤ units one * oneUnits := by decide +kernel
  have hsmallest : units 1#64 = 1 := by decide
  have hround : orderKey 1#64 ≤ rnd (units one * oneUnits) (magUnits x) := by
    refine le_rnd_of_le (magUnits_pos hx hkey) (by decide) ?_
    rw [hsmallest, one_mul]
    exact hlargest.trans hexact
  refine flt_iff.2 ⟨hzero, isNaN_fdiv isFinite_one hx hnonzero, ?_⟩
  rw [orderKey_fdiv isFinite_one hx hkey]
  exact lt_of_lt_of_le (by decide) hround

/-- U3 as R252 lists it: a rate is legal when it is finite, above zero and has a finite reciprocal, that
reciprocal being above zero by itself. -/
theorem legalRate_eq (x : F64) :
    legalRate x = (isFinite x && flt zero x && isFinite (fdiv one x)) := by
  unfold legalRate
  cases hx : isFinite x
  · rfl
  · cases hpos : flt zero x
    · rfl
    · rw [reciprocal_pos hx hpos, Bool.and_true]

/-- Settles O43: `SETRATE` is a `withNum` whose effect tests the rate, and `legalRate_eq` says for which
rates the test holds. -/
theorem setRateStoresALegalRate : Obligations.SetRateStoresALegalRate := by
  refine fun s x => ⟨withNum_of_isNaN _, fun hx hrate => ?illegal, fun hx hpos hdt => ?legal⟩
  case illegal =>
    rw [← legalRate_eq] at hrate
    exact (withNum_of_not_isNaN _ hx).trans (if_neg (Bool.eq_false_iff.1 hrate))
  case legal =>
    have hrate : legalRate x = true := by rw [legalRate_eq, hx, hpos, hdt]; rfl
    exact (withNum_of_not_isNaN _ (isNaN_of_isFinite hx)).trans (if_pos hrate)

/-! ### The preconditions of `TICK` (45_pipeline.md section 3) -/

/-- Where a rate is held, `TICK` tests the increments alone (R117). -/
theorem exec_tick_of_rate {s : State} {sr : F64}
    (hpipe : s.pipe = { rateSet := true, sampleRate := some sr }) :
    exec .tick s =
      if incsFinite sr s then tickAt numerics sr s else .refused .phaseIncrementNotFinite := by
  simp only [exec, execTick, tickWith, hpipe]

/-- Settles O44: without a rate no branch of `TICK` but the refusal is left; with one, an increment that is
not finite fails `incsFinite`. -/
theorem tickIsRefusedWithoutRateOrFiniteIncrement :
    Obligations.TickIsRefusedWithoutRateOrFiniteIncrement := by
  refine ⟨fun s hset => ?unset, fun s sr hpipe hinc => ?increment⟩
  case unset => simp only [exec, execTick, tickWith, hset]
  case increment =>
    obtain ⟨v, hv, hinf⟩ := hinc
    have hincs : incsFinite sr s = false := List.all_eq_false.2 ⟨v, hv, Bool.eq_false_iff.1 hinf⟩
    rw [exec_tick_of_rate hpipe, hincs]
    rfl

/-! ### The effects of `TICK` (45_pipeline.md section 3, 46_ring.md section 1) -/

/-- R240: a push at a cursor that is a slot writes that slot and moves the cursor on, with `filled` set at
the wrap. -/
theorem ringPush_of_lt {ringN : Nat} {r : Ring} (v : F64) (h : r.cursor < ringN) :
    ∃ r', ringPush ringN r v = .ok r' ∧ r'.mem = memWrite r.mem r.cursor v ∧
      (r'.cursor = if r.cursor + 1 = ringN then 0 else r.cursor + 1) ∧
      (r'.filled = if r.cursor + 1 = ringN then true else r.filled) := by
  obtain ⟨hout, -⟩ | ⟨hwrap, e⟩ | ⟨hnext, e⟩ := ringPush_cases ringN r v
  · omega
  · exact ⟨_, e, rfl, (if_pos hwrap).symm, (if_pos hwrap).symm⟩
  · exact ⟨_, e, rfl, (if_neg hnext.ne).symm, (if_neg hnext.ne).symm⟩

/-- A `TICK` whose preconditions hold completes with `tickState`, its clamped output pushed (R223). -/
theorem exec_tick_completes {s : State} {sr : F64}
    (hpipe : s.pipe = { rateSet := true, sampleRate := some sr }) (hinc : incsFinite sr s = true)
    (hcursor : s.ring.cursor < s.cfg.ringN) :
    ∃ r, exec .tick s = .next (tickState numerics sr s r) ∧
      r.mem = memWrite s.ring.mem s.ring.cursor
        (outputClamp s.cfg.outLim (modOutput (tickMods numerics sr s))) ∧
      (r.cursor = if s.ring.cursor + 1 = s.cfg.ringN then 0 else s.ring.cursor + 1) ∧
      (r.filled = if s.ring.cursor + 1 = s.cfg.ringN then true else s.ring.filled) := by
  obtain ⟨r, hpush, hring⟩ := ringPush_of_lt
    (outputClamp s.cfg.outLim (modOutput (tickMods numerics sr s))) hcursor
  exact ⟨r, tickWith_next.2 ⟨sr, r, by rw [hpipe], by rw [hpipe], hinc, hpush, rfl⟩, hring⟩

/-- R151: a tick keeps the selection. (With `n` taken apart the kernel compares one register, not two whole
records.) -/
theorem noiseNext_noiseColor (n : Noise) : (noiseNext n).noiseColor = n.noiseColor := by
  obtain ⟨c, seed, b, brown, w1, w2⟩ := n
  simp only [noiseNext]

theorem noiseNext_seed (n : Noise) : (noiseNext n).seed = lcgStep n.seed := by
  simp only [noiseNext]

/-- The white sample a tick keeps, from the top 53 bits of the LCG state it leaves (R153, R162). -/
theorem noiseNext_w1_of_seed (n : Noise) : (noiseNext n).w1 =
    fsub (fmul (u2f ((noiseNext n).seed.toNat / 2 ^ 11)) litWhiteScale) one := by
  rw [noiseNext_w1, noiseNext_seed, tickWhite, whiteOf, BitVec.toNat_ushiftRight,
    Nat.shiftRight_eq_div_pow]

/-- The pink taps a tick leaves, from those before it and the white sample it keeps (R155, R156). -/
theorem noiseNext_taps (n : Noise) :
    (noiseNext n).b.b0 = fadd (fmul litPole0 n.b.b0) (fmul (noiseNext n).w1 litGain0) ∧
      (noiseNext n).b.b1 = fadd (fmul litPole1 n.b.b1) (fmul (noiseNext n).w1 litGain1) ∧
      (noiseNext n).b.b2 = fadd (fmul litPole2 n.b.b2) (fmul (noiseNext n).w1 litGain2) ∧
      (noiseNext n).b.b3 = fadd (fmul litPole3 n.b.b3) (fmul (noiseNext n).w1 litGain3) ∧
      (noiseNext n).b.b4 = fadd (fmul litPole4 n.b.b4) (fmul (noiseNext n).w1 litGain4) ∧
      (noiseNext n).b.b5 = fadd (fmul litPole5 n.b.b5) (fmul (noiseNext n).w1 litGain5) ∧
      (noiseNext n).b.b6 = fmul (noiseNext n).w1 litTap6 := by
  simp only [noiseNext_w1, noiseNext_b, pinkSections, pinkPole, pinkTap6, and_self]

/-- The brown integrator a tick leaves, from the white sample it keeps (R158). -/
theorem noiseNext_brown_of_w1 (n : Noise) : (noiseNext n).brown =
    clamp (fadd n.brown (fmul (noiseNext n).w1 litBrownStep)) litBrownMin litBrownMax := by
  rw [noiseNext_w1, noiseNext_brown, brownStep]

/-- R224: the two words a tick responds, the clamped one last. -/
theorem tickState_responses (nm : Numerics) (sr : F64) (s : State) (r : Ring) :
    (tickState nm sr s r).ports.responses = s.ports.responses ++
      [⟨modOutput (tickMods nm sr s), false⟩,
        ⟨outputClamp s.cfg.outLim (modOutput (tickMods nm sr s)), true⟩] := rfl

/-- The coefficient of a tick, from the cutoff, the contour and the filter envelope it has stepped (R205,
R206). -/
def tickCoeff (sr : F64) (s : State) : F64 :=
  filterCoeff (dynCutoff s.mods.cutoff s.mods.contour (envStep (fdiv one sr) s.mods.fenv).value)
    (fdiv one sr)

/-- R207, R209: the ladder a tick leaves, each stage from its predecessor as the tick has just written it. -/
theorem tickMods_ladder (nm : Numerics) (sr : F64) (s : State) :
    (tickMods nm sr s).ladder.s0 = poleStep (tickCoeff sr s) s.mods.ladder.s0
        (ladderDrive nm s.mods.emphasis (tickMixed nm sr s) s.mods.ladder) ∧
      (tickMods nm sr s).ladder.s1 = poleStep (tickCoeff sr s) s.mods.ladder.s1
        (nm.ftanh (tickMods nm sr s).ladder.s0) ∧
      (tickMods nm sr s).ladder.s2 = poleStep (tickCoeff sr s) s.mods.ladder.s2
        (nm.ftanh (tickMods nm sr s).ladder.s1) ∧
      (tickMods nm sr s).ladder.s3 = poleStep (tickCoeff sr s) s.mods.ladder.s3
        (nm.ftanh (tickMods nm sr s).ladder.s2) := by
  simp only [tickMods, modStep, ladderStep, tickCoeff, and_self]

/-- Settles O45: the state left is `tickState`, whose voices are mapped one by one, whose noise registers are
`noiseNext`, whose ladder is `tickMods_ladder` and whose ring is the push; each register by its equation
there. -/
theorem tickProducesOneSample : Obligations.TickProducesOneSample := by
  intro s sr hpipe hinc hcursor
  obtain ⟨r, hexec, hmem, hcur, hfilled⟩ :=
    exec_tick_completes hpipe (List.all_eq_true.2 hinc) hcursor
  obtain ⟨h0, h1, h2, h3⟩ := tickMods_ladder numerics sr s
  refine ⟨tickState numerics sr s r, modOutput (tickMods numerics sr s),
    outputClamp s.cfg.outLim (modOutput (tickMods numerics sr s)), fdiv one sr, tickCoeff sr s, hexec,
    rfl, ⟨rfl, rfl, rfl, rfl⟩, List.length_map _, fun j v hv => ?voice, ?noise,
    ⟨rfl, rfl, rfl, rfl, rfl, rfl⟩, rfl, ⟨_, rfl, h0⟩, h1, h2, h3, rfl, rfl, ?written,
    fun k hk => ?kept, hcur, hfilled, tickState_responses _ _ _ _⟩
  case voice => exact ⟨_, rfl, by rw [tickState_voices, tickVoices, List.getElem?_map, hv]; rfl⟩
  case noise =>
    obtain ⟨hb0, hb1, hb2, hb3, hb4, hb5, hb6⟩ := noiseNext_taps s.noise
    rw [tickState_noise]
    exact ⟨noiseNext_noiseColor _, noiseNext_seed _, noiseNext_w1_of_seed _, noiseNext_w2 _, hb0, hb1,
      hb2, hb3, hb4, hb5, hb6, noiseNext_brown_of_w1 _⟩
  case written => rw [ringWord, tickState_ring, hmem, memRead_memWrite_same]
  case kept => rw [ringWord, ringWord, tickState_ring, hmem, memRead_memWrite_other _ _ hk]

/-! ### The output clamp (45_pipeline.md section 3) -/

theorem flt_eq_false_of_fle {a b : F64} (h : fle a b = true) : flt b a = false := by
  obtain ⟨-, -, hle⟩ := fle_iff.1 h
  exact Bool.eq_false_iff.2 fun hlt => (flt_iff.1 hlt).2.2.not_ge hle

/-- R11: a clamp leaves what lies within its bounds. -/
theorem clamp_of_between {x lo hi : F64} (h : between lo hi x = true) : clamp x lo hi = x := by
  obtain ⟨hlo, hhi⟩ := between_iff_fle.1 h
  rw [clamp, flt_eq_false_of_fle hlo, flt_eq_false_of_fle hhi]
  rfl

/-- R11: a clamp brings what lies above its bounds down to the upper one. -/
theorem clamp_of_above {x lo hi : F64} (hx : flt hi x = true) (hle : fle lo hi = true) :
    clamp x lo hi = hi := by
  obtain ⟨-, hnan, hgt⟩ := flt_iff.1 hx
  obtain ⟨hlo, -, hkey⟩ := fle_iff.1 hle
  rw [clamp, flt_eq_false_of_fle (fle_iff.2 ⟨hlo, hnan, hkey.trans hgt.le⟩), hx]
  rfl

/-- The sign bit of a number that is no zero is the sign of its order place. -/
theorem signBit_of_orderKey_ne_zero {x : F64} (h : orderKey x ≠ 0) :
    signBit x = decide (orderKey x < 0) := by
  unfold orderKey at *
  cases hs : signBit x
  · simp
  · simp only [hs, if_true] at h ⊢
    exact (decide_eq_true (by omega)).symm

/-- An order place other than that of the zeros has one encoding. -/
theorem eq_of_orderKey_eq {x y : F64} (h : orderKey x = orderKey y) (h0 : orderKey x ≠ 0) : x = y := by
  refine f64_ext ?sign ?magnitude
  case sign => rw [signBit_of_orderKey_ne_zero h0, signBit_of_orderKey_ne_zero (h ▸ h0), h]
  case magnitude => rw [← natAbs_orderKey, h, natAbs_orderKey]

/-- R226: `0 - x` is `-x` for a finite `x` other than a zero. -/
theorem fsub_zero_left {x : F64} (hx : isFinite x = true) (h0 : orderKey x ≠ 0) :
    fsub zero x = fneg x := by
  have hkey : orderKey (fsub zero x) = orderKey (fneg x) := by
    rw [orderKey_fsub isFinite_zero hx, units_zero, zero_sub, ← units_fneg,
      rnd_units_one (by simpa using hx)]
  refine eq_of_orderKey_eq hkey ?_
  rw [hkey, orderKey_fneg]
  omega

/-- Inverting a sign bit that is clear is setting it. -/
theorem fneg_of_signBit_false {x : F64} (h : signBit x = false) :
    fneg x = x ||| 0x8000000000000000#64 := by
  have hx : x.getLsbD 63 = false := h
  have hmask : (0x8000000000000000#64 : F64) = BitVec.twoPow 64 63 := by decide
  apply BitVec.eq_of_getLsbD_eq
  intro i hi
  rw [fneg, hmask, BitVec.getLsbD_xor, BitVec.getLsbD_or, BitVec.getLsbD_twoPow]
  by_cases hi63 : 63 = i
  · subst hi63
    rw [hx]
    rfl
  · simp [hi63]

/-- The bounds of the output clamp, for a legal limit (R5, R226). -/
theorem outLim_bounds {lim : F64} (hlim : isFinite lim = true) (hpos : flt zero lim = true) :
    fsub zero lim = fneg lim ∧ fneg lim = lim ||| 0x8000000000000000#64 ∧
      between (fneg lim) lim zero = true := by
  obtain ⟨hzero, hnan, hkey⟩ := flt_iff.1 hpos
  rw [orderKey_zero] at hkey
  refine ⟨fsub_zero_left hlim hkey.ne', fneg_of_signBit_false (signBit_of_pos hkey), ?_⟩
  refine between_iff_fle.2 ⟨fle_iff.2 ⟨by rwa [isNaN_fneg], hzero, ?_⟩, fle_iff.2 ⟨hzero, hnan, ?_⟩⟩
  · rw [orderKey_fneg, orderKey_zero]
    omega
  · rw [orderKey_zero]
    exact hkey.le

/-- Settles O46: `OUT_LIM` is above zero, so `0 - OUT_LIM` is `OUT_LIM` with the sign bit set and stands below
it; the three cases are those of a clamp. -/
theorem outputClampBoundsTheSample : Obligations.OutputClampBoundsTheSample := by
  intro lim y hlim hpos hy
  obtain ⟨hneg, hor, hzero⟩ := outLim_bounds hlim hpos
  have hrange := outputClamp_range hlim hpos hy
  have hle : fle (fneg lim) lim = true := by
    obtain ⟨hlo, hhi⟩ := between_iff_fle.1 hzero
    obtain ⟨hnan, -, h1⟩ := fle_iff.1 hlo
    obtain ⟨-, hnan', h2⟩ := fle_iff.1 hhi
    exact fle_iff.2 ⟨hnan, hnan', h1.trans h2⟩
  rw [outputClamp, hneg, ← hor] at *
  exact ⟨rfl, hrange, clamp_of_between, fun h => clamp_of_above h hle, fun h => if_pos h⟩

/-! ### Silence after reset (45_pipeline.md section 3, R228) -/

/-- A ladder stage at rest stays at rest: the step adds a zero to `+0.0`. -/
theorem poleStep_zero {g : F64} (hg : isFinite g = true) : poleStep g zero zero = zero := by
  have hdiff : fsub zero zero = zero := by decide
  rw [poleStep, hdiff, fmul_zero_right hg]
  cases signBit g <;> decide

/-- The ladder of reset, driven with silence, stays as it is (R207). -/
theorem ladderStep_atReset {g : F64} (hg : isFinite g = true) :
    ladderStep numerics g zero Modifiers.atReset.ladder = Modifiers.atReset.ladder := by
  rw [Modifiers.atReset]
  simp only [ladderStep, poleStep_zero hg, numericsHaveTheNamedProperties.tanh_zero]

theorem ladderDrive_atReset :
    ladderDrive numerics Modifiers.atReset.emphasis zero Modifiers.atReset.ladder = zero := by
  have hinput : fsub zero (fmul Modifiers.atReset.ladder.s3
      (fmul Modifiers.atReset.emphasis litFour)) = zero := by decide +kernel
  rw [ladderDrive, hinput, numericsHaveTheNamedProperties.tanh_zero]

/-- The reset modifiers fed with silence stay as they are (R184, R207). -/
theorem modStep_atReset {dt : F64} (hdt : isFinite dt = true) :
    modStep numerics Modifiers.atReset zero dt = Modifiers.atReset := by
  have hfenv : envStep dt Modifiers.atReset.fenv = Envelope.atReset := envStep_of_idle dt rfl
  have hlenv : envStep dt Modifiers.atReset.lenv = Envelope.atReset := envStep_of_idle dt rfl
  have hdyn : between litCutoffMin litCutoffMax (dynCutoff Modifiers.atReset.cutoff
      Modifiers.atReset.contour Envelope.atReset.value) = true := by decide +kernel
  obtain ⟨hg, -, -⟩ := inUnit_iff.1 (inUnit_of_coeff (filterCoeff_range hdyn hdt))
  rw [modStep, hfenv, hlenv, ladderDrive_atReset, ladderStep_atReset hg]
  rfl

theorem modOutput_atReset : modOutput Modifiers.atReset = zero := by decide +kernel

/-- What reset, `SETRATE` and every `TICK` after them keep: the registers that make a sample are those of
reset, and the preconditions of `TICK` hold. -/
structure Silent (sr : F64) (s : State) : Prop where
  rate : s.pipe = { rateSet := true, sampleRate := some sr }
  pitch : ∀ v ∈ s.voices, v.frequency = litRefFreq
  mixer : s.mixer = Mixer.atReset s.cfg.nv
  mods : s.mods = Modifiers.atReset
  limFinite : isFinite s.cfg.outLim = true
  limPos : flt zero s.cfg.outLim = true
  cursor : s.ring.cursor < s.cfg.ringN

/-- After reset and `SETRATE` the machine is silent. -/
theorem silent_of_reset {c : Params} (sr : F64) (p : Ports) (h : cfgLegal c = true) :
    Silent sr { State.resetWith c p with pipe := { rateSet := true, sampleRate := some sr } } := by
  obtain ⟨-, -, hring, hlim, hpos⟩ := cfgLegal_iff.1 h
  exact {
    rate := rfl
    pitch := fun v hv => by rw [List.eq_of_mem_replicate hv, Voice.atReset]
    mixer := rfl
    mods := rfl
    limFinite := hlim
    limPos := hpos
    cursor := hring }

section
variable {sr : F64} {s : State}

theorem Silent.incsFinite (h : Silent sr s) (hinc : isFinite (fdiv litRefFreq sr) = true) :
    incsFinite sr s = true :=
  List.all_eq_true.2 fun v hv => by rwa [phaseInc, h.pitch v hv]

/-- The mix is `+0.0`: every voice and the noise are disabled, and the master level is `+0.0` (R141). -/
theorem Silent.tickMixed (h : Silent sr s) (nm : Numerics) : tickMixed nm sr s = zero := by
  have hzero : inUnit zero = true := by decide
  rw [Machine.tickMixed, h.mixer]
  exact (mixIsSilentWithEverythingDisabled (Mixer.atReset s.cfg.nv) _ _
    (fun _ hen => List.eq_of_mem_replicate hen) rfl hzero).1

theorem Silent.tickMods (h : Silent sr s) (hdt : isFinite (fdiv one sr) = true) :
    tickMods numerics sr s = Modifiers.atReset := by
  rw [Machine.tickMods, h.tickMixed, h.mods, modStep_atReset hdt]

theorem Silent.outputClamp (h : Silent sr s) : outputClamp s.cfg.outLim zero = zero := by
  obtain ⟨hneg, -, hzero⟩ := outLim_bounds h.limFinite h.limPos
  rw [Machine.outputClamp, hneg, clamp_of_between hzero]

/-- A tick of the silent machine completes, responds two zeros and leaves it silent. -/
theorem Silent.tick (h : Silent sr s) (hdt : isFinite (fdiv one sr) = true)
    (hinc : isFinite (fdiv litRefFreq sr) = true) :
    ∃ t, exec .tick s = .next t ∧ Silent sr t ∧
      t.ports.responses = s.ports.responses ++ [⟨0#64, false⟩, ⟨0#64, true⟩] := by
  obtain ⟨r, hexec, -, hcursor, -⟩ := exec_tick_completes h.rate (h.incsFinite hinc) h.cursor
  have hmods := h.tickMods hdt
  refine ⟨tickState numerics sr s r, hexec, ?silent, ?words⟩
  case silent =>
    exact {
      rate := h.rate
      pitch := fun v hv => by
        obtain ⟨u, hu, rfl⟩ := List.mem_map.1 hv
        exact h.pitch u hu
      mixer := h.mixer
      mods := hmods
      limFinite := h.limFinite
      limPos := h.limPos
      cursor := by
        have hlt := h.cursor
        rw [tickState_ring, tickState_cfg, hcursor]
        split <;> omega }
  case words => rw [tickState_responses, hmods, modOutput_atReset, h.outputClamp, zero]

/-- Any number of ticks of the silent machine. -/
theorem Silent.ticks (h : Silent sr s) (hdt : isFinite (fdiv one sr) = true)
    (hinc : isFinite (fdiv litRefFreq sr) = true) (n : Nat) :
    ∃ t, runInstrs (List.replicate n .tick) s = some t ∧ t.ports.responses =
      s.ports.responses ++ (List.replicate n [⟨0#64, false⟩, ⟨0#64, true⟩]).flatten := by
  induction n generalizing s with
  | zero => exact ⟨s, rfl, (List.append_nil _).symm⟩
  | succ n ih =>
    obtain ⟨u, hexec, hu, hwords⟩ := h.tick hdt hinc
    obtain ⟨t, hrun, hrest⟩ := ih hu
    refine ⟨t, by rwa [List.replicate_succ, runInstrs, hexec], ?_⟩
    rw [hrest, hwords, List.replicate_succ, List.flatten_cons, List.append_assoc]

end

/-- Settles O47: `SETRATE` after reset leaves the machine silent, and every tick of a silent machine responds
two zeros and leaves it silent. -/
theorem silentAfterReset : Obligations.SilentAfterReset := by
  intro c sr n hc hsr hinc
  obtain ⟨hfinite, hpos, hdt, -⟩ := legalRate_iff.1 hsr
  obtain ⟨-, -, hsetrate⟩ :=
    setRateStoresALegalRate (State.resetWith c { input := [], responses := [] }) sr
  obtain ⟨t, hrun, hwords⟩ := (silent_of_reset sr { input := [], responses := [] } hc).ticks hdt hinc n
  exact ⟨t, by rwa [runInstrs, hsetrate hfinite hpos hdt], hwords⟩

end Sys2Proof.Machine
end

section
/-! CERTIFICATE. What `SNAP` responds, and what it shows of the pushes (R241 to R245): O48, O49. -/

namespace Sys2Proof.Machine

/-! ### The slots a snapshot reads (46_ring.md section 2) -/

/-- How many slots hold a value: all of them once `filled`, those below the cursor before (R241). -/
def validCount (ringN : Nat) (r : Ring) : Nat := if r.filled then ringN else r.cursor

/-- The slot of the `k`-th oldest word, as `snapSlots_eq_map` says. -/
def snapSlot (ringN : Nat) (r : Ring) (k : Nat) : Nat :=
  if r.filled then (r.cursor + k) % ringN else k

theorem snapSlot_lt {ringN : Nat} {r : Ring} {k : Nat} (hcur : r.cursor < ringN)
    (hk : k < validCount ringN r) : snapSlot ringN r k < validCount ringN r := by
  unfold snapSlot validCount at *
  cases hf : r.filled
  · simpa [hf] using hk
  · simpa using Nat.mod_lt _ (Nat.zero_lt_of_lt hcur)

theorem validCount_le {ringN : Nat} {r : Ring} (hcur : r.cursor < ringN) :
    validCount ringN r ≤ ringN := by
  rw [validCount]
  split
  · exact le_rfl
  · exact hcur.le

/-- From the cursor to the last slot, then from slot 0 to the cursor, is counting on from the cursor modulo
`RING_N`. -/
theorem range'_append_range_eq_map_mod {c n : Nat} (h : c < n) :
    List.range' c (n - c) ++ List.range c = (List.range n).map fun k => (c + k) % n := by
  apply List.ext_getElem
  · simp only [List.length_append, List.length_range', List.length_range, List.length_map]
    omega
  · intro k hk _
    simp only [List.getElem_append, List.length_range', List.getElem_range', List.getElem_range,
      List.getElem_map, one_mul]
    split
    case isTrue hlt => exact (Nat.mod_eq_of_lt (by omega)).symm
    case isFalse hge =>
      simp only [List.length_append, List.length_range', List.length_range] at hk
      rw [Nat.mod_eq_sub_mod (by omega), Nat.mod_eq_of_lt (by omega)]
      omega

/-- R242: the slots a snapshot reads, by age. -/
theorem snapSlots_eq_map {ringN : Nat} {r : Ring} (h : r.cursor < ringN) :
    snapSlots ringN r = (List.range (validCount ringN r)).map (snapSlot ringN r) := by
  unfold snapSlots validCount snapSlot
  cases r.filled
  · exact (List.map_id _).symm
  · exact range'_append_range_eq_map_mod h

/-- R242, R243: a list of as many words as there are valid slots, each the one at its slot by age, is what
`SNAP` responds after its length. -/
theorem exec_snap_of_words {s : State} {out : List F64} (hcur : s.ring.cursor < s.cfg.ringN)
    (hlen : out.length = validCount s.cfg.ringN s.ring)
    (hwords : ∀ k, k < out.length → ringWord s (snapSlot s.cfg.ringN s.ring k) = out[k]?) :
    exec .snap s = .next (respond s (lengthWord out.length :: out)) := by
  refine execSnap_next.2 ⟨out, ringReadAll_ok.2 ?_, rfl⟩
  rw [snapSlots_eq_map hcur, List.forall₂_map_left_iff, List.forall₂_iff_get]
  refine ⟨by rw [List.length_range, hlen], fun k hk hout => ?_⟩
  have hslot : snapSlot s.cfg.ringN s.ring k < s.cfg.ringN :=
    (snapSlot_lt hcur (hlen ▸ hout)).trans_le (validCount_le hcur)
  have hword : memRead s.ring.mem (snapSlot s.cfg.ringN s.ring k) = some out[k] :=
    (hwords k hout).trans (List.getElem?_eq_getElem hout)
  simpa using And.intro hslot hword

/-! ### A legal ring -/

/-- A listed slot holds a value. -/
theorem exists_memRead_of_mem {m : Memory} {k : Nat} (h : k ∈ m.map Prod.fst) :
    ∃ v, memRead m k = some v := by
  induction m with
  | nil => cases h
  | cons p rest ih =>
    obtain ⟨j, u⟩ := p
    rw [memRead]
    split
    case isTrue => exact ⟨u, rfl⟩
    case isFalse hne =>
      obtain rfl | hrest : k = j ∨ k ∈ rest.map Prod.fst := by simpa using h
      · exact absurd rfl hne
      · exact ih hrest

/-- R53 item 7: in a legal ring every slot below the count of the valid ones holds a value. -/
theorem exists_memRead_of_legal {ringN : Nat} {r : Ring} {k : Nat} (h : ringLegal ringN r = true)
    (hk : k < validCount ringN r) : ∃ v, memRead r.mem k = some v := by
  obtain ⟨-, -, hslots⟩ := ringLegal_iff.1 h
  exact exists_memRead_of_mem (hslots ▸ List.mem_range.2 hk)

/-- The words of a legal ring by age. -/
theorem exists_words_of_legal {ringN : Nat} {r : Ring} (h : ringLegal ringN r = true) :
    ∃ out : List F64, out.length = validCount ringN r ∧
      ∀ k, k < out.length → memRead r.mem (snapSlot ringN r k) = out[k]? := by
  obtain ⟨hcur, -, -⟩ := ringLegal_iff.1 h
  have hread : ∀ k : Fin (validCount ringN r), ∃ v, memRead r.mem (snapSlot ringN r k) = some v :=
    fun k => exists_memRead_of_legal h (snapSlot_lt hcur k.isLt)
  choose word hword using hread
  refine ⟨List.ofFn word, List.length_ofFn, fun k hk => ?_⟩
  rw [List.getElem?_eq_getElem hk, List.getElem_ofFn]
  exact hword ⟨k, _⟩

/-- Settles O48: every slot that a snapshot of a legal ring reads holds a value. -/
theorem snapRespondsTheValidSlotsOldestFirst : Obligations.SnapRespondsTheValidSlotsOldestFirst := by
  refine ⟨fun _ => toNat_lengthWord, fun s hlegal => ?_⟩
  obtain ⟨hcur, -, -⟩ := ringLegal_iff.1 hlegal
  obtain ⟨out, hlen, hwords⟩ := exists_words_of_legal hlegal
  exact ⟨out, hlen, hwords, exec_snap_of_words hcur hlen hwords⟩

/-! ### The ring after a list of pushes (46_ring.md sections 1 and 3) -/

/-- What the pushes `ps` since reset leave in the ring: the `j`-th of them in slot `j` modulo `RING_N`, unless
`RING_N` others have come after it. -/
structure HoldsPushes (ringN : Nat) (ps : List F64) (r : Ring) : Prop where
  cursor : r.cursor = ps.length % ringN
  filled : r.filled = decide (ringN ≤ ps.length)
  word : ∀ j, j < ps.length → ps.length ≤ j + ringN → memRead r.mem (j % ringN) = ps[j]?

theorem holdsPushes_empty {ringN : Nat} (h : 1 ≤ ringN) :
    HoldsPushes ringN [] { mem := [], cursor := 0, filled := false } where
  cursor := (Nat.zero_mod ringN).symm
  filled := (decide_eq_false (Nat.not_le.2 h)).symm
  word := fun _ hj => absurd hj (Nat.not_lt_zero _)

/-- Two pushes less than `RING_N` apart go to different slots. -/
theorem mod_ne_of_lt_of_lt_add {j n ringN : Nat} (hlt : j < n) (hnear : n < j + ringN) :
    j % ringN ≠ n % ringN := by
  intro heq
  have hdvd : ringN ∣ n - j := (Nat.modEq_iff_dvd' hlt.le).1 heq
  have hle : ringN ≤ n - j := Nat.le_of_dvd (by omega) hdvd
  omega

/-- The cursor moves on by one slot and wraps. -/
theorem add_one_mod_eq_ite {n ringN : Nat} (hn : 1 ≤ ringN) :
    (n + 1) % ringN = if n % ringN + 1 = ringN then 0 else n % ringN + 1 := by
  have hlt : n % ringN < ringN := Nat.mod_lt _ hn
  rw [← Nat.mod_add_mod]
  split
  case isTrue hwrap => rw [hwrap, Nat.mod_self]
  case isFalse hnext => exact Nat.mod_eq_of_lt (by omega)

/-- The push that first wraps the cursor is number `RING_N`. -/
theorem wrap_or_filled_eq {n ringN : Nat} :
    (if n % ringN + 1 = ringN then true else decide (ringN ≤ n)) = decide (ringN ≤ n + 1) := by
  split
  case isTrue hwrap =>
    have hle : n % ringN ≤ n := Nat.mod_le n ringN
    exact (decide_eq_true (by omega)).symm
  case isFalse hnext =>
    refine decide_eq_decide.2 ⟨Nat.le_succ_of_le, fun hle => ?_⟩
    by_contra hlt
    rw [Nat.mod_eq_of_lt (by omega)] at hnext
    omega

section
variable {ringN : Nat} {ps : List F64} {r : Ring}

/-- A push adds its word to those the ring holds. -/
theorem HoldsPushes.push (h : HoldsPushes ringN ps r) (hn : 1 ≤ ringN) (v : F64) :
    ∃ r', ringPush ringN r v = .ok r' ∧ HoldsPushes ringN (ps ++ [v]) r' := by
  have hcur : ps.length % ringN < ringN := Nat.mod_lt _ hn
  obtain ⟨r', hpush, hmem, hcursor, hfilled⟩ := ringPush_of_lt v (h.cursor ▸ hcur)
  rw [h.cursor] at hmem hcursor hfilled
  refine ⟨r', hpush, ?cursor, ?filled, fun j hj hnear => ?word⟩
  case cursor => rw [hcursor, List.length_append, List.length_singleton, add_one_mod_eq_ite hn]
  case filled =>
    rw [hfilled, h.filled, List.length_append, List.length_singleton]
    exact wrap_or_filled_eq
  case word =>
    rw [List.length_append, List.length_singleton] at hj hnear
    rw [hmem]
    obtain rfl | hlt : j = ps.length ∨ j < ps.length := by omega
    · rw [memRead_memWrite_same, List.getElem?_concat_length]
    · rw [memRead_memWrite_other _ _ (mod_ne_of_lt_of_lt_add hlt hnear),
        List.getElem?_append_left hlt, h.word j hlt (by omega)]

/-- Pushes add their words, one after the other. -/
theorem HoldsPushes.pushes (h : HoldsPushes ringN ps r) (hn : 1 ≤ ringN) (vs : List F64) :
    ∃ r', pushAll ringN vs r = some r' ∧ HoldsPushes ringN (ps ++ vs) r' := by
  induction vs generalizing ps r with
  | nil => exact ⟨r, rfl, by rwa [List.append_nil]⟩
  | cons v vs ih =>
    obtain ⟨r₁, hpush, h₁⟩ := h.push hn v
    obtain ⟨r₂, hrest, h₂⟩ := ih h₁
    exact ⟨r₂, by rwa [pushAll, hpush], by rwa [List.append_cons]⟩

theorem HoldsPushes.validCount_eq (h : HoldsPushes ringN ps r) :
    validCount ringN r = min ps.length ringN := by
  rw [validCount, h.filled, h.cursor]
  by_cases hfull : ringN ≤ ps.length
  · rw [if_pos (decide_eq_true hfull), min_eq_right hfull]
  · rw [if_neg (by simpa using hfull), Nat.mod_eq_of_lt (by omega), min_eq_left (by omega)]

/-- R244: the slots by age are those of the pushes from the first one not overwritten on. -/
theorem HoldsPushes.snapSlot_eq (h : HoldsPushes ringN ps r) {k : Nat} (hk : k < min ps.length ringN) :
    snapSlot ringN r k = (ps.length - ringN + k) % ringN := by
  rw [snapSlot, h.filled, h.cursor]
  by_cases hfull : ringN ≤ ps.length
  · have hback : ps.length + k = ps.length - ringN + k + ringN := by omega
    rw [if_pos (decide_eq_true hfull), Nat.mod_add_mod, hback, Nat.add_mod_right]
  · have hk' : k < ringN := hk.trans_le (min_le_right _ _)
    rw [if_neg (by simpa using hfull), Nat.sub_eq_zero_of_le (by omega), zero_add,
      Nat.mod_eq_of_lt hk']

end

/-- Settles O49: by the words the pushes leave in the ring, those not yet overwritten. -/
theorem snapReturnsTheMostRecentPushes : Obligations.SnapReturnsTheMostRecentPushes := by
  intro ringN ps hn
  obtain ⟨r, hpush, h⟩ := (holdsPushes_empty hn).pushes hn ps
  rw [List.nil_append] at h
  refine ⟨r, hpush, h.cursor, h.filled, ?_⟩
  rintro s rfl rfl
  have hlen : (ps.drop (ps.length - s.cfg.ringN)).length = min ps.length s.cfg.ringN := by
    rw [List.length_drop]
    omega
  rw [← hlen]
  refine exec_snap_of_words (h.cursor ▸ Nat.mod_lt _ hn) (hlen.trans h.validCount_eq.symm)
    fun k hk => ?_
  rw [hlen] at hk
  rw [ringWord, h.snapSlot_eq hk, List.getElem?_drop]
  exact h.word _ (by omega) (by omega)

end Sys2Proof.Machine
end

section
/-! CERTIFICATE. The words of the spec's test vectors (R81 to R87): O2. -/

namespace Sys2Proof.Machine

/-- R84, R93: a word that is an instruction's encoding once its unused bits are cleared decodes to that
instruction. -/
theorem decode_of_and_usedBits {w : OpWord} {i : Instr} (hi : i.wf = true)
    (h : w &&& usedBits (opField w).toNat = encode i) : decode w = .ok i := by
  rw [← decode_and_usedBits, h, decode_encode hi]

/-- Settles O2: each word, its unused bits cleared, is the encoding of the operation beside it; the words of
`SETWAVE`, `SETNOISECOL` and `SETGATE` are the ones that have unused bits set. -/
theorem specWordsDecodeAsWritten : Obligations.SpecWordsDecodeAsWritten :=
  ⟨decode_of_and_usedBits rfl (by decide), decode_of_and_usedBits rfl (by decide),
    decode_of_and_usedBits rfl (by decide), decode_of_and_usedBits rfl (by decide),
    decode_of_and_usedBits rfl (by decide), decode_of_and_usedBits rfl (by decide),
    decode_of_and_usedBits rfl (by decide)⟩

end Sys2Proof.Machine
end

section
/-! CERTIFICATE. The reset line, between operations and during one (R270, R271): O9. -/

namespace Sys2Proof.Machine

/-- R271: of an operation that completes, `rst` leaves the first `k` of its response words. -/
theorem abandonWord_of_next {w : OpWord} {k : Nat} {s t : State} {new : List RspWord}
    (h : exec (decodeOrNop w) s = .next t) (hnew : t.ports.responses = s.ports.responses ++ new) :
    abandonWord w k s = .next (State.resetWith s.cfg
      { s.ports with responses := s.ports.responses ++ new.take k }) := by
  rw [abandonWord, runWord, h]
  simp only [deliveredBefore, hnew, List.take_length_add_append]

/-- R252: of an operation that does not complete, the words that come before `rst` are free. -/
theorem abandonWord_of_stop {w : OpWord} {s : State} (k : Nat)
    (h : ∀ t, exec (decodeOrNop w) s ≠ .next t) :
    abandonWord w k s = .next (State.resetWith s.cfg
      { s.ports with responses := s.ports.responses ++ refusedWords w k s }) := by
  rw [abandonWord, runWord]
  cases he : exec (decodeOrNop w) s with
  | next t => exact absurd he (h t)
  | fault _ => rfl
  | refused _ => rfl

/-- Settles O9: an operation that completes adds its words after those of the state before
(`onlyTickAndSnapRespond`), and `rst` keeps the first `k` of them; of one that does not, the words are free. -/
theorem resetLineRestoresTheResetState : Obligations.ResetLineRestoresTheResetState := by
  refine ⟨fun s rest hinput => step_event hinput, fun s w k rest hinput => ?_⟩
  have hstep : step s = abandonWord w k (withInput s rest) := step_event hinput
  by_cases hnext : ∃ t, exec (decodeOrNop w) (withInput s rest) = .next t
  case pos =>
    obtain ⟨t, ht⟩ := hnext
    obtain ⟨ds, hports, -⟩ := onlyTickAndSnapRespond.2.1 _ _ _ ht
    have hwords : t.ports.responses = s.ports.responses ++ rspWords ds := by rw [hports]; rfl
    refine ⟨(rspWords ds).take k, hstep.trans (abandonWord_of_next ht hwords), fun t' new ht' hnew => ?_⟩
    cases ht.symm.trans ht'
    rw [List.append_cancel_left (hwords.symm.trans hnew)]
  case neg =>
    have hstop := not_exists.1 hnext
    exact ⟨refusedWords w k (withInput s rest), hstep.trans (abandonWord_of_stop k hstop),
      fun t _ ht _ => absurd ht (hstop t)⟩

end Sys2Proof.Machine
end

section
/-! CERTIFICATE. An operation is refused in the situations U1 to U5 and completes in every other (R252,
R254): O57. -/

namespace Sys2Proof.Machine

/-! ### Outcomes that are no fault -/

/-- The outcome is a next state where `ok` is true and a refusal where it is false; never a fault. -/
inductive CompletesIff : Bool → Result → Prop
  | next (t : State) : CompletesIff true (.next t)
  | refused (r : Refusal) : CompletesIff false (.refused r)

theorem CompletesIff.outcome {ok : Bool} {e : Result} (h : CompletesIff ok e) :
    (ok = true → ∃ t, e = .next t) ∧ (ok = false → ∃ r, e = .refused r) := by
  cases h with
  | next t => exact ⟨fun _ => ⟨t, rfl⟩, nofun⟩
  | refused r => exact ⟨nofun, fun _ => ⟨r, rfl⟩⟩

theorem completesIff_ite (ok : Bool) (t : State) (r : Refusal) :
    CompletesIff ok (if ok then .next t else .refused r) := by
  cases ok
  · exact .refused r
  · exact .next t

/-! ### The operand conditions (R252, U1 to U3) -/

theorem completesIff_withNum (x : F64) (t : State) :
    CompletesIff (!isNaN x) (withNum x (.next t)) := by
  cases hx : isNaN x
  · rw [withNum_of_not_isNaN _ hx]
    exact .next t
  · rw [withNum_of_isNaN _ hx]
    exact .refused _

theorem completesIff_withNum3 (a b c : F64) (t : State) :
    CompletesIff (!isNaN a && !isNaN b && !isNaN c) (withNum3 a b c (.next t)) := by
  rw [← Bool.not_or, ← Bool.not_or, withNum3]
  cases isNaN a || isNaN b || isNaN c
  · exact .next t
  · exact .refused _

theorem completesIff_withRate (x : F64) (t : State) :
    CompletesIff (legalRate x) (withRate x (.next t)) := by
  rw [withRate]
  cases hx : isNaN x
  · rw [withNum_of_not_isNaN _ hx]
    exact completesIff_ite _ t _
  · have hillegal : legalRate x = false :=
      Bool.eq_false_iff.2 fun h => Bool.eq_false_iff.1 (isNaN_of_legalRate h) hx
    rw [withNum_of_isNaN _ hx, hillegal]
    exact .refused _

theorem CompletesIff.withPitch {ok : Bool} {e : Result} (h : CompletesIff ok e) (x : F64) :
    CompletesIff (isFinite x && ok) (withPitch x e) := by
  cases hx : isFinite x
  · cases hnan : isNaN x
    · have hinf : isInf x = true := (isFinite_or_isInf hnan).resolve_left (Bool.eq_false_iff.1 hx)
      rw [withPitch_of_isInf _ hinf]
      exact .refused _
    · rw [withPitch_of_isNaN _ hnan]
      exact .refused _
  · rwa [withPitch_of_isFinite _ hx]

/-- A voice index out of range completes before the operand is looked at (R85, R88). -/
theorem CompletesIff.perVoice {ok : Bool} {e : Result} (h : CompletesIff ok e) (vi : Nat) (s : State) :
    CompletesIff (decide (s.cfg.nv ≤ vi) || ok) (perVoice vi s e) := by
  by_cases hvi : s.cfg.nv ≤ vi
  · rw [perVoice_of_le _ hvi, decide_eq_true hvi]
    exact .next s
  · rwa [perVoice_of_lt _ (Nat.lt_of_not_le hvi), decide_eq_false hvi]

theorem completesIff_perVoice_next (vi : Nat) (s t : State) :
    CompletesIff true (perVoice vi s (.next t)) := by
  simpa using (CompletesIff.next t).perVoice vi s

theorem completesIff_setPitch (vi : Nat) (x : F64) (v : Voice) (s : State) :
    CompletesIff (pitchAccepted s vi x v) (setPitch numerics vi x v s) :=
  ((completesIff_ite (isFinite (retuned numerics v).frequency) _ _).withPitch x).perVoice vi s

/-! ### Operations without operands (R252, U4 and U5) -/

/-- R46: the pipeline of a legal state holds no rate, or a legal one. -/
theorem rateLegal_cases {p : Pipeline} (h : rateLegal p = true) :
    p = { rateSet := false, sampleRate := none } ∨
      ∃ sr, p = { rateSet := true, sampleRate := some sr } ∧ legalRate sr = true := by
  obtain ⟨set, rate⟩ := p
  cases set <;> cases rate
  · exact .inl rfl
  · cases h
  · cases h
  · exact .inr ⟨_, rfl, h⟩

/-- The cursor of a legal ring is a slot, so the push of a tick does not fault. -/
theorem Legal.completesIff_tick {s : State} (h : Legal s) :
    CompletesIff (accepted .tick s) (exec .tick s) := by
  obtain ⟨hcursor, -, -⟩ := ringLegal_iff.1 h.ring
  obtain hpipe | ⟨sr, hpipe, -⟩ := rateLegal_cases h.rate
  · have hok : accepted .tick s = false := by rw [accepted, hpipe]
    rw [hok, tickIsRefusedWithoutRateOrFiniteIncrement.1 s (by rw [hpipe])]
    exact .refused _
  · have hok : accepted .tick s = incsFinite sr s := by rw [accepted, hpipe]; rfl
    rw [hok]
    cases hinc : incsFinite sr s
    · rw [exec_tick_of_rate hpipe, hinc]
      exact .refused _
    · obtain ⟨r, hexec, -⟩ := exec_tick_completes hpipe hinc hcursor
      rw [hexec]
      exact .next _

/-- Every slot that a snapshot of a legal ring reads holds a value, so `SNAP` does not fault. -/
theorem Legal.completesIff_snap {s : State} (h : Legal s) : CompletesIff true (exec .snap s) := by
  obtain ⟨out, -, -, hexec⟩ := snapRespondsTheValidSlotsOldestFirst.2 s h.ring
  rw [hexec]
  exact .next _

/-! ### Every operation -/

theorem completesIff_setgate (on : Bool) (s : State) : CompletesIff true (exec (.setgate on) s) := by
  rw [exec, execSetgate]
  split <;> exact .next _

theorem completesIff_setnoisecol (code : Nat) (s : State) :
    CompletesIff true (exec (.setnoisecol code) s) := by
  cases hc : colourOfCode code with
  | some c => exact exec_setnoisecol_of_some s hc ▸ .next _
  | none => exact exec_setnoisecol_of_none s hc ▸ .next _

theorem Legal.completesIff_exec {s : State} (h : Legal s) (i : Instr) :
    CompletesIff (accepted i s) (exec i s) := by
  cases i with
  | nop => exact .next s
  | tick => exact h.completesIff_tick
  | snap => exact h.completesIff_snap
  | setgate on => exact completesIff_setgate on s
  | setvolt vi x | setdetune vi x => exact completesIff_setPitch vi x _ s
  | setwave vi _ | setoscen vi _ => exact completesIff_perVoice_next vi s _
  | setmixlvl vi x => exact (completesIff_withNum x _).perVoice vi s
  | setnoiseen on => exact .next _
  | setnoisecol code => exact completesIff_setnoisecol code s
  | setnoiselvl x | setmaster x | setcutoff x | setemph x | setcontour x | setfrel x | setlrel x =>
    exact completesIff_withNum x _
  | setfenv a d su | setlenv a d su => exact completesIff_withNum3 a d su _
  | setrate x => rw [accepted, ← legalRate_eq]; exact completesIff_withRate x _

/-- Settles O57: instruction by instruction, the test of U1 to U5 decides between the effect and the
refusal. -/
theorem operationsCompleteUnlessListed : Obligations.OperationsCompleteUnlessListed :=
  fun i _ hs => ((invariant_iff.1 hs).completesIff_exec i).outcome

end Sys2Proof.Machine
end
